-- ==== Sys2Proof/Word.lean ====
section
/-! DEFINITION. The words of the block's two ports: 32-bit command words and 32-bit response data
(30_encoding.md R70, R79), bit 0 least significant (00_scope.md R11). -/

namespace Sys2Proof

/-- A command word, and the data of a response. -/
abbrev Word := BitVec 32

/-- `w[lo+len-1 : lo]`, the field of `len` bits of `w` whose lowest bit is bit `lo` (R11). -/
def Word.field (w : Word) (lo len : Nat) : BitVec len := w.extractLsb' lo len

end Sys2Proof
end

