-- ==== Sys2Proof/Config.lean ====
section
/-! DEFINITION. What an implementation fixes (00_scope.md R6, `92_eei_decisions.md` D9) and the contents
the spec leaves unspecified (`93_implementation_defined.md` U1). -/

namespace Sys2Proof

/-- The implementation parameters of R6. They are configuration: no command writes them (R9, R221). -/
structure Params where
  /-- `P_MAX`, the largest characteristic. -/
  pMax : Nat
  /-- `M_MAX`, the largest extension degree. -/
  mMax : Nat
  /-- `Q_MAX`, the largest order. -/
  qMax : Nat
  /-- `N_MAX`, the largest `n` of GSOLVE and of a codec. -/
  nMax : Nat
  /-- `EM_DEPTH`, the number of cells of EMEM. -/
  emDepth : Nat
deriving DecidableEq, Repr

/-- The reference values REF of R6. -/
def Params.ref : Params :=
  { pMax := 251, mMax := 8, qMax := 256, nMax := 255, emDepth := 65536 }

/-- The constraints R6 puts on the parameters. -/
abbrev Params.legal (P : Params) : Prop :=
  (2 ≤ P.pMax ∧ P.pMax ≤ 32767) ∧ (1 ≤ P.mMax ∧ P.mMax ≤ 31) ∧ (2 ≤ P.qMax ∧ P.qMax ≤ 2 ^ 31) ∧
    (2 ≤ P.nMax ∧ P.nMax ≤ P.qMax - 1) ∧ (1 ≤ P.emDepth ∧ P.emDepth ≤ 2 ^ 20)

namespace Config

/-- The content of a LOG RAM word that the table build never wrote (U1: "any value, and unreadable").
A free value, log 7: no rule reads it in a state that a run reaches. -/
opaque hiddenLogWord : Nat → Nat

/-- The content of an ALOG RAM word that the table build never wrote (U1). A free value, log 7. -/
opaque hiddenAlogWord : Nat → List Nat

end Config

end Sys2Proof
end

