-- ==== Sys2Proof/Syntax.lean ====
section
/-! DEFINITION. The commands (30_encoding.md R76), one constructor per row of `spec/opcode_table.json`,
operands in the order of the assembler syntax (R82); the pseudo-instructions (R81); the written form of
a command (R80). -/

namespace Sys2Proof

/-- The number of an element register, `e0` to `e15` (R74). -/
abbrev EReg := Fin 16

/-- The number of an argument register, `a0` to `a15` (R74). -/
abbrev AReg := Fin 16

/-- The number of a field context and of the codec context beside it, `c0` to `c3` (R74). -/
abbrev Ctx := Fin 4

/-- The 35 commands. Immediates are the integers they denote (R75), `imm` unsigned, `v` signed;
`Instr.wf` says which fit a word. -/
inductive Instr where
  | nop
  | seta (ad : AReg) (imm : Nat)
  | csrr (csr : Nat)
  | clre
  | cclr
  | cpush (v : Int)
  | emk (ed : EReg) (c : Ctx)
  | emki (ed : EReg) (c : Ctx) (v : Int)
  | erdc (es : EReg) (index : Nat)
  | emov (ed es : EReg)
  | eld (ed : EReg) (offset : Nat) (ab : AReg)
  | est (es : EReg) (offset : Nat) (ab : AReg)
  | fcfg (c : Ctx) (ap : AReg) (m : Nat) (fp : Bool)
  | logrd (es : EReg)
  | alogrd (ed : EReg) (c : Ctx) (ai : AReg)
  | fadd (ed es1 es2 : EReg)
  | fsub (ed es1 es2 : EReg)
  | fneg (ed es1 : EReg)
  | fmul (ed es1 es2 : EReg)
  | fdiv (ed es1 es2 : EReg)
  | pmulg (ed es1 es2 : EReg)
  | feq (es1 es2 : EReg)
  | faddi (ed es1 : EReg) (v : Int)
  | fsubi (ed es1 : EReg) (v : Int)
  | frsubi (ed es1 : EReg) (v : Int)
  | fmuli (ed es1 : EReg) (v : Int)
  | fdivi (ed es1 : EReg) (v : Int)
  | frdivi (ed es1 : EReg) (v : Int)
  | gsolve (ax aA ab an : AReg)
  | peval (ed es : EReg) (ac al : AReg)
  | rscfg (c : Ctx) (an ak ax : AReg)
  | rscfga (c : Ctx) (an ak : AReg)
  | rsenc (c : Ctx) (ad am : AReg)
  | rsdec (c : Ctx) (ad ar : AReg)
  | rspt (ed : EReg) (c : Ctx) (ai : AReg)
deriving DecidableEq, Repr

namespace Instr

/-- `FINV ed, es`, an alias of `FRDIVI ed, es, 1` (R81). -/
def finv (ed es : EReg) : Instr := .frdivi ed es 1

/-- `EZERO ed, cN`, an alias of `EMKI ed, cN, 0` (R81). -/
def ezero (ed : EReg) (c : Ctx) : Instr := .emki ed c 0

/-- `EONE ed, cN`, an alias of `EMKI ed, cN, 1` (R81). -/
def eone (ed : EReg) (c : Ctx) : Instr := .emki ed c 1

/-- `FDBL ed, es`, an alias of `FMULI ed, es, 2` (R81). -/
def fdbl (ed es : EReg) : Instr := .fmuli ed es 2

/-- `e0` to `e15` (R80). -/
def asmE (r : EReg) : String := "e" ++ toString r.val

/-- `a0` to `a15` (R80). -/
def asmA (r : AReg) : String := "a" ++ toString r.val

/-- `c0` to `c3` (R80). -/
def asmC (c : Ctx) : String := "c" ++ toString c.val

/-- A mnemonic and its operands, comma separated (R80). -/
def asmLine (mnemonic : String) (operands : List String) : String :=
  match operands with
  | [] => mnemonic
  | _ :: _ => mnemonic ++ " " ++ String.intercalate ", " operands

/-- The written form of a command (R80, R82); notation only, no rule of the machine reads it. -/
def toAsm : Instr → String
  | .nop => asmLine "NOP" []
  | .seta ad imm => asmLine "SETA" [asmA ad, toString imm]
  | .csrr csr => asmLine "CSRR" [toString csr]
  | .clre => asmLine "CLRE" []
  | .cclr => asmLine "CCLR" []
  | .cpush v => asmLine "CPUSH" [toString v]
  | .emk ed c => asmLine "EMK" [asmE ed, asmC c]
  | .emki ed c v => asmLine "EMKI" [asmE ed, asmC c, toString v]
  | .erdc es index => asmLine "ERDC" [asmE es, toString index]
  | .emov ed es => asmLine "EMOV" [asmE ed, asmE es]
  | .eld ed offset ab => asmLine "ELD" [asmE ed, toString offset ++ "(" ++ asmA ab ++ ")"]
  | .est es offset ab => asmLine "EST" [asmE es, toString offset ++ "(" ++ asmA ab ++ ")"]
  | .fcfg c ap m fp => asmLine "FCFG" [asmC c, asmA ap, toString m, toString fp.toNat]
  | .logrd es => asmLine "LOGRD" [asmE es]
  | .alogrd ed c ai => asmLine "ALOGRD" [asmE ed, asmC c, asmA ai]
  | .fadd ed es1 es2 => asmLine "FADD" [asmE ed, asmE es1, asmE es2]
  | .fsub ed es1 es2 => asmLine "FSUB" [asmE ed, asmE es1, asmE es2]
  | .fneg ed es1 => asmLine "FNEG" [asmE ed, asmE es1]
  | .fmul ed es1 es2 => asmLine "FMUL" [asmE ed, asmE es1, asmE es2]
  | .fdiv ed es1 es2 => asmLine "FDIV" [asmE ed, asmE es1, asmE es2]
  | .pmulg ed es1 es2 => asmLine "PMULG" [asmE ed, asmE es1, asmE es2]
  | .feq es1 es2 => asmLine "FEQ" [asmE es1, asmE es2]
  | .faddi ed es1 v => asmLine "FADDI" [asmE ed, asmE es1, toString v]
  | .fsubi ed es1 v => asmLine "FSUBI" [asmE ed, asmE es1, toString v]
  | .frsubi ed es1 v => asmLine "FRSUBI" [asmE ed, asmE es1, toString v]
  | .fmuli ed es1 v => asmLine "FMULI" [asmE ed, asmE es1, toString v]
  | .fdivi ed es1 v => asmLine "FDIVI" [asmE ed, asmE es1, toString v]
  | .frdivi ed es1 v => asmLine "FRDIVI" [asmE ed, asmE es1, toString v]
  | .gsolve ax aA ab an => asmLine "GSOLVE" [asmA ax, asmA aA, asmA ab, asmA an]
  | .peval ed es ac al => asmLine "PEVAL" [asmE ed, asmE es, asmA ac, asmA al]
  | .rscfg c an ak ax => asmLine "RSCFG" [asmC c, asmA an, asmA ak, asmA ax]
  | .rscfga c an ak => asmLine "RSCFGA" [asmC c, asmA an, asmA ak]
  | .rsenc c ad am => asmLine "RSENC" [asmC c, asmA ad, asmA am]
  | .rsdec c ad ar => asmLine "RSDEC" [asmC c, asmA ad, asmA ar]
  | .rspt ed c ai => asmLine "RSPT" [asmE ed, asmC c, asmA ai]

end Instr

end Sys2Proof
end

