-- ==== Sys2Proof/WellFormed.lean ====
section
/-! DEFINITION. Which terms of `Instr` are commands: the immediates lie in the ranges of 30_encoding.md
R75. Register and context numbers are in range by their types (R74). -/

namespace Sys2Proof

/-- The range of an unsigned 16-bit immediate: 0 to 65535 (R75, kind 1). -/
def imm16Ok (v : Nat) : Bool := decide (v ≤ 65535)

/-- The range of a raw integer: -32768 to 32767 (R75, kind 2). -/
def simm16Ok (v : Int) : Bool := decide (-32768 ≤ v) && decide (v ≤ 32767)

/-- The range of the 20-bit value of SETA: 0 to 1048575 (R75, kind 3). -/
def imm20Ok (v : Nat) : Bool := decide (v ≤ 1048575)

/-- The command's immediate fits its word (R75). -/
def Instr.wf : Instr → Bool
  | .seta _ imm => imm20Ok imm
  | .csrr csr => imm16Ok csr
  | .cpush v => simm16Ok v
  | .emki _ _ v => simm16Ok v
  | .erdc _ index => imm16Ok index
  | .eld _ offset _ => imm16Ok offset
  | .est _ offset _ => imm16Ok offset
  | .fcfg _ _ m _ => imm16Ok m
  | .faddi _ _ v => simm16Ok v
  | .fsubi _ _ v => simm16Ok v
  | .frsubi _ _ v => simm16Ok v
  | .fmuli _ _ v => simm16Ok v
  | .fdivi _ _ v => simm16Ok v
  | .frdivi _ _ v => simm16Ok v
  | .nop => true
  | .clre => true
  | .cclr => true
  | .emk _ _ => true
  | .emov _ _ => true
  | .logrd _ => true
  | .alogrd _ _ _ => true
  | .fadd _ _ _ => true
  | .fsub _ _ _ => true
  | .fneg _ _ => true
  | .fmul _ _ _ => true
  | .fdiv _ _ _ => true
  | .pmulg _ _ _ => true
  | .feq _ _ => true
  | .gsolve _ _ _ _ => true
  | .peval _ _ _ _ => true
  | .rscfg _ _ _ _ => true
  | .rscfga _ _ _ => true
  | .rsenc _ _ _ => true
  | .rsdec _ _ _ => true
  | .rspt _ _ _ => true

end Sys2Proof
end

