-- ==== Sys2Proof/Decode.lean ====
section
/-! DEFINITION. From words to commands and back: the formats N, I and L (30_encoding.md R70 to R73), the
opcode map (R76), the illegal words (R77, R78), and the encoder written from the same rows. -/

namespace Sys2Proof

/-- The fields that some row of R76 marks as must-be-zero. -/
inductive WordField where
  /-- bits 23:20 -/
  | a
  /-- bits 19:16 -/
  | b
  /-- bits 15:12 (format N) -/
  | c
  /-- bits 11:8 (format N) -/
  | d
  /-- bits 7:2 (format N), always zero -/
  | z
  /-- bits 1:0 (format N) -/
  | x
  /-- bit 3 of `b`, the must-be-zero bit of FCFG -/
  | bTop
  /-- bits 3:2 of `b`, the must-be-zero bits of EMKI -/
  | bHigh
deriving DecidableEq, Repr

/-- The field's value in a word, as an unsigned integer (R11, R71, R72). -/
def WordField.get : WordField → Word → Nat
  | .a, w => (w.field 20 4).toNat
  | .b, w => (w.field 16 4).toNat
  | .c, w => (w.field 12 4).toNat
  | .d, w => (w.field 8 4).toNat
  | .z, w => (w.field 2 6).toNat
  | .x, w => (w.field 0 2).toNat
  | .bTop, w => (w.field 19 1).toNat
  | .bHigh, w => (w.field 18 2).toNat

/-- Why a word is illegal (R77): (a) its opcode is unassigned, or (b) a must-be-zero field is not zero.
The response does not tell which (log 18). -/
inductive DecodeError where
  | unassignedOpcode (op : BitVec 8)
  | mustBeZero (f : WordField)
deriving DecidableEq, Repr

/-- The opcode, bits 31:24 in every format (R70). -/
def opcodeOf (w : Word) : Nat := (w.field 24 8).toNat

/-- The register numbers of format N and I (R71, R72). -/
def nibA (w : Word) : Fin 16 := (w.field 20 4).toFin
def nibB (w : Word) : Fin 16 := (w.field 16 4).toFin
def nibC (w : Word) : Fin 16 := (w.field 12 4).toFin
def nibD (w : Word) : Fin 16 := (w.field 8 4).toFin

/-- The context of a format N command, bits 1:0 (R71). -/
def ctxX (w : Word) : Ctx := (w.field 0 2).toFin

/-- The context of EMKI and FCFG, `b[1:0]` (R72). -/
def ctxB (w : Word) : Ctx := (w.field 16 2).toFin

/-- The flag `fp` of FCFG, `b[2]` (R72). -/
def flagFp (w : Word) : Bool := w.getLsbD 18

/-- `imm16`, unsigned (R75). -/
def imm16Of (w : Word) : Nat := (w.field 0 16).toNat

/-- `simm16`, two's complement (R75). -/
def simm16Of (w : Word) : Int := (w.field 0 16).toInt

/-- `imm20`, unsigned (R75). -/
def imm20Of (w : Word) : Nat := (w.field 0 20).toNat

/-- The command, unless one of its must-be-zero fields is not zero (R77 (b)). -/
def ifZero (w : Word) (zeros : List WordField) (i : Instr) : Except DecodeError Instr :=
  match zeros.find? (fun f => f.get w != 0) with
  | some f => .error (.mustBeZero f)
  | none => .ok i

/-- Decode is total: every word is the word of one command or illegal (R76, R77). -/
def decode (w : Word) : Except DecodeError Instr :=
  match opcodeOf w with
  | 0x00 => ifZero w [.a, .b, .c, .d, .z, .x] .nop
  | 0x01 => ifZero w [] (.seta (nibA w) (imm20Of w))
  | 0x02 => ifZero w [.a, .b] (.csrr (imm16Of w))
  | 0x03 => ifZero w [.a, .b, .c, .d, .z, .x] .clre
  | 0x08 => ifZero w [.a, .b, .c, .d, .z, .x] .cclr
  | 0x09 => ifZero w [.a, .b] (.cpush (simm16Of w))
  | 0x0A => ifZero w [.b, .c, .d, .z] (.emk (nibA w) (ctxX w))
  | 0x0B => ifZero w [.bHigh] (.emki (nibA w) (ctxB w) (simm16Of w))
  | 0x0C => ifZero w [.b] (.erdc (nibA w) (imm16Of w))
  | 0x0D => ifZero w [.c, .d, .z, .x] (.emov (nibA w) (nibB w))
  | 0x0E => ifZero w [] (.eld (nibA w) (imm16Of w) (nibB w))
  | 0x0F => ifZero w [] (.est (nibA w) (imm16Of w) (nibB w))
  | 0x10 => ifZero w [.bTop] (.fcfg (ctxB w) (nibA w) (imm16Of w) (flagFp w))
  | 0x11 => ifZero w [.a, .c, .d, .z, .x] (.logrd (nibB w))
  | 0x12 => ifZero w [.c, .d, .z] (.alogrd (nibA w) (ctxX w) (nibB w))
  | 0x20 => ifZero w [.d, .z, .x] (.fadd (nibA w) (nibB w) (nibC w))
  | 0x21 => ifZero w [.d, .z, .x] (.fsub (nibA w) (nibB w) (nibC w))
  | 0x22 => ifZero w [.c, .d, .z, .x] (.fneg (nibA w) (nibB w))
  | 0x23 => ifZero w [.d, .z, .x] (.fmul (nibA w) (nibB w) (nibC w))
  | 0x24 => ifZero w [.d, .z, .x] (.fdiv (nibA w) (nibB w) (nibC w))
  | 0x25 => ifZero w [.d, .z, .x] (.pmulg (nibA w) (nibB w) (nibC w))
  | 0x26 => ifZero w [.a, .d, .z, .x] (.feq (nibB w) (nibC w))
  | 0x28 => ifZero w [] (.faddi (nibA w) (nibB w) (simm16Of w))
  | 0x29 => ifZero w [] (.fsubi (nibA w) (nibB w) (simm16Of w))
  | 0x2A => ifZero w [] (.frsubi (nibA w) (nibB w) (simm16Of w))
  | 0x2B => ifZero w [] (.fmuli (nibA w) (nibB w) (simm16Of w))
  | 0x2C => ifZero w [] (.fdivi (nibA w) (nibB w) (simm16Of w))
  | 0x2D => ifZero w [] (.frdivi (nibA w) (nibB w) (simm16Of w))
  | 0x30 => ifZero w [.z, .x] (.gsolve (nibA w) (nibB w) (nibC w) (nibD w))
  | 0x31 => ifZero w [.z, .x] (.peval (nibA w) (nibB w) (nibC w) (nibD w))
  | 0x38 => ifZero w [.d, .z] (.rscfg (ctxX w) (nibA w) (nibB w) (nibC w))
  | 0x39 => ifZero w [.c, .d, .z] (.rscfga (ctxX w) (nibA w) (nibB w))
  | 0x3A => ifZero w [.c, .d, .z] (.rsenc (ctxX w) (nibA w) (nibB w))
  | 0x3B => ifZero w [.c, .d, .z] (.rsdec (ctxX w) (nibA w) (nibB w))
  | 0x3C => ifZero w [.c, .d, .z] (.rspt (nibA w) (ctxX w) (nibB w))
  | _ => .error (.unassignedOpcode (w.field 24 8))

/-- A word of format N with the field `z` zero (R71). -/
def packN (op : Nat) (a b c d : Fin 16) (x : Ctx) : Word :=
  BitVec.ofNat 32 (op * 2 ^ 24 + a.val * 2 ^ 20 + b.val * 2 ^ 16 + c.val * 2 ^ 12 + d.val * 2 ^ 8 + x.val)

/-- A word of format I; `b` is a register number or a control field (R72). -/
def packI (op : Nat) (a : Fin 16) (b : Nat) (imm : BitVec 16) : Word :=
  BitVec.ofNat 32 (op * 2 ^ 24 + a.val * 2 ^ 20 + b * 2 ^ 16 + imm.toNat)

/-- A word of format L (R73). -/
def packL (op : Nat) (a : Fin 16) (imm : BitVec 20) : Word :=
  BitVec.ofNat 32 (op * 2 ^ 24 + a.val * 2 ^ 20 + imm.toNat)

/-- The word of a well-formed command (R71 to R76). -/
def encode : Instr → Word
  | .nop => packN 0x00 0 0 0 0 0
  | .seta ad imm => packL 0x01 ad (BitVec.ofNat 20 imm)
  | .csrr csr => packI 0x02 0 0 (BitVec.ofNat 16 csr)
  | .clre => packN 0x03 0 0 0 0 0
  | .cclr => packN 0x08 0 0 0 0 0
  | .cpush v => packI 0x09 0 0 (BitVec.ofInt 16 v)
  | .emk ed c => packN 0x0A ed 0 0 0 c
  | .emki ed c v => packI 0x0B ed c.val (BitVec.ofInt 16 v)
  | .erdc es index => packI 0x0C es 0 (BitVec.ofNat 16 index)
  | .emov ed es => packN 0x0D ed es 0 0 0
  | .eld ed offset ab => packI 0x0E ed ab.val (BitVec.ofNat 16 offset)
  | .est es offset ab => packI 0x0F es ab.val (BitVec.ofNat 16 offset)
  | .fcfg c ap m fp => packI 0x10 ap (fp.toNat * 4 + c.val) (BitVec.ofNat 16 m)
  | .logrd es => packN 0x11 0 es 0 0 0
  | .alogrd ed c ai => packN 0x12 ed ai 0 0 c
  | .fadd ed es1 es2 => packN 0x20 ed es1 es2 0 0
  | .fsub ed es1 es2 => packN 0x21 ed es1 es2 0 0
  | .fneg ed es1 => packN 0x22 ed es1 0 0 0
  | .fmul ed es1 es2 => packN 0x23 ed es1 es2 0 0
  | .fdiv ed es1 es2 => packN 0x24 ed es1 es2 0 0
  | .pmulg ed es1 es2 => packN 0x25 ed es1 es2 0 0
  | .feq es1 es2 => packN 0x26 0 es1 es2 0 0
  | .faddi ed es1 v => packI 0x28 ed es1.val (BitVec.ofInt 16 v)
  | .fsubi ed es1 v => packI 0x29 ed es1.val (BitVec.ofInt 16 v)
  | .frsubi ed es1 v => packI 0x2A ed es1.val (BitVec.ofInt 16 v)
  | .fmuli ed es1 v => packI 0x2B ed es1.val (BitVec.ofInt 16 v)
  | .fdivi ed es1 v => packI 0x2C ed es1.val (BitVec.ofInt 16 v)
  | .frdivi ed es1 v => packI 0x2D ed es1.val (BitVec.ofInt 16 v)
  | .gsolve ax aA ab an => packN 0x30 ax aA ab an 0
  | .peval ed es ac al => packN 0x31 ed es ac al 0
  | .rscfg c an ak ax => packN 0x38 an ak ax 0 c
  | .rscfga c an ak => packN 0x39 an ak 0 0 c
  | .rsenc c ad am => packN 0x3A ad am 0 0 c
  | .rsdec c ad ar => packN 0x3B ad ar 0 0 c
  | .rspt ed c ai => packN 0x3C ed ai 0 0 c

/-- What the decoder reads from an instruction whose bits are `w`, numbered as the opcode table numbers
them. A command is one 32-bit word (R70), and the block has no byte order (20_memory.md R52), so the
table's numbering and the word's agree; bits from `nbits` up are zero. -/
def decodeTableWord (nbits w : Nat) : Option Instr :=
  match decode (BitVec.ofNat 32 (w % 2 ^ nbits)) with
  | .ok i => some i
  | .error _ => none

end Sys2Proof
end

