-- ==== Sys2Proof/Machine/State.lean ====
section
/-! DEFINITION. The state of the block (10_state.md R20 to R34, R42) as plain data, the error kinds
(60_exceptions.md R190), and the state after reset (R42, 70_reset_and_hazards.md R220). -/

namespace Sys2Proof.Machine

/-- A coefficient vector, the coefficient of `x^0` first (00_scope.md R13). -/
abbrev Vec := List Nat

/-- An element value `(ctx, coef)` (R13, R21): the owning context and the `m` meaningful coefficient
slots. The slots from `m` to `M_MAX - 1` are pinned to 0 (R22) and not stored (log 6). -/
structure Elem where
  ctx : Ctx
  coef : Vec
deriving DecidableEq, Repr

/-- What a field context holds when its flag `t` is 1 (R26, R28, R29): the primitive element, the LOG RAM
by canonical index and the ALOG RAM by exponent. A LOG word that the build did not write is `none`, an
ALOG word that it did not write is beyond the end (`93_implementation_defined.md` U1). -/
structure Tables where
  prim : Vec
  log : List (Option Nat)
  alog : List Vec
deriving DecidableEq, Repr

/-- A constructed field context (R26); `tables` is `none` when `t = 0`. -/
structure FieldCtx where
  p : Nat
  m : Nat
  q : Nat
  g : List Nat
  tables : Option Tables
deriving DecidableEq, Repr

/-- A constructed codec context (R31). -/
structure Codec where
  n : Nat
  k : Nat
  emax : Nat
  x : List Vec
deriving DecidableEq, Repr

/-- The element memory (R25, 20_memory.md R50): the valid cells by address, strictly rising. A cell that
is not listed has valid bit 0 and holds nothing (log 14). -/
abbrev Memory := List (Nat × Elem)

/-- The twelve error kinds (R190). Each is a response, not a stop: `State.raise` delivers it. -/
inductive Err where
  | invalidFieldParameters
  | noPrimitiveElementFound
  | outOfRangeCoefficient
  | fieldMismatch
  | divisionByZero
  | singularSystem
  | decodingFailure
  | invalidCodecParameters
  | illegalCommand
  | uninitialised
  | badAddress
  | capacityExceeded
deriving DecidableEq, Repr

/-- A response: `code` and `data` (30_encoding.md R79). -/
structure Response where
  code : BitVec 8
  data : Word
deriving DecidableEq, Repr

/-- The reasons the machine can stop with a fault. There is none: "no sequence of commands makes the
block stop accepting commands" (60_exceptions.md R207), every error is a response. -/
inductive Fault
deriving DecidableEq, Repr

/-- The reasons an instruction can be refused. -/
inductive Refusal where
  /-- `exec` answers it for a command that has no meaning yet; no arm does. Safe. -/
  | notModelled (mnemonic : String)
deriving DecidableEq, Repr

/-- The state of the block (R20), with three fields of the model's own: the parameters, the command words
the host has yet to issue, and the responses returned, newest first (log 4, log 1, log 2). -/
structure State where
  /-- The implementation parameters (00_scope.md R6); configuration, written by no command. -/
  params : Params
  /-- `E[0..15]`; `none` is valid bit 0 (R21, log 5). -/
  e : Vector (Option Elem) 16
  /-- `A[0..15]` (R23). -/
  a : Vector (BitVec 20) 16
  /-- `CBUF[0..CLEN-1]`, first pushed first; `CLEN` is its length (R24). -/
  cbuf : List (BitVec 16)
  /-- `EMEM` (R25). -/
  emem : Memory
  /-- `FC[0..3]`; `none` is valid bit 0 (R26, log 5). -/
  fc : Vector (Option FieldCtx) 4
  /-- `RS[0..3]`; `none` is valid bit 0 (R31, log 5). -/
  rs : Vector (Option Codec) 4
  /-- `STATUS` (R33). -/
  status : BitVec 8
  /-- `ESR` (R34). -/
  esr : BitVec 16
  /-- The command port: the words the host will issue, next first (R227, log 1). -/
  cmds : List Word
  /-- The response port: what the block has answered, newest first (R79, R227, log 2). -/
  responses : List Response
deriving DecidableEq, Repr

/-- The state after reset of a block with parameters `P` (R42, R220): every valid bit 0, every argument
register 0, `CLEN`, `STATUS` and `ESR` 0. -/
def State.resetWith (P : Params) : State :=
  { params := P
    e := Vector.replicate 16 none
    a := Vector.replicate 16 0
    cbuf := []
    emem := []
    fc := Vector.replicate 4 none
    rs := Vector.replicate 4 none
    status := 0
    esr := 0
    cmds := []
    responses := [] }

/-- The state after reset of the reference implementation (R6, R42). -/
def State.reset : State := State.resetWith Params.ref

end Sys2Proof.Machine
end

