-- ==== Sys2Proof/Machine/Flags.lean ====
section
/-! DEFINITION. The block has no arithmetic flags (10_state.md R32). What a completed command leaves in
`STATUS` and in the sticky mask `ESR` (R33, R34) is computed here. -/

namespace Sys2Proof.Machine

/-- The response codes (60_exceptions.md R190). -/
def Err.code : Err → Nat
  | .invalidFieldParameters => 1
  | .noPrimitiveElementFound => 2
  | .outOfRangeCoefficient => 3
  | .fieldMismatch => 4
  | .divisionByZero => 5
  | .singularSystem => 6
  | .decodingFailure => 7
  | .invalidCodecParameters => 8
  | .illegalCommand => 9
  | .uninitialised => 10
  | .badAddress => 11
  | .capacityExceeded => 12

/-- `STATUS` after a command that failed with `x` (R33). -/
def Err.statusByte (x : Err) : BitVec 8 := BitVec.ofNat 8 x.code

/-- `ESR` after a command that failed with `x`: bit `code(x)` is set, the others stay (R34). -/
def Err.stick (x : Err) (esr : BitVec 16) : BitVec 16 := esr ||| BitVec.twoPow 16 x.code

/-- The tables flag `FC[c].t` (R26, R32). -/
def FieldCtx.t (F : FieldCtx) : Bool := F.tables.isSome

end Sys2Proof.Machine
end

