-- ==== Sys2Proof/Machine/Ops.lean ====
section
/-! DEFINITION. The named operations over registers, the staging buffer, the element memory and the
ports; how a command ends, with `respond` or with `raise` (00_scope.md R14, 60_exceptions.md R203). -/

namespace Sys2Proof.Machine

/-- Error entry (R203): of the command nothing is kept; `STATUS` takes the code, its bit of `ESR` is set,
the response is `(code, 0)`. There is no handler and no return from an error (R206). -/
def State.raise (s : State) (x : Err) : State :=
  { s with
    status := x.statusByte
    esr := x.stick s.esr
    responses := ⟨x.statusByte, 0⟩ :: s.responses }

/-- Success entry (R203): `STATUS` becomes 0 and the response is `(0, data)`, the data widened to 32 bits (log 17). -/
def State.respond (s : State) (data : Nat) : State :=
  { s with status := 0, responses := ⟨0, BitVec.ofNat 32 data⟩ :: s.responses }

/-- The end of a command that started in `s`: either all its writes (the state `t`) and its data, or an
error and none of its writes (R14, R15, R203). -/
def complete (s : State) (r : Except Err (State × Nat)) : Host.Outcome State Fault Refusal :=
  match r with
  | .ok (t, data) => .next (t.respond data)
  | .error x => .next (s.raise x)

/-- `raise x` unless `b` holds. -/
def require (b : Bool) (x : Err) : Except Err Unit := if b then .ok () else .error x

/-- What a place holds, or `Uninitialised` when its valid bit is 0 (60_exceptions.md R200). -/
def held {α : Type} : Option α → Except Err α
  | some v => .ok v
  | none => .error .uninitialised

/-- `E[i]` read as a source (R14, 10_state.md R21). -/
def readE (s : State) (i : EReg) : Except Err Elem := held (s.e.get i)

/-- `E[i] <- v` (R14). -/
def writeE (s : State) (i : EReg) (v : Elem) : State := { s with e := s.e.set i.val (some v) }

/-- `A[i]`, an unsigned integer (R14, 10_state.md R23). -/
def readA (s : State) (i : AReg) : Nat := (s.a.get i).toNat

/-- `A[i] <- v` (R14). -/
def writeA (s : State) (i : AReg) (v : BitVec 20) : State := { s with a := s.a.set i.val v }

/-- `FCv(c)` (R14). The element commands read the context of a valid value through it as well (log 8). -/
def fieldOf (s : State) (c : Ctx) : Except Err FieldCtx := held (s.fc.get c)

/-- `RSv(c)` (43_reed_solomon.md, opening). -/
def codecOf (s : State) (c : Ctx) : Except Err Codec := held (s.rs.get c)

/-- `RS[c] <- R` (43_reed_solomon.md R160, R161). -/
def writeCodec (s : State) (c : Ctx) (R : Codec) : State := { s with rs := s.rs.set c.val (some R) }

/-- `CBUF` as integers (10_state.md R24). -/
def cbufInts (s : State) : List Int := s.cbuf.map BitVec.toInt

/-- The element in cell `addr`, `none` when its valid bit is 0 (20_memory.md R58). -/
def Memory.read : Memory → Nat → Option Elem
  | [], _ => none
  | (a, v) :: rest, addr => if a = addr then some v else Memory.read rest addr

/-- Cell `addr` takes the value `v` and becomes valid; the cells stay listed in rising order (R54). -/
def Memory.write : Memory → Nat → Elem → Memory
  | [], addr, v => [(addr, v)]
  | (a, u) :: rest, addr, v =>
    if addr < a then (addr, v) :: (a, u) :: rest
    else if addr = a then (addr, v) :: rest
    else (a, u) :: Memory.write rest addr v

/-- The cells whose value does not belong to context `c`: what FCFG leaves valid (10_state.md R40). -/
def Memory.sweep (mem : Memory) (c : Ctx) : Memory := mem.filter (fun cell => cell.2.ctx != c)

/-- `n` consecutive cells from `addr` in index order, `none` when one of them has valid bit 0 (R50). -/
def Memory.readRange (mem : Memory) (addr : Nat) : Nat → Option (List Elem)
  | 0 => some []
  | n + 1 =>
    match Memory.read mem addr with
    | none => none
    | some v => (Memory.readRange mem (addr + 1) n).map (v :: ·)

/-- The list `vs` into consecutive cells from `addr` (R50). -/
def Memory.writeRange (mem : Memory) (addr : Nat) : List Elem → Memory
  | [] => mem
  | v :: vs => Memory.writeRange (Memory.write mem addr v) (addr + 1) vs

/-- The addresses rise strictly. -/
def Memory.rising : Memory → Bool
  | [] => true
  | [_] => true
  | (a, _) :: (b, v) :: rest => decide (a < b) && Memory.rising ((b, v) :: rest)

/-- The canonical form of the element memory: strictly rising addresses. An unlisted cell reads as
nothing, so no listed cell equals what an unlisted one reads as. -/
def Memory.wf (mem : Memory) : Bool := Memory.rising mem

/-- `CheckRange(addr, n)` (R14): "For `n = 0` it never raises" (also R202; DEDUCED, log 20). -/
def checkRange (s : State) (addr n : Nat) : Except Err Unit :=
  require (decide (n = 0) || decide (addr + n ≤ s.params.emDepth)) .badAddress

/-- `MemRead(addr, n)` (R14): the range is tested before the valid bits. -/
def memRead (s : State) (addr n : Nat) : Except Err (List Elem) := do
  checkRange s addr n
  held (Memory.readRange s.emem addr n)

/-- `MemWrite(addr, n, L)` with `n` the length of `L` (R14). -/
def memWrite (s : State) (addr : Nat) (L : List Elem) : Except Err State := do
  checkRange s addr L.length
  return { s with emem := Memory.writeRange s.emem addr L }

/-- `SameCtx(L, c)` (R14). -/
def sameCtx (L : List Elem) (c : Ctx) : Except Err Unit :=
  require (L.all (fun v => v.ctx == c)) .fieldMismatch

/-- The commit of a successful FCFG (40_field.md R92, 10_state.md R40): the context is replaced, every
register and cell tagged `c` and the codec of `c` lose their valid bits, the buffer is emptied. -/
def installField (s : State) (c : Ctx) (F : FieldCtx) : State :=
  { s with
    fc := s.fc.set c.val (some F)
    e := s.e.map (fun r => r.filter (fun v => v.ctx != c))
    emem := Memory.sweep s.emem c
    rs := s.rs.set c.val none
    cbuf := [] }

/-- The block accepts the next command word, if the host has presented one (70_reset_and_hazards.md R227). -/
def acceptCommand (s : State) : Option (Word × State) :=
  match s.cmds with
  | [] => none
  | w :: rest => some (w, { s with cmds := rest })

/-- The host presents the word `w` as the next command. -/
def State.present (s : State) (w : Word) : State := { s with cmds := w :: s.cmds }

/-- No command is pending: the block waits (R220, log 3). -/
def wait (s : State) : Host.Outcome State Fault Refusal := .next s

/-- An illegal word (30_encoding.md R77, 60_exceptions.md R199). -/
def illegalCommand (s : State) : Host.Outcome State Fault Refusal := .next (s.raise .illegalCommand)

/-- Reset applied from outside, whatever was in progress (70_reset_and_hazards.md R220);
no step applies it (log 11). -/
def State.applyReset (s : State) : State := State.resetWith s.params

end Sys2Proof.Machine
end

