-- ==== Sys2Proof/Machine/FieldArith.lean ====
section
/-! DEFINITION. The field functions of 41_element.md R120 to R128: the adder, the multiplier, the
inverter and the polynomial multiplier mod g, with the canonical index and the two table look-ups. -/

namespace Sys2Proof.Machine

/-- `a mod b` for `b > 0`: the floored remainder, in `[0, b)` (00_scope.md R12). -/
def fmod (a : Int) (b : Nat) : Nat := (a % (b : Int)).toNat

/-- The coefficient slot `i` of a vector; a slot past the end is pinned to 0 (10_state.md R22). -/
def slot (u : Vec) (i : Nat) : Nat := u.getD i 0

/-- `LOG[j]` (10_state.md R28). A word the build did not write holds an unspecified value, log 7. -/
def Tables.logAt (T : Tables) (j : Nat) : Nat :=
  match T.log[j]? with
  | some (some i) => i
  | _ => Config.hiddenLogWord j

/-- `ALOG[i]` (10_state.md R29). A word the build did not write holds an unspecified value, log 7. -/
def Tables.alogAt (T : Tables) (i : Nat) : Vec :=
  match T.alog[i]? with
  | some u => u
  | none => Config.hiddenAlogWord i

namespace FieldCtx

/-- `zero_c` (R120). -/
def zero (F : FieldCtx) : Vec := List.replicate F.m 0

/-- `promote_c(v)` (R120). -/
def promote (F : FieldCtx) (v : Int) : Vec := fmod v F.p :: List.replicate (F.m - 1) 0

/-- `one_c` (R120). -/
def one (F : FieldCtx) : Vec := 1 :: List.replicate (F.m - 1) 0

/-- `idx_c(u)`, the sum of `u_i * p^i` (R121). -/
def idx (F : FieldCtx) (u : Vec) : Nat := u.foldr (fun c acc => c + F.p * acc) 0

/-- `unidx_c(j)`, `u_i = (j div p^i) mod p` (R121). -/
def unidx (F : FieldCtx) (j : Nat) : Vec := (List.range F.m).map (fun i => j / F.p ^ i % F.p)

/-- `add_c(u, v)`, coefficient-wise mod `p` (R122). -/
def add (F : FieldCtx) (u v : Vec) : Vec := (List.range F.m).map (fun i => (slot u i + slot v i) % F.p)

/-- `sub_c(u, v)`, coefficient-wise mod `p`, floored (R123). -/
def sub (F : FieldCtx) (u v : Vec) : Vec :=
  (List.range F.m).map (fun i => fmod ((slot u i : Int) - (slot v i : Int)) F.p)

/-- `neg_c(u)` (R124). -/
def neg (F : FieldCtx) (u : Vec) : Vec := (List.range F.m).map (fun i => fmod (-(slot u i : Int)) F.p)

/-- Coefficient `k` of the product before reduction: the sum of `u_i * v_j` over `i + j = k` with
`i, j < m`, mod `p` (R125). -/
def conv (F : FieldCtx) (u v : Vec) (k : Nat) : Nat :=
  ((List.range F.m).map (fun i => if i ≤ k ∧ k - i < F.m then slot u i * slot v (k - i) else 0)).sum % F.p

/-- One step of the long division: `w[k-m+j] <- (w[k-m+j] - w[k] * g[j]) mod p` for `j = 0 .. m` (R125). -/
def reduceAt (F : FieldCtx) (w : List Nat) (k : Nat) : List Nat :=
  w.mapIdx (fun (i wi : Nat) =>
    if k - F.m ≤ i ∧ i ≤ k then fmod ((wi : Int) - (slot w k : Int) * (slot F.g (i - (k - F.m)) : Int)) F.p
    else wi)

/-- `dmul_c(u, v)`, the direct multiplication rule (R125): the product, then the remainder mod `g` with
`k` running from `2m-2` down to `m`. -/
def dmul (F : FieldCtx) (u v : Vec) : Vec :=
  let w := (List.range (2 * F.m - 1)).map (F.conv u v)
  let ks := (List.range (F.m - 1)).reverse.map (fun i => i + F.m)
  (ks.foldl F.reduceAt w).take F.m

/-- The loop of `dpow_c` (R128); `fuel` bounds its turns and `e` turns always suffice. -/
def dpowLoop (F : FieldCtx) : Nat → Vec → Vec → Nat → Vec
  | 0, r, _, _ => r
  | fuel + 1, r, s, e =>
    if e = 0 then r
    else F.dpowLoop fuel (if e % 2 = 1 then F.dmul r s else r) (F.dmul s s) (e / 2)

/-- `dpow_c(u, e)` by repeated squaring, least significant bit of the exponent first (R128). -/
def dpow (F : FieldCtx) (u : Vec) (e : Nat) : Vec := F.dpowLoop e F.one u e

/-- `mul_c(u, v)`: through the tables when `t = 1`, by the direct rule otherwise (R126). -/
def mul (F : FieldCtx) (u v : Vec) : Vec :=
  match F.tables with
  | some T =>
    if u = F.zero ∨ v = F.zero then F.zero
    else T.alogAt ((T.logAt (F.idx u) + T.logAt (F.idx v)) % (F.q - 1))
  | none => F.dmul u v

/-- `div_c(u, v)` after its test of the divisor (R127): through the tables when `t = 1`, else
`u * v^(q-2)`. -/
def quot (F : FieldCtx) (u v : Vec) : Vec :=
  match F.tables with
  | some T =>
    if u = F.zero then F.zero
    else T.alogAt (fmod ((T.logAt (F.idx u) : Int) - (T.logAt (F.idx v) : Int)) (F.q - 1))
  | none => F.dmul u (F.dpow v (F.q - 2))

/-- `div_c(u, v)` (R127). -/
def div (F : FieldCtx) (u v : Vec) : Except Err Vec :=
  if v = F.zero then .error .divisionByZero else .ok (F.quot u v)

end FieldCtx

end Sys2Proof.Machine
end

