-- ==== Sys2Proof/Machine/Operands.lean ====
section
/-! DEFINITION. The operand forms of the element commands: a pair of registers of one field (41_element.md
R129), a register and a promoted integer (30_encoding.md R75), effective addresses (20_memory.md R51). -/

namespace Sys2Proof.Machine

/-- Two operands of one field: its number, its context, the two vectors. -/
structure Operands where
  ctx : Ctx
  field : FieldCtx
  u : Vec
  v : Vec
deriving DecidableEq, Repr

/-- `(c, u, v) <- Pair(b, c)` (R129): both registers valid, then one owning field. -/
def pair (s : State) (i j : EReg) : Except Err Operands := do
  let x ← readE s i
  let y ← readE s j
  require (x.ctx == y.ctx) .fieldMismatch
  let F ← fieldOf s x.ctx
  return { ctx := x.ctx, field := F, u := x.coef, v := y.coef }

/-- `(c, u) <- E[i]; v <- promote_c(simm16)` (R129). -/
def withInt (s : State) (i : EReg) (v : Int) : Except Err Operands := do
  let x ← readE s i
  let F ← fieldOf s x.ctx
  return { ctx := x.ctx, field := F, u := x.coef, v := F.promote v }

/-- The common end of the element commands: `E[a] <- (c, f(u, v))`. -/
def storeResult (s : State) (ed : EReg) (ops : Except Err Operands)
    (f : FieldCtx → Vec → Vec → Except Err Vec) : Host.Outcome State Fault Refusal :=
  complete s do
    let P ← ops
    let r ← f P.field P.u P.v
    return (writeE s ed ⟨P.ctx, r⟩, 0)

/-- `ea = A[b] + zext(imm16)`, never wrapped (20_memory.md R51). -/
def effectiveAddress (s : State) (ab : AReg) (offset : Nat) : Nat := readA s ab + offset

/-- The element values of context `c` with the given vectors. -/
def tagged (c : Ctx) (us : List Vec) : List Elem := us.map (fun u => ⟨c, u⟩)

/-- The vectors of a list of element values. -/
def vectors (L : List Elem) : List Vec := L.map Elem.coef

end Sys2Proof.Machine
end

