-- ==== Sys2Proof/Machine/Element.lean ====
section
/-! DEFINITION. The element commands of 41_element.md: FADD to FEQ (R130 to R136) and the immediate forms
FADDI to FRDIVI (R137 to R142), each one line over an operand form and a field function. -/

namespace Sys2Proof.Machine

/-- FADD (R130). -/
def execFadd (ed es1 es2 : EReg) (s : State) : Host.Outcome State Fault Refusal :=
  storeResult s ed (pair s es1 es2) (fun F u v => .ok (F.add u v))

/-- FSUB (R131): `es1 - es2`. -/
def execFsub (ed es1 es2 : EReg) (s : State) : Host.Outcome State Fault Refusal :=
  storeResult s ed (pair s es1 es2) (fun F u v => .ok (F.sub u v))

/-- FNEG (R132). -/
def execFneg (ed es1 : EReg) (s : State) : Host.Outcome State Fault Refusal :=
  complete s do
    let x ← readE s es1
    let F ← fieldOf s x.ctx
    return (writeE s ed ⟨x.ctx, F.neg x.coef⟩, 0)

/-- FMUL (R133). -/
def execFmul (ed es1 es2 : EReg) (s : State) : Host.Outcome State Fault Refusal :=
  storeResult s ed (pair s es1 es2) (fun F u v => .ok (F.mul u v))

/-- FDIV (R134): `es1 / es2`. -/
def execFdiv (ed es1 es2 : EReg) (s : State) : Host.Outcome State Fault Refusal :=
  storeResult s ed (pair s es1 es2) (fun F u v => F.div u v)

/-- PMULG (R135): the direct rule, whatever the tables flag is. -/
def execPmulg (ed es1 es2 : EReg) (s : State) : Host.Outcome State Fault Refusal :=
  storeResult s ed (pair s es1 es2) (fun F u v => .ok (F.dmul u v))

/-- FEQ (R136): operands of different contexts compare unequal. -/
def execFeq (es1 es2 : EReg) (s : State) : Host.Outcome State Fault Refusal :=
  complete s do
    let x ← readE s es1
    let y ← readE s es2
    return (s, if x.ctx = y.ctx ∧ x.coef = y.coef then 1 else 0)

/-- FADDI (R137). -/
def execFaddi (ed es1 : EReg) (v : Int) (s : State) : Host.Outcome State Fault Refusal :=
  storeResult s ed (withInt s es1 v) (fun F u k => .ok (F.add u k))

/-- FSUBI (R138): the element minus the integer. -/
def execFsubi (ed es1 : EReg) (v : Int) (s : State) : Host.Outcome State Fault Refusal :=
  storeResult s ed (withInt s es1 v) (fun F u k => .ok (F.sub u k))

/-- FRSUBI (R139): the integer minus the element. -/
def execFrsubi (ed es1 : EReg) (v : Int) (s : State) : Host.Outcome State Fault Refusal :=
  storeResult s ed (withInt s es1 v) (fun F u k => .ok (F.sub k u))

/-- FMULI (R140). -/
def execFmuli (ed es1 : EReg) (v : Int) (s : State) : Host.Outcome State Fault Refusal :=
  storeResult s ed (withInt s es1 v) (fun F u k => .ok (F.mul u k))

/-- FDIVI (R141): the element divided by the integer. -/
def execFdivi (ed es1 : EReg) (v : Int) (s : State) : Host.Outcome State Fault Refusal :=
  storeResult s ed (withInt s es1 v) (fun F u k => F.div u k)

/-- FRDIVI (R142): the integer divided by the element. -/
def execFrdivi (ed es1 : EReg) (v : Int) (s : State) : Host.Outcome State Fault Refusal :=
  storeResult s ed (withInt s es1 v) (fun F u k => F.div k u)

end Sys2Proof.Machine
end

