-- ==== Sys2Proof/Machine/Construct.lean ====
section
/-! DEFINITION. Field construction (40_field.md R93 to R97) and the element constructor from a
coefficient sequence (R98). -/

namespace Sys2Proof.Machine

/-- FCFG step 1, `Capacity(p, m)` (R93). -/
def capacity (P : Params) (p m : Nat) : Except Err Unit := do
  require (decide (p ≤ P.pMax) && decide (m ≤ P.mMax)) .capacityExceeded
  require (decide (p ^ m ≤ P.qMax)) .capacityExceeded

/-- No `d' ≥ d` with `d' * d' ≤ p` divides `p`; `fuel` bounds the turns and `p` turns always suffice. -/
def noDivisorFrom (p : Nat) : Nat → Nat → Bool
  | 0, _ => true
  | fuel + 1, d =>
    if p < d * d then true
    else if p % d = 0 then false
    else noDivisorFrom p fuel (d + 1)

/-- `p` is prime, by trial division with `d = 2 .. isqrt(p)` (R94). -/
def primeByTrial (p : Nat) : Bool := decide (2 ≤ p) && noDivisorFrom p p 2

/-- The coefficient `c` lies in `[0, p)`. -/
def inRange (p : Nat) (c : Int) : Bool := decide (0 ≤ c) && decide (c < (p : Int))

/-- FCFG step 2, `Validate(p, m)`: the reduction polynomial, the coefficient of `x^0` first (R94, R95). -/
def validate (p m : Nat) (cbuf : List Int) : Except Err (List Nat) := do
  require (decide (1 ≤ m) && primeByTrial p) .invalidFieldParameters
  if m = 1 then return [0, 1]
  require (decide (cbuf.length = m + 1)) .invalidFieldParameters
  require (cbuf[m]? == some 1) .invalidFieldParameters
  require (cbuf.all (inRange p)) .invalidFieldParameters
  return cbuf.map Int.toNat

/-- The order test's loop (R96): from `t = e^i`, multiply by `e` until the identity recurs or `i = q - 1`;
the answer is whether the identity was first reached at exactly `q - 1`. `fuel` bounds the turns. -/
def orderTest (F : FieldCtx) (e : Vec) : Nat → Vec → Nat → Bool
  | 0, _, _ => false
  | fuel + 1, t, i =>
    if t = F.one ∨ F.q - 1 ≤ i then decide (t = F.one) && decide (i = F.q - 1)
    else orderTest F e fuel (F.dmul t e) (i + 1)

/-- FCFG step 3, `FindPrimitive` (R96): candidates of canonical index `j = 1 .. q-1` in rising order. -/
def findPrimitive (F : FieldCtx) : Option Vec :=
  ((List.range (F.q - 1)).map (fun j => F.unidx (j + 1))).find? (fun e => orderTest F e F.q e 1)

/-- `t, t*e, t*e^2, ...`, `n` entries (R97). -/
def powersFrom (F : FieldCtx) (e : Vec) : Nat → Vec → List Vec
  | 0, _ => []
  | n + 1, t => t :: powersFrom F e n (F.dmul t e)

/-- `LOG'[idx(t)] <- i` for the entries `t` of the ALOG RAM from exponent `i` on (R97). -/
def fillLog (F : FieldCtx) : List Vec → Nat → List (Option Nat) → List (Option Nat)
  | [], _, log => log
  | t :: ts, i, log => fillLog F ts (i + 1) (log.set (F.idx t) (some i))

/-- FCFG step 4, `BuildTables` (R97). -/
def buildTables (F : FieldCtx) (prim : Vec) : Tables :=
  let alog := powersFrom F prim (F.q - 1) F.one
  { prim := prim, alog := alog, log := fillLog F alog 0 (List.replicate F.q none) }

/-- `construct(p, m, reductionPoly, findPrimitiveElem)` (R92): the context that FCFG installs. -/
def construct (P : Params) (p m : Nat) (cbuf : List Int) (fp : Bool) : Except Err FieldCtx := do
  capacity P p m
  let g ← validate p m cbuf
  let F : FieldCtx := { p := p, m := m, q := p ^ m, g := g, tables := none }
  if fp then
    match findPrimitive F with
    | some prim => return { F with tables := some (buildTables F prim) }
    | none => throw .noPrimitiveElementFound
  else return F

/-- The vector of a staged coefficient sequence, zero-padded to length `m` (R98). -/
def elementOfSequence (F : FieldCtx) (cbuf : List Int) : Except Err Vec := do
  require (decide (cbuf.length ≤ F.m)) .outOfRangeCoefficient
  require (cbuf.all (inRange F.p)) .outOfRangeCoefficient
  return cbuf.map Int.toNat ++ List.replicate (F.m - cbuf.length) 0

end Sys2Proof.Machine
end

