-- ==== Sys2Proof/Machine/Field.lean ====
section
/-! DEFINITION. The commands of 40_field.md: the staging buffer, field construction, the element
constructor, moves, loads and stores, and the two table reads. -/

namespace Sys2Proof.Machine

/-- CCLR (R90). -/
def execCclr (s : State) : Host.Outcome State Fault Refusal := complete s (.ok ({ s with cbuf := [] }, 0))

/-- CPUSH (R91). A value that fits no word is truncated (log 12). -/
def execCpush (v : Int) (s : State) : Host.Outcome State Fault Refusal :=
  complete s do
    require (decide (s.cbuf.length ≠ s.params.mMax + 1)) .capacityExceeded
    return ({ s with cbuf := s.cbuf ++ [BitVec.ofInt 16 v] }, 0)

/-- FCFG (R92). -/
def execFcfg (c : Ctx) (ap : AReg) (m : Nat) (fp : Bool) (s : State) : Host.Outcome State Fault Refusal :=
  complete s do
    let F ← construct s.params (readA s ap) m (cbufInts s) fp
    return (installField s c F, 0)

/-- EMK (R98). -/
def execEmk (ed : EReg) (c : Ctx) (s : State) : Host.Outcome State Fault Refusal :=
  complete s do
    let F ← fieldOf s c
    let u ← elementOfSequence F (cbufInts s)
    return ({ writeE s ed ⟨c, u⟩ with cbuf := [] }, 0)

/-- EMKI (R99). -/
def execEmki (ed : EReg) (c : Ctx) (v : Int) (s : State) : Host.Outcome State Fault Refusal :=
  complete s do
    let F ← fieldOf s c
    return (writeE s ed ⟨c, F.promote v⟩, 0)

/-- ERDC (R100). -/
def execErdc (es : EReg) (index : Nat) (s : State) : Host.Outcome State Fault Refusal :=
  complete s do
    let x ← readE s es
    let F ← fieldOf s x.ctx
    require (decide (index < F.m)) .badAddress
    return (s, slot x.coef index)

/-- EMOV (R101). -/
def execEmov (ed es : EReg) (s : State) : Host.Outcome State Fault Refusal :=
  complete s do
    let x ← readE s es
    return (writeE s ed x, 0)

/-- ELD (R102): the tag travels with the value. -/
def execEld (ed : EReg) (offset : Nat) (ab : AReg) (s : State) : Host.Outcome State Fault Refusal :=
  complete s do
    let ea := effectiveAddress s ab offset
    checkRange s ea 1
    let x ← held (Memory.read s.emem ea)
    return (writeE s ed x, 0)

/-- EST (R103). -/
def execEst (es : EReg) (offset : Nat) (ab : AReg) (s : State) : Host.Outcome State Fault Refusal :=
  complete s do
    let x ← readE s es
    let t ← memWrite s (effectiveAddress s ab offset) [x]
    return (t, 0)

/-- LOGRD (R104). -/
def execLogrd (es : EReg) (s : State) : Host.Outcome State Fault Refusal :=
  complete s do
    let x ← readE s es
    let F ← fieldOf s x.ctx
    let T ← held F.tables
    require (x.coef != F.zero) .badAddress
    return (s, T.logAt (F.idx x.coef))

/-- ALOGRD (R105). -/
def execAlogrd (ed : EReg) (c : Ctx) (ai : AReg) (s : State) : Host.Outcome State Fault Refusal :=
  complete s do
    let F ← fieldOf s c
    let T ← held F.tables
    require (decide (readA s ai ≤ F.q - 2)) .badAddress
    return (writeE s ed ⟨c, T.alogAt (readA s ai)⟩, 0)

end Sys2Proof.Machine
end

