-- ==== Sys2Proof/Machine/LinearAlgebra.lean ====
section
/-! DEFINITION. The Gaussian elimination engine and the polynomial evaluator (42_linear_algebra.md):
GSOLVE and PEVAL, over `Solve` (R151) and `Horner` (R154). -/

namespace Sys2Proof.Machine

/-- The entry in row `i`, column `j` of the working array; no rule reads past its ends (log 19). -/
def entry (M : List (List Vec)) (i j : Nat) : Vec := (M.getD i []).getD j []

/-- The `n × (n+1)` working array: row `i` is row `i` of the matrix followed by `Mb[i]` (R151). -/
def augmented (n : Nat) (MA Mb : List Vec) : List (List Vec) :=
  (List.range n).map (fun i => (List.range n).map (fun j => MA.getD (i * n + j) []) ++ [Mb.getD i []])

/-- Rows `i` and `j` change places. -/
def swapRows (M : List (List Vec)) (i j : Nat) : List (List Vec) :=
  (M.set i (M.getD j [])).set j (M.getD i [])

namespace FieldCtx

/-- The array with a nonzero entry at `(col, col)`: as it is, or with row `col` and the first later row
that has a nonzero entry in column `col` swapped; `none` when there is no such row (R151). -/
def pivoted (F : FieldCtx) (n : Nat) (M : List (List Vec)) (col : Nat) : Option (List (List Vec)) :=
  if entry M col col = F.zero then
    match (List.range n).find? (fun r => decide (col < r) && entry M r col != F.zero) with
    | some r => some (swapRows M col r)
    | none => none
  else some M

/-- `M[r][j] <- M[r][j] - f * M[col][j]` for `j = col .. n`, where `f = M[r][col] / M[col][col]` (R151).
The pivot is nonzero, so the test of the divisor in `div_c` never fires (R150, log 13). -/
def eliminateRow (F : FieldCtx) (col : Nat) (pivotRow row : List Vec) : List Vec :=
  let f := F.quot (row.getD col []) (pivotRow.getD col [])
  row.mapIdx (fun j x => if col ≤ j then F.sub x (F.mul f (pivotRow.getD j [])) else x)

/-- The elimination below the pivot of column `col` (R151). -/
def eliminateBelow (F : FieldCtx) (M : List (List Vec)) (col : Nat) : List (List Vec) :=
  M.mapIdx (fun r row => if col < r then F.eliminateRow col (M.getD col []) row else row)

/-- The columns `col = n - left, n - left + 1, ..., n - 1` of the forward loop (R151). -/
def forward (F : FieldCtx) (n : Nat) : Nat → List (List Vec) → Option (List (List Vec))
  | 0, M => some M
  | left + 1, M =>
    match F.pivoted n M (n - (left + 1)) with
    | some M' => F.forward n left (F.eliminateBelow M' (n - (left + 1)))
    | none => none

/-- Back-substitution in row `i`, given `xs[i+1 .. n-1]` (R151). -/
def backRow (F : FieldCtx) (n : Nat) (M : List (List Vec)) (i : Nat) (known : List Vec) : Vec :=
  let js := (List.range (n - 1 - i)).map (fun d => i + 1 + d)
  let s := js.foldl (fun s j => F.sub s (F.mul (entry M i j) (known.getD (j - (i + 1)) []))) (entry M i n)
  F.quot s (entry M i i)

/-- `xs[i], ..., xs[n-1]` with `i` running down from `n-1`; the argument counts the rows done (R151). -/
def backSubstitute (F : FieldCtx) (n : Nat) (M : List (List Vec)) : Nat → List Vec
  | 0 => []
  | count + 1 =>
    let known := F.backSubstitute n M count
    F.backRow n M (n - (count + 1)) known :: known

/-- `Solve_c(n, MA, Mb)`, `none` when the system is singular (R151). -/
def solve (F : FieldCtx) (n : Nat) (MA Mb : List Vec) : Option (List Vec) :=
  (F.forward n n (augmented n MA Mb)).map (fun M => F.backSubstitute n M n)

/-- `Horner_c(L, xv)` (R154). -/
def horner (F : FieldCtx) (L : List Vec) (xv : Vec) : Vec :=
  L.foldr (fun c acc => F.add (F.mul acc xv) c) F.zero

end FieldCtx

/-- GSOLVE (R150). -/
def execGsolve (ax aA ab an : AReg) (s : State) : Host.Outcome State Fault Refusal :=
  complete s do
    let n := readA s an
    require (decide (n ≤ s.params.nMax)) .capacityExceeded
    checkRange s (readA s aA) (n * n)
    checkRange s (readA s ab) n
    checkRange s (readA s ax) n
    let MA ← memRead s (readA s aA) (n * n)
    let Mb ← memRead s (readA s ab) n
    match MA with
    | [] => return (s, 0)
    | x0 :: _ =>
      sameCtx (MA ++ Mb) x0.ctx
      let F ← fieldOf s x0.ctx
      match F.solve n (vectors MA) (vectors Mb) with
      | none => throw .singularSystem
      | some xs =>
        let t ← memWrite s (readA s ax) (tagged x0.ctx xs)
        return (t, 0)

/-- PEVAL (R153). -/
def execPeval (ed es : EReg) (ac al : AReg) (s : State) : Host.Outcome State Fault Refusal :=
  complete s do
    let x ← readE s es
    let L ← memRead s (readA s ac) (readA s al)
    sameCtx L x.ctx
    let F ← fieldOf s x.ctx
    return (writeE s ed ⟨x.ctx, F.horner (vectors L) x.coef⟩, 0)

end Sys2Proof.Machine
end

