-- ==== Sys2Proof/Machine/ReedSolomon.lean ====
section
/-! DEFINITION. The Reed-Solomon encoder and the Berlekamp-Welch decoder (43_reed_solomon.md): RSCFG,
RSCFGA, RSPT, RSENC, RSDEC. `90_conflicts.md` C1, C2, C3 say where the decoder departs from the source. -/

namespace Sys2Proof.Machine

/-- Evaluation point `i` of a codec (10_state.md R31); there is none past the end (log 19). -/
def Codec.point (R : Codec) (i : Nat) : Vec := R.x.getD i []

namespace FieldCtx

/-- `encode`: the message polynomial at each evaluation point (R163). -/
def rsEncode (F : FieldCtx) (R : Codec) (msg : List Vec) : List Vec :=
  (List.range R.n).map (fun i => F.horner msg (R.point i))

/-- `w[0], ..., w[count]` with `w[0] = one` and `w[j] = w[j-1] * x` (R166). -/
def pointPowers (F : FieldCtx) (x : Vec) : Nat → List Vec
  | 0 => [F.one]
  | count + 1 =>
    let ws := F.pointPowers x count
    ws ++ [F.mul (ws.getD count []) x]

/-- Row `i` of the matrix of trial `e`, and its right-hand side `+ r_i * x_i^e` (R166). -/
def bwRow (F : FieldCtx) (k e : Nat) (x r : Vec) : List Vec × Vec :=
  let w := F.pointPowers x (k + e)
  ((List.range (k + e)).map (fun j => w.getD j []) ++
      (List.range e).map (fun j => F.neg (F.mul r (w.getD j []))),
    F.mul r (w.getD e []))

/-- `BWSystem_c(e, k + 2e, k, x, r)`: the matrix in row-major order and the right-hand side (R166). -/
def bwSystem (F : FieldCtx) (R : Codec) (r : List Vec) (e : Nat) : List Vec × List Vec :=
  let rows := (List.range (R.k + 2 * e)).map (fun i => F.bwRow R.k e (R.point i) (r.getD i []))
  ((rows.map Prod.fst).flatten, rows.map Prod.snd)

/-- One turn of the division's loop: at degree `d`, the quotient's coefficient and the new remainder (R167). -/
def divStep (F : FieldCtx) (E : List Vec) (e : Nat) (st : List Vec × List Vec) (d : Nat) :
    List Vec × List Vec :=
  let f := st.2.getD d []
  (st.1.set (d - e) f,
    st.2.mapIdx (fun i x => if d - e ≤ i ∧ i ≤ d then F.sub x (F.mul f (E.getD (i - (d - e)) [])) else x))

/-- `PolyDivMod_c(Q, E)` for a monic `E` of degree `e`: the quotient, `k` coefficients, and the remainder,
`e` coefficients (R167). -/
def polyDivMod (F : FieldCtx) (k e : Nat) (Q E : List Vec) : List Vec × List Vec :=
  let ds := (List.range k).reverse.map (fun i => i + e)
  let st := ds.foldl (F.divStep E e) (List.replicate k F.zero, Q)
  (st.1, st.2.take e)

/-- `Mismatch_c(P, x, r)` (R168). -/
def mismatch (F : FieldCtx) (R : Codec) (P r : List Vec) : Nat :=
  ((List.range R.n).filter (fun i => F.horner P (R.point i) != r.getD i [])).length

/-- The verdict on the solution of the first non-singular trial (R165). -/
def bwCandidate (F : FieldCtx) (R : Codec) (r : List Vec) (e : Nat) (xs : List Vec) : Except Err (List Vec) := do
  let Q := xs.take (R.k + e)
  let E := (xs.drop (R.k + e)).take e ++ [F.one]
  let (P, rem) := F.polyDivMod R.k e Q E
  require (rem.all (fun c => c == F.zero)) .decodingFailure
  require ((P.drop R.k).all (fun c => c == F.zero)) .decodingFailure
  let msg := P.take R.k ++ List.replicate (R.k - P.length) F.zero
  require (decide (F.mismatch R msg r ≤ R.emax)) .decodingFailure
  return msg

/-- The trials `e, e-1, ..., 0`: a singular one moves on to the next smaller (R165). -/
def bwTrials (F : FieldCtx) (R : Codec) (r : List Vec) : Nat → Except Err (List Vec)
  | 0 =>
    match F.solve R.k (F.bwSystem R r 0).1 (F.bwSystem R r 0).2 with
    | some xs => F.bwCandidate R r 0 xs
    | none => throw .decodingFailure
  | e + 1 =>
    match F.solve (R.k + 2 * (e + 1)) (F.bwSystem R r (e + 1)).1 (F.bwSystem R r (e + 1)).2 with
    | some xs => F.bwCandidate R r (e + 1) xs
    | none => F.bwTrials R r e

/-- `BWDecode_c(R, r)` (R165). -/
def bwDecode (F : FieldCtx) (R : Codec) (r : List Vec) : Except Err (List Vec) := F.bwTrials R r R.emax

end FieldCtx

/-- The tests of `n` and `k` that RSCFG and RSCFGA share: `1 ≤ k < n ≤ q - 1`, then `n ≤ N_MAX`
(R160, R161, 60_exceptions.md R198). -/
def codecSizes (P : Params) (F : FieldCtx) (n k : Nat) : Except Err Unit := do
  require (decide (1 ≤ k) && decide (k < n) && decide (n ≤ F.q - 1)) .invalidCodecParameters
  require (decide (n ≤ P.nMax)) .capacityExceeded

/-- RSCFG (R160). -/
def execRscfg (c : Ctx) (an ak ax : AReg) (s : State) : Host.Outcome State Fault Refusal :=
  complete s do
    let F ← fieldOf s c
    let n := readA s an
    let k := readA s ak
    codecSizes s.params F n k
    let L ← memRead s (readA s ax) n
    sameCtx L c
    let xs := vectors L
    require (xs.all (fun u => u != F.zero) && decide xs.Nodup) .invalidCodecParameters
    return (writeCodec s c { n := n, k := k, emax := (n - k) / 2, x := xs }, 0)

/-- RSCFGA (R161): the points are the elements of canonical index 1 to `n`. -/
def execRscfga (c : Ctx) (an ak : AReg) (s : State) : Host.Outcome State Fault Refusal :=
  complete s do
    let F ← fieldOf s c
    let n := readA s an
    let k := readA s ak
    codecSizes s.params F n k
    let xs := (List.range n).map (fun i => F.unidx (i + 1))
    return (writeCodec s c { n := n, k := k, emax := (n - k) / 2, x := xs }, 0)

/-- RSENC (R163). -/
def execRsenc (c : Ctx) (ad am : AReg) (s : State) : Host.Outcome State Fault Refusal :=
  complete s do
    let R ← codecOf s c
    checkRange s (readA s am) R.k
    checkRange s (readA s ad) R.n
    let M ← memRead s (readA s am) R.k
    sameCtx M c
    let F ← fieldOf s c
    let t ← memWrite s (readA s ad) (tagged c (F.rsEncode R (vectors M)))
    return (t, 0)

/-- RSDEC (R164). -/
def execRsdec (c : Ctx) (ad ar : AReg) (s : State) : Host.Outcome State Fault Refusal :=
  complete s do
    let R ← codecOf s c
    checkRange s (readA s ar) R.n
    checkRange s (readA s ad) R.k
    let rcv ← memRead s (readA s ar) R.n
    sameCtx rcv c
    let F ← fieldOf s c
    let P ← F.bwDecode R (vectors rcv)
    let t ← memWrite s (readA s ad) (tagged c P)
    return (t, 0)

/-- RSPT (R162). -/
def execRspt (ed : EReg) (c : Ctx) (ai : AReg) (s : State) : Host.Outcome State Fault Refusal :=
  complete s do
    let R ← codecOf s c
    require (decide (readA s ai < R.n)) .badAddress
    return (writeE s ed ⟨c, R.point (readA s ai)⟩, 0)

end Sys2Proof.Machine
end

