-- ==== Sys2Proof/Machine/System.lean ====
section
/-! DEFINITION. The system commands (44_system.md): NOP, SETA, CSRR, CLRE, and the CSR map
(10_state.md R35 to R39). -/

namespace Sys2Proof.Machine

/-- NOP (R180). -/
def execNop (s : State) : Host.Outcome State Fault Refusal := complete s (.ok (s, 0))

/-- SETA (R181). A value that fits no word is truncated (log 12). -/
def execSeta (ad : AReg) (imm : Nat) (s : State) : Host.Outcome State Fault Refusal :=
  complete s (.ok (writeA s ad (BitVec.ofNat 20 imm), 0))

/-- CLRE (R183). -/
def execClre (s : State) : Host.Outcome State Fault Refusal := complete s (.ok ({ s with esr := 0 }, 0))

/-- A CSR value guarded by the valid bit of a context: 0 when it is 0 (R39). -/
def guarded {α : Type} (o : Option α) (f : α → Nat) : Nat :=
  match o with
  | some v => f v
  | none => 0

/-- The CSRs of context `c` by offset from `B(c)`; `none` when the offset is no CSR (R39). -/
def contextCsr (s : State) (c : Ctx) (offset : Nat) : Option Nat :=
  match offset with
  | 0x00 => some (guarded (s.fc.get c) FieldCtx.p)
  | 0x01 => some (guarded (s.fc.get c) FieldCtx.m)
  | 0x02 => some (guarded (s.fc.get c) FieldCtx.q)
  | 0x03 => some (guarded (s.fc.get c) (fun F => 1 + 2 * F.t.toNat))
  | 0x04 => some (guarded (s.fc.get c) (fun F => guarded F.tables (fun T => F.idx T.prim)))
  | 0x05 => some (guarded (s.rs.get c) Codec.n)
  | 0x06 => some (guarded (s.rs.get c) Codec.k)
  | 0x07 => some (guarded (s.rs.get c) Codec.emax)
  | 0x08 => some (guarded (s.rs.get c) (fun _ => 1))
  | offset =>
    if 0x20 ≤ offset ∧ offset ≤ 0x20 + s.params.mMax then
      some (guarded (s.fc.get c) (fun F => if offset - 0x20 ≤ F.m then slot F.g (offset - 0x20) else 0))
    else none

/-- The value of the CSR at address `addr`; `none` when the address is not assigned (R35 to R39). -/
def csrRead (s : State) (addr : Nat) : Option Nat :=
  match addr with
  | 0x0000 => some s.status.toNat
  | 0x0001 => some s.esr.toNat
  | 0x0002 => some s.cbuf.length
  | 0x0008 => some s.params.pMax
  | 0x0009 => some s.params.mMax
  | 0x000A => some s.params.qMax
  | 0x000B => some s.params.nMax
  | 0x000C => some s.params.emDepth
  | addr =>
    if 0x0010 ≤ addr ∧ addr < 0x0020 then some (readA s (Fin.ofNat 16 (addr - 0x0010)))
    else if 0x0100 ≤ addr ∧ addr < 0x0200 then
      contextCsr s (Fin.ofNat 4 ((addr - 0x0100) / 0x40)) ((addr - 0x0100) % 0x40)
    else none

/-- CSRR (R182): the value before the command. -/
def execCsrr (csr : Nat) (s : State) : Host.Outcome State Fault Refusal :=
  complete s (match csrRead s csr with
    | some v => .ok (s, v)
    | none => .error .badAddress)

end Sys2Proof.Machine
end

