-- ==== Sys2Proof/Machine/Dispatch.lean ====
section
/-! DEFINITION. One arm per command: its meaning, one direct call. -/

namespace Sys2Proof.Machine

def exec (i : Instr) (s : State) : Host.Outcome State Fault Refusal :=
  match i with
  | .nop => Sys2Proof.Machine.execNop s
  | .seta ad imm => Sys2Proof.Machine.execSeta ad imm s
  | .csrr csr => Sys2Proof.Machine.execCsrr csr s
  | .clre => Sys2Proof.Machine.execClre s
  | .cclr => Sys2Proof.Machine.execCclr s
  | .cpush v => Sys2Proof.Machine.execCpush v s
  | .emk ed c => Sys2Proof.Machine.execEmk ed c s
  | .emki ed c v => Sys2Proof.Machine.execEmki ed c v s
  | .erdc es index => Sys2Proof.Machine.execErdc es index s
  | .emov ed es => Sys2Proof.Machine.execEmov ed es s
  | .eld ed offset ab => Sys2Proof.Machine.execEld ed offset ab s
  | .est es offset ab => Sys2Proof.Machine.execEst es offset ab s
  | .fcfg c ap m fp => Sys2Proof.Machine.execFcfg c ap m fp s
  | .logrd es => Sys2Proof.Machine.execLogrd es s
  | .alogrd ed c ai => Sys2Proof.Machine.execAlogrd ed c ai s
  | .fadd ed es1 es2 => Sys2Proof.Machine.execFadd ed es1 es2 s
  | .fsub ed es1 es2 => Sys2Proof.Machine.execFsub ed es1 es2 s
  | .fneg ed es1 => Sys2Proof.Machine.execFneg ed es1 s
  | .fmul ed es1 es2 => Sys2Proof.Machine.execFmul ed es1 es2 s
  | .fdiv ed es1 es2 => Sys2Proof.Machine.execFdiv ed es1 es2 s
  | .pmulg ed es1 es2 => Sys2Proof.Machine.execPmulg ed es1 es2 s
  | .feq es1 es2 => Sys2Proof.Machine.execFeq es1 es2 s
  | .faddi ed es1 v => Sys2Proof.Machine.execFaddi ed es1 v s
  | .fsubi ed es1 v => Sys2Proof.Machine.execFsubi ed es1 v s
  | .frsubi ed es1 v => Sys2Proof.Machine.execFrsubi ed es1 v s
  | .fmuli ed es1 v => Sys2Proof.Machine.execFmuli ed es1 v s
  | .fdivi ed es1 v => Sys2Proof.Machine.execFdivi ed es1 v s
  | .frdivi ed es1 v => Sys2Proof.Machine.execFrdivi ed es1 v s
  | .gsolve ax aA ab an => Sys2Proof.Machine.execGsolve ax aA ab an s
  | .peval ed es ac al => Sys2Proof.Machine.execPeval ed es ac al s
  | .rscfg c an ak ax => Sys2Proof.Machine.execRscfg c an ak ax s
  | .rscfga c an ak => Sys2Proof.Machine.execRscfga c an ak s
  | .rsenc c ad am => Sys2Proof.Machine.execRsenc c ad am s
  | .rsdec c ad ar => Sys2Proof.Machine.execRsdec c ad ar s
  | .rspt ed c ai => Sys2Proof.Machine.execRspt ed c ai s

end Sys2Proof.Machine
end

