-- ==== Sys2Proof/Machine/Step.lean ====
section
/-! DEFINITION. One step: the next command word the host presents is accepted, decoded and executed
(00_scope.md R8, 70_reset_and_hazards.md R227). There is no program counter (10_state.md R27). -/

namespace Sys2Proof.Machine

/-- The block takes the next command word; with none pending it waits. -/
def step (s : State) : Host.Outcome State Fault Refusal :=
  match acceptCommand s with
  | none => wait s
  | some (w, t) =>
    match decode w with
    | .ok i => exec i t
    | .error _ => illegalCommand t

/-- `s` with the command word `w` presented as the very next one (log 10). -/
def State.withFetchWord (s : State) (nbits w : Nat) : State :=
  s.present (BitVec.ofNat 32 (w % 2 ^ nbits))

end Sys2Proof.Machine
end

