-- ==== Sys2Proof/Safety.lean ====
section
/-! DEFINITION. The terms in which claims are stated: how a command ends (60_exceptions.md R203), the
invariants the spec gives the state (10_state.md R22, R24, R30, R31, R34), the opcode table (30_encoding.md
R76, R77), and the mathematics a result is compared with. Nothing of the machine depends on this file. -/

namespace Sys2Proof.Machine

/-! ### How a command ends -/

/-- The command `i` in state `s` completes: its writes give `t`, `STATUS` becomes 0, the response is
`(0, data)` (R203). -/
def Succeeds (i : Instr) (s t : State) (data : Nat) : Prop :=
  exec i s = .next { t with status := 0, responses := ⟨0, BitVec.ofNat 32 data⟩ :: s.responses }

/-- The command `i` in state `s` raises `x`: the state is the state before the command but for `STATUS`,
bit `code(x)` of `ESR` and the response `(code(x), 0)` (R203). -/
def Fails (i : Instr) (s : State) (x : Err) : Prop :=
  exec i s = .next { s with
    status := BitVec.ofNat 8 x.code
    esr := s.esr ||| (1#16 <<< x.code)
    responses := ⟨BitVec.ofNat 8 x.code, 0⟩ :: s.responses }

/-- Which errors each command can return (R205). -/
def errorsOf : Instr → List Err
  | .nop => []
  | .seta _ _ => []
  | .clre => []
  | .cclr => []
  | .csrr _ => [.badAddress]
  | .cpush _ => [.capacityExceeded]
  | .fcfg _ _ _ _ => [.capacityExceeded, .invalidFieldParameters, .noPrimitiveElementFound]
  | .emk _ _ => [.uninitialised, .outOfRangeCoefficient]
  | .emki _ _ _ => [.uninitialised]
  | .erdc _ _ => [.uninitialised, .badAddress]
  | .emov _ _ => [.uninitialised]
  | .eld _ _ _ => [.badAddress, .uninitialised]
  | .est _ _ _ => [.uninitialised, .badAddress]
  | .logrd _ => [.uninitialised, .badAddress]
  | .alogrd _ _ _ => [.uninitialised, .badAddress]
  | .fadd _ _ _ => [.uninitialised, .fieldMismatch]
  | .fsub _ _ _ => [.uninitialised, .fieldMismatch]
  | .fmul _ _ _ => [.uninitialised, .fieldMismatch]
  | .pmulg _ _ _ => [.uninitialised, .fieldMismatch]
  | .fdiv _ _ _ => [.uninitialised, .fieldMismatch, .divisionByZero]
  | .fneg _ _ => [.uninitialised]
  | .faddi _ _ _ => [.uninitialised]
  | .fsubi _ _ _ => [.uninitialised]
  | .frsubi _ _ _ => [.uninitialised]
  | .fmuli _ _ _ => [.uninitialised]
  | .fdivi _ _ _ => [.uninitialised, .divisionByZero]
  | .frdivi _ _ _ => [.uninitialised, .divisionByZero]
  | .feq _ _ => [.uninitialised]
  | .gsolve _ _ _ _ => [.capacityExceeded, .badAddress, .uninitialised, .fieldMismatch, .singularSystem]
  | .peval _ _ _ _ => [.uninitialised, .badAddress, .fieldMismatch]
  | .rscfg _ _ _ _ =>
    [.uninitialised, .invalidCodecParameters, .capacityExceeded, .badAddress, .fieldMismatch]
  | .rscfga _ _ _ => [.uninitialised, .invalidCodecParameters, .capacityExceeded]
  | .rspt _ _ _ => [.uninitialised, .badAddress]
  | .rsenc _ _ _ => [.uninitialised, .badAddress, .fieldMismatch]
  | .rsdec _ _ _ => [.uninitialised, .badAddress, .fieldMismatch, .decodingFailure]

/-- The element registers a command reads as sources (10_state.md R21, "Readers"). -/
def sourcesOf : Instr → List EReg
  | .emov _ es => [es]
  | .est es _ _ => [es]
  | .erdc es _ => [es]
  | .logrd es => [es]
  | .fadd _ es1 es2 => [es1, es2]
  | .fsub _ es1 es2 => [es1, es2]
  | .fneg _ es1 => [es1]
  | .fmul _ es1 es2 => [es1, es2]
  | .fdiv _ es1 es2 => [es1, es2]
  | .pmulg _ es1 es2 => [es1, es2]
  | .feq es1 es2 => [es1, es2]
  | .faddi _ es1 _ => [es1]
  | .fsubi _ es1 _ => [es1]
  | .frsubi _ es1 _ => [es1]
  | .fmuli _ es1 _ => [es1]
  | .fdivi _ es1 _ => [es1]
  | .frdivi _ es1 _ => [es1]
  | .peval _ es _ _ => [es]
  | .nop => []
  | .seta _ _ => []
  | .csrr _ => []
  | .clre => []
  | .cclr => []
  | .cpush _ => []
  | .emk _ _ => []
  | .emki _ _ _ => []
  | .eld _ _ _ => []
  | .fcfg _ _ _ _ => []
  | .alogrd _ _ _ => []
  | .gsolve _ _ _ _ => []
  | .rscfg _ _ _ _ => []
  | .rscfga _ _ _ => []
  | .rsenc _ _ _ => []
  | .rsdec _ _ _ => []
  | .rspt _ _ _ => []

/-- The element register a command writes (10_state.md R21, "Writers"); FCFG's sweep apart. -/
def destinationOf : Instr → Option EReg
  | .emk ed _ => some ed
  | .emki ed _ _ => some ed
  | .emov ed _ => some ed
  | .eld ed _ _ => some ed
  | .alogrd ed _ _ => some ed
  | .rspt ed _ _ => some ed
  | .fadd ed _ _ => some ed
  | .fsub ed _ _ => some ed
  | .fneg ed _ => some ed
  | .fmul ed _ _ => some ed
  | .fdiv ed _ _ => some ed
  | .pmulg ed _ _ => some ed
  | .faddi ed _ _ => some ed
  | .fsubi ed _ _ => some ed
  | .frsubi ed _ _ => some ed
  | .fmuli ed _ _ => some ed
  | .fdivi ed _ _ => some ed
  | .frdivi ed _ _ => some ed
  | .peval ed _ _ _ => some ed
  | .nop => none
  | .seta _ _ => none
  | .csrr _ => none
  | .clre => none
  | .cclr => none
  | .cpush _ => none
  | .erdc _ _ => none
  | .est _ _ _ => none
  | .fcfg _ _ _ _ => none
  | .logrd _ => none
  | .feq _ _ => none
  | .gsolve _ _ _ _ => none
  | .rscfg _ _ _ _ => none
  | .rscfga _ _ _ => none
  | .rsenc _ _ _ => none
  | .rsdec _ _ _ => none

/-- The cells a command stores to when it succeeds, as base and count, computed as its meaning does (20_memory.md
R51, 42_linear_algebra.md R150, 43_reed_solomon.md R163, R164); FCFG's sweep apart. -/
def destinationCells (s : State) : Instr → Nat × Nat
  | .est _ offset ab => (effectiveAddress s ab offset, 1)
  | .gsolve ax _ _ an => (readA s ax, readA s an)
  | .rsenc c ad _ => (readA s ad, guarded (s.rs.get c) Codec.n)
  | .rsdec c ad _ => (readA s ad, guarded (s.rs.get c) Codec.k)
  | .nop => (0, 0)
  | .seta _ _ => (0, 0)
  | .csrr _ => (0, 0)
  | .clre => (0, 0)
  | .cclr => (0, 0)
  | .cpush _ => (0, 0)
  | .emk _ _ => (0, 0)
  | .emki _ _ _ => (0, 0)
  | .erdc _ _ => (0, 0)
  | .emov _ _ => (0, 0)
  | .eld _ _ _ => (0, 0)
  | .fcfg _ _ _ _ => (0, 0)
  | .logrd _ => (0, 0)
  | .alogrd _ _ _ => (0, 0)
  | .fadd _ _ _ => (0, 0)
  | .fsub _ _ _ => (0, 0)
  | .fneg _ _ => (0, 0)
  | .fmul _ _ _ => (0, 0)
  | .fdiv _ _ _ => (0, 0)
  | .pmulg _ _ _ => (0, 0)
  | .feq _ _ => (0, 0)
  | .faddi _ _ _ => (0, 0)
  | .fsubi _ _ _ => (0, 0)
  | .frsubi _ _ _ => (0, 0)
  | .fmuli _ _ _ => (0, 0)
  | .fdivi _ _ _ => (0, 0)
  | .frdivi _ _ _ => (0, 0)
  | .peval _ _ _ _ => (0, 0)
  | .rscfg _ _ _ _ => (0, 0)
  | .rscfga _ _ _ => (0, 0)
  | .rspt _ _ _ => (0, 0)

/-- `s` with the ports as they are when the host presents `w` alone, run one step, and the pending words
put back: the spec's `step : State × Word32 -> State × Response` (70_reset_and_hazards.md R227), the
response being the head of `responses`. -/
def transact (s : State) (w : Word) : State :=
  match step { s with cmds := [w] } with
  | .next t => { t with cmds := s.cmds }
  | .fault _ => s
  | .refused _ => s

/-! ### Memory by cell -/

/-- The cells from `base` on hold the list `L`. -/
def CellsHold (m : Memory) (base : Nat) (L : List Elem) : Prop :=
  ∀ i, i < L.length → Memory.read m (base + i) = L[i]?

/-- `m'` is `m` with the list `L` stored from cell `base` on and every other cell as before. -/
def Stores (m m' : Memory) (base : Nat) (L : List Elem) : Prop :=
  ∀ a, Memory.read m' a = if base ≤ a ∧ a < base + L.length then L[a - base]? else Memory.read m a

/-- Of what a register or a cell holds, what is left when context `c` is constructed anew: nothing if the
value belonged to `c` (10_state.md R40). -/
def survives (c : Ctx) : Option Elem → Option Elem
  | some v => if v.ctx = c then none else some v
  | none => none

/-- `t` is `s` after the commit of an FCFG that constructs `F` in context `c` (40_field.md R92, 10_state.md
R40), but for `STATUS` and the response. -/
structure Installs (s t : State) (c : Ctx) (F : FieldCtx) : Prop where
  installed : t.fc.get c = some F
  otherFields : ∀ c', c' ≠ c → t.fc.get c' = s.fc.get c'
  registers : ∀ r, t.e.get r = survives c (s.e.get r)
  cells : ∀ a, Memory.read t.emem a = survives c (Memory.read s.emem a)
  codec : t.rs.get c = none
  otherCodecs : ∀ c', c' ≠ c → t.rs.get c' = s.rs.get c'
  buffer : t.cbuf = []
  arguments : t.a = s.a
  esr : t.esr = s.esr
  params : t.params = s.params
  pending : t.cmds = s.cmds

/-- A staged sequence that FCFG accepts as a reduction polynomial of degree `m > 1` (40_field.md R95). -/
abbrev StagedPoly (p m : Nat) (cbuf : List Int) : Prop :=
  cbuf.length = m + 1 ∧ cbuf[m]? = some 1 ∧ ∀ x ∈ cbuf, 0 ≤ x ∧ x < (p : Int)

/-- The context without tables that FCFG constructs from `p`, `m` and the staged sequence (R92, R95). -/
def plainField (p m : Nat) (cbuf : List Int) : FieldCtx :=
  { p := p, m := m, q := p ^ m, g := if m = 1 then [0, 1] else cbuf.map Int.toNat, tables := none }

/-- The requests FCFG accepts when it builds no tables (R93 to R95). -/
abbrev FcfgValid (P : Params) (p m : Nat) (cbuf : List Int) : Prop :=
  p ≤ P.pMax ∧ m ≤ P.mMax ∧ p ^ m ≤ P.qMax ∧ p.Prime ∧ 1 ≤ m ∧ (m = 1 ∨ StagedPoly p m cbuf)

/-! ### The arithmetic a result is compared with -/

/-- `u` is a coefficient vector of `F`: length `m`, each coefficient in `[0, p)` (R13, R22). -/
abbrev FieldCtx.IsVec (F : FieldCtx) (u : Vec) : Prop := u.length = F.m ∧ ∀ x ∈ u, x < F.p

/-- `e` multiplied by itself `n` times under the direct rule (41_element.md R125, R128). -/
def FieldCtx.power (F : FieldCtx) (e : Vec) : Nat → Vec
  | 0 => F.one
  | n + 1 => F.dmul (F.power e n) e

/-- The polynomial over `Z_p` that a coefficient vector or `g` stands for (R13). -/
noncomputable def polyOf (p : Nat) (u : List Nat) : Polynomial (ZMod p) :=
  ∑ i ∈ Finset.range u.length, Polynomial.monomial i ((slot u i : ZMod p))

/-- The sum of the coefficients times the powers of `x`: the value of a polynomial with element
coefficients (42_linear_algebra.md R154, "It equals"). -/
def FieldCtx.polyValue (F : FieldCtx) (L : List Vec) (x : Vec) : Vec :=
  ((List.range L.length).map (fun i => F.dmul (L.getD i F.zero) (F.power x i))).foldl F.add F.zero

/-- The sum of the products of a row's entries and the unknowns (42_linear_algebra.md R152). -/
def FieldCtx.rowDot (F : FieldCtx) (row xs : List Vec) : Vec :=
  (List.zipWith F.dmul row xs).foldl F.add F.zero

/-- `xs` solves the `n × n` system with matrix `MA` (row-major) and right-hand side `Mb` (R152). -/
def FieldCtx.IsSolution (F : FieldCtx) (n : Nat) (MA Mb xs : List Vec) : Prop :=
  xs.length = n ∧ (∀ x ∈ xs, F.IsVec x) ∧
    ∀ i, i < n → F.rowDot ((MA.drop (i * n)).take n) xs = Mb.getD i F.zero

/-- The number of positions in which the encoding of `msg` differs from the word `r` (43_reed_solomon.md
R168, R169). -/
def FieldCtx.distance (F : FieldCtx) (R : Codec) (msg r : List Vec) : Nat :=
  (List.range R.n).countP (fun i => F.polyValue msg (R.x.getD i F.zero) != r.getD i F.zero)

/-- `msg` is a message near the word `r`: its encoding differs from `r` in at most `emax` positions (R169). -/
def FieldCtx.Near (F : FieldCtx) (R : Codec) (r msg : List Vec) : Prop :=
  msg.length = R.k ∧ (∀ u ∈ msg, F.IsVec u) ∧ F.distance R msg r ≤ R.emax

/-! ### Invariants -/

/-- The arithmetic part of a constructed context (10_state.md R26, 40_field.md R94, R95). -/
structure FieldCtx.Ring (F : FieldCtx) : Prop where
  prime : F.p.Prime
  degree : 1 ≤ F.m
  order : F.q = F.p ^ F.m
  gLength : F.g.length = F.m + 1
  gMonic : slot F.g F.m = 1
  gRange : ∀ x ∈ F.g, x < F.p
  gLinear : F.m = 1 → F.g = [0, 1]

/-- The context fits the implementation (40_field.md R93). -/
abbrev FieldCtx.Fits (P : Params) (F : FieldCtx) : Prop := F.p ≤ P.pMax ∧ F.m ≤ P.mMax ∧ F.q ≤ P.qMax

/-- The context's ring is a field: "always when `t = 1`; when `t = 0` provided `g` is irreducible"
(41_element.md R144). -/
def FieldCtx.HasFieldRing (F : FieldCtx) : Prop := F.t = true ∨ Irreducible (polyOf F.p F.g)

/-- `e` has multiplicative order exactly `q - 1` (40_field.md R96). -/
def FieldCtx.IsPrimitive (F : FieldCtx) (e : Vec) : Prop :=
  F.power e (F.q - 1) = F.one ∧ ∀ i, 1 ≤ i → i < F.q - 1 → F.power e i ≠ F.one

/-- The tables of a context (10_state.md R28 to R30): exponent `i` holds `prim^i`, LOG and ALOG are
mutually inverse on the nonzero elements, address 0 of LOG is not written, `ALOG[0]` is the identity.
`ALOG[1]` is the primitive element where that word exists, that is for `q > 2` (log 9). -/
structure FieldCtx.TablesOk (F : FieldCtx) (T : Tables) : Prop where
  primVec : F.IsVec T.prim
  logSize : T.log.length = F.q
  logZero : T.log[0]? = some none
  alogSize : T.alog.length = F.q - 1
  powers : ∀ i, i < F.q - 1 → T.alog[i]? = some (F.power T.prim i)
  vecs : ∀ u ∈ T.alog, F.IsVec u
  alogOfLog : ∀ j, 1 ≤ j → j < F.q →
    ∃ i u, T.log[j]? = some (some i) ∧ i < F.q - 1 ∧ T.alog[i]? = some u ∧ F.idx u = j
  logOfAlog : ∀ i u, T.alog[i]? = some u → T.log[F.idx u]? = some (some i)
  alogZero : T.alog[0]? = some F.one
  alogOne : 2 < F.q → T.alog[1]? = some T.prim

/-- A valid element value: its context is constructed and its vector is one of that field (R22). -/
def ElemOk (s : State) (v : Elem) : Prop := ∃ F, s.fc.get v.ctx = some F ∧ F.IsVec v.coef

/-- A valid codec of context `c` (10_state.md R31). -/
def CodecOk (s : State) (c : Ctx) (R : Codec) : Prop :=
  ∃ F, s.fc.get c = some F ∧ 1 ≤ R.k ∧ R.k < R.n ∧ R.n ≤ F.q - 1 ∧ R.n ≤ s.params.nMax ∧
    R.emax = (R.n - R.k) / 2 ∧ R.x.length = R.n ∧ (∀ u ∈ R.x, F.IsVec u ∧ u ≠ F.zero) ∧ R.x.Nodup

/-- What holds of the stores without regard to the values in them: legal parameters (00_scope.md R6), cells
inside EMEM in canonical form (20_memory.md R50), a buffer within its capacity (10_state.md R24), codes
up to 12 (60_exceptions.md R190) and the hardwired bits of `ESR` (10_state.md R34). -/
structure LayoutOk (s : State) : Prop where
  params : s.params.legal
  memory : Memory.wf s.emem = true
  cells : ∀ a v, Memory.read s.emem a = some v → a < s.params.emDepth
  buffer : s.cbuf.length ≤ s.params.mMax + 1
  status : s.status.toNat ≤ 12
  esr : s.esr.getLsbD 0 = false ∧ s.esr.getLsbD 13 = false ∧ s.esr.getLsbD 14 = false ∧
    s.esr.getLsbD 15 = false

/-- The invariant of the block: the layout, and R22 of every register and cell, R26 and R30 of every field
context, R31 of every codec context. -/
structure Inv (s : State) : Prop where
  layout : LayoutOk s
  registers : ∀ r v, s.e.get r = some v → ElemOk s v
  cells : ∀ a v, Memory.read s.emem a = some v → ElemOk s v
  fields : ∀ c F, s.fc.get c = some F →
    F.Ring ∧ F.Fits s.params ∧ ∀ T, F.tables = some T → F.TablesOk T
  codecs : ∀ c R, s.rs.get c = some R → CodecOk s c R

/-! ### The opcode table -/

/-- A row of `spec/opcode_table.json`: a word is of the row when its bits under the mask are the pattern. -/
structure OpcodeRow where
  mnemonic : String
  pattern : Word
  mask : Word
deriving DecidableEq, Repr

/-- `w` is a word of the row (R77). -/
def OpcodeRow.holds (row : OpcodeRow) (w : Word) : Bool := w &&& row.mask == row.pattern

/-- The rows of 30_encoding.md R76 as `spec/opcode_table.json` gives them. -/
def opcodeRows : List OpcodeRow :=
  [⟨"NOP", 0x00000000, 0xFFFFFFFF⟩, ⟨"SETA", 0x01000000, 0xFF000000⟩, ⟨"CSRR", 0x02000000, 0xFFFF0000⟩,
    ⟨"CLRE", 0x03000000, 0xFFFFFFFF⟩, ⟨"CCLR", 0x08000000, 0xFFFFFFFF⟩, ⟨"CPUSH", 0x09000000, 0xFFFF0000⟩,
    ⟨"EMK", 0x0A000000, 0xFF0FFFFC⟩, ⟨"EMKI", 0x0B000000, 0xFF0C0000⟩, ⟨"ERDC", 0x0C000000, 0xFF0F0000⟩,
    ⟨"EMOV", 0x0D000000, 0xFF00FFFF⟩, ⟨"ELD", 0x0E000000, 0xFF000000⟩, ⟨"EST", 0x0F000000, 0xFF000000⟩]
  ++ [⟨"FCFG", 0x10000000, 0xFF080000⟩, ⟨"LOGRD", 0x11000000, 0xFFF0FFFF⟩, ⟨"ALOGRD", 0x12000000, 0xFF00FFFC⟩,
    ⟨"FADD", 0x20000000, 0xFF000FFF⟩, ⟨"FSUB", 0x21000000, 0xFF000FFF⟩, ⟨"FNEG", 0x22000000, 0xFF00FFFF⟩,
    ⟨"FMUL", 0x23000000, 0xFF000FFF⟩, ⟨"FDIV", 0x24000000, 0xFF000FFF⟩, ⟨"PMULG", 0x25000000, 0xFF000FFF⟩,
    ⟨"FEQ", 0x26000000, 0xFFF00FFF⟩, ⟨"FADDI", 0x28000000, 0xFF000000⟩, ⟨"FSUBI", 0x29000000, 0xFF000000⟩]
  ++ [⟨"FRSUBI", 0x2A000000, 0xFF000000⟩, ⟨"FMULI", 0x2B000000, 0xFF000000⟩, ⟨"FDIVI", 0x2C000000, 0xFF000000⟩,
    ⟨"FRDIVI", 0x2D000000, 0xFF000000⟩, ⟨"GSOLVE", 0x30000000, 0xFF0000FF⟩, ⟨"PEVAL", 0x31000000, 0xFF0000FF⟩,
    ⟨"RSCFG", 0x38000000, 0xFF000FFC⟩, ⟨"RSCFGA", 0x39000000, 0xFF00FFFC⟩, ⟨"RSENC", 0x3A000000, 0xFF00FFFC⟩,
    ⟨"RSDEC", 0x3B000000, 0xFF00FFFC⟩, ⟨"RSPT", 0x3C000000, 0xFF00FFFC⟩]

end Sys2Proof.Machine
end

