-- ==== Sys2Proof/Certificates/Slice0/Obligations.lean ====
section
/-! DEFINITION. The statements for the provers, in the order of OBLIGATIONS.json. Each docstring names the
rule it formalises. `Succeeds` and `Fails` (Safety.lean) give the whole next state, so a statement that ends in
one of them says what the command leaves unchanged as well: every field of State it does not name. -/

open Sys2Proof Sys2Proof.Machine

/-! ### Encoding -/

/-- 30_encoding.md R71 to R76: no bit of a well-formed command is lost. -/
def Obligations.DecodeOfEncodeIsTheCommand : Prop :=
  ∀ i : Instr, i.wf = true → decode (encode i) = .ok i

/-- R77: a legal word is the word of the command it decodes to, and of no other. -/
def Obligations.EncodeOfDecodeIsTheWord : Prop :=
  ∀ (w : Word) (i : Instr), decode w = .ok i → i.wf = true ∧ encode i = w

/-- R77: "every 32-bit word either matches exactly one row of rule R76 with all its must-be-zero fields zero, or
is illegal", the rows being those of the opcode table. -/
def Obligations.LegalWordsAreTheTableRows : Prop :=
  ∀ w : Word, opcodeRows.countP (fun row => row.holds w) =
    match decode w with
    | .ok _ => 1
    | .error _ => 0

/-- R83, in both directions. -/
def Obligations.WorkedEncodings : Prop :=
  (decode 0x20201000 = .ok (.fadd 2 0 1) ∧ encode (.fadd 2 0 1) = 0x20201000) ∧
  (decode 0x0B01FFFF = .ok (.emki 0 1 (-1)) ∧ encode (.emki 0 1 (-1)) = 0x0B01FFFF) ∧
  (decode 0x10050002 = .ok (.fcfg 1 0 2 true) ∧ encode (.fcfg 1 0 2 true) = 0x10050002) ∧
  (decode 0x01310000 = .ok (.seta 3 65536) ∧ encode (.seta 3 65536) = 0x01310000) ∧
  (decode 0x3B450002 = .ok (.rsdec 2 4 5) ∧ encode (.rsdec 2 4 5) = 0x3B450002)

/-! ### The step -/

/-- R77, 60_exceptions.md R199: a word of no row raises IllegalCommand, code 9, and changes nothing but
`STATUS` and `ESR`; the word itself is taken from the port. -/
def Obligations.IllegalWordRaisesIllegalCommand : Prop :=
  ∀ (s : State) (w : Word) (rest : List Word), s.cmds = w :: rest →
    (∀ row ∈ opcodeRows, row.holds w = false) →
    step s = .next { s with
      cmds := rest, status := 9, esr := s.esr ||| 0x200, responses := ⟨9, 0⟩ :: s.responses }

/-- 00_scope.md R8, 70_reset_and_hazards.md R227: a step takes the next word and executes its command. -/
def Obligations.StepRunsTheDecodedCommand : Prop :=
  ∀ (s : State) (w : Word) (rest : List Word) (i : Instr), s.cmds = w :: rest → decode w = .ok i →
    step s = exec i { s with cmds := rest }

/-- The model's choice, log 3: with no word on the port the block waits (70_reset_and_hazards.md R220 says so
of the block after reset). -/
def Obligations.StepWithoutCommandWaits : Prop :=
  ∀ s : State, s.cmds = [] → step s = .next s

/-- 60_exceptions.md R207, 70_reset_and_hazards.md R226: no state and no word stops the block. -/
def Obligations.EveryStepAnswers : Prop :=
  ∀ s : State, ∃ t, step s = .next t

/-- 30_encoding.md R79: one response for every command, legal or not; data only from CSRR, ERDC, LOGRD and
FEQ; data 0 on a failure. -/
def Obligations.OneResponsePerCommand : Prop :=
  ∀ (s : State) (w : Word) (rest : List Word), s.cmds = w :: rest →
    ∃ t r, step s = .next t ∧ t.cmds = rest ∧ t.responses = r :: s.responses ∧
      (r.code ≠ 0 → r.data = 0) ∧
      (∀ i, decode w = .ok i → (∀ csr, i ≠ .csrr csr) → (∀ es index, i ≠ .erdc es index) →
        (∀ es, i ≠ .logrd es) → (∀ es1 es2, i ≠ .feq es1 es2) → r.data = 0)

/-- 70_reset_and_hazards.md R227: "a run is the fold of `step` over the list of words the host issues". -/
def Obligations.RunIsTheFoldOverTheCommands : Prop :=
  ∀ (ws : List Word) (s : State), s.cmds = [] →
    Host.Core.run Sys2Proof.core ws.length { s with cmds := ws } = .next (ws.foldl transact s)

/-- R227, 10_state.md R20: what the block does depends neither on the words still to come nor on the
responses it has given, and it touches neither but to add its response. -/
def Obligations.PortsDoNotInfluenceCommands : Prop :=
  ∀ (i : Instr) (s t : State) (q : List Word) (old : List Response), exec i s = .next t →
    ∃ r, t.responses = r :: s.responses ∧ t.cmds = s.cmds ∧
      exec i { s with cmds := q, responses := old } = .next { t with cmds := q, responses := r :: old }

/-! ### Errors -/

/-- 60_exceptions.md R203: a command either fails with nothing changed but `STATUS`, its bit of `ESR` and the
response, or succeeds with `STATUS` 0, the response code 0 and `ESR` as before (CLRE: 0). -/
def Obligations.CommandsAreAtomic : Prop :=
  ∀ (i : Instr) (s : State), (∃ x, Fails i s x) ∨
    ∃ t data, Succeeds i s t data ∧ t.esr = if i = .clre then 0 else s.esr

/-- 60_exceptions.md R205, each row as a set. -/
def Obligations.ErrorsOfEachCommand : Prop :=
  ∀ (i : Instr) (s : State) (x : Err), Fails i s x → x ∈ errorsOf i

/-- 60_exceptions.md R190: the codes, their order, and that codes 13 to 255 are never produced. -/
def Obligations.ResponseCodes : Prop :=
  (Err.invalidFieldParameters.code = 1 ∧ Err.noPrimitiveElementFound.code = 2 ∧
    Err.outOfRangeCoefficient.code = 3 ∧ Err.fieldMismatch.code = 4 ∧ Err.divisionByZero.code = 5 ∧
    Err.singularSystem.code = 6 ∧ Err.decodingFailure.code = 7 ∧ Err.invalidCodecParameters.code = 8 ∧
    Err.illegalCommand.code = 9 ∧ Err.uninitialised.code = 10 ∧ Err.badAddress.code = 11 ∧
    Err.capacityExceeded.code = 12) ∧
  ∀ (s : State) (w : Word) (rest : List Word) (t : State), s.cmds = w :: rest → step s = .next t →
    ∃ r, t.responses = r :: s.responses ∧ r.code.toNat ≤ 12

/-! ### Reset and invariants -/

/-- 10_state.md R42, 70_reset_and_hazards.md R220, for every implementation; what a valid bit hides is absent. -/
def Obligations.ResetState : Prop :=
  ∀ s : State,
    (∀ r, s.applyReset.e.get r = none) ∧ (∀ i, s.applyReset.a.get i = 0) ∧ s.applyReset.cbuf = [] ∧
      (∀ a, Memory.read s.applyReset.emem a = none) ∧ (∀ c, s.applyReset.fc.get c = none) ∧
      (∀ c, s.applyReset.rs.get c = none) ∧ s.applyReset.status = 0 ∧ s.applyReset.esr = 0 ∧
      s.applyReset.params = s.params

/-- The state after reset meets the invariant, whatever the legal parameters (00_scope.md R6). -/
def Obligations.ResetMeetsTheInvariant : Prop :=
  ∀ P : Params, P.legal → Inv (State.resetWith P)

/-- 10_state.md R22, R26, R30, R31: every step keeps the invariants of registers, cells, contexts, tables and
codecs. -/
def Obligations.StepKeepsTheInvariant : Prop :=
  ∀ s t : State, Inv s → step s = .next t → Inv t

/-- 10_state.md R24, R34, 20_memory.md R51: every step keeps the layout, whatever values the state holds, and
leaves the parameters alone (70_reset_and_hazards.md R221). -/
def Obligations.StepKeepsTheLayout : Prop :=
  ∀ s t : State, LayoutOk s → step s = .next t → LayoutOk t ∧ t.params = s.params

/-- 10_state.md R23, R24, R26, R31: which commands write the argument registers, the buffer, the field
contexts and the codecs. -/
def Obligations.WritersOfArgumentsAndContexts : Prop :=
  ∀ (i : Instr) (s t : State), exec i s = .next t →
    (∀ r, t.a.get r ≠ s.a.get r → ∃ imm, i = .seta r imm) ∧
    (∀ c, t.fc.get c ≠ s.fc.get c → ∃ ap m fp, i = .fcfg c ap m fp) ∧
    (∀ c, t.rs.get c ≠ s.rs.get c →
      (∃ an ak ax, i = .rscfg c an ak ax) ∨ (∃ an ak, i = .rscfga c an ak) ∨
        (∃ ap m fp, i = .fcfg c ap m fp) ∧ t.rs.get c = none) ∧
    (t.cbuf ≠ s.cbuf → i = .cclr ∨ (∃ v, i = .cpush v) ∨ (∃ ed c, i = .emk ed c) ∨
      ∃ c ap m fp, i = .fcfg c ap m fp) ∧
    t.params = s.params

/-- 10_state.md R21, R25, R40, 20_memory.md R51: a command other than FCFG changes at most its destination register
and, in every context, field or not, every cell outside those it stores to reads as before: one cell for EST, the
`A[an]` cells from `A[ax]` for GSOLVE, `n` cells for RSENC, `k` cells for RSDEC, none for the others. FCFG only
empties registers and cells of its own context. -/
def Obligations.WritersOfElements : Prop :=
  ∀ (i : Instr) (s t : State), exec i s = .next t → Memory.wf s.emem = true →
    ((∀ c ap m fp, i ≠ .fcfg c ap m fp) →
      (∀ r, destinationOf i ≠ some r → t.e.get r = s.e.get r) ∧
      ∀ a, ¬ ((destinationCells s i).1 ≤ a ∧ a < (destinationCells s i).1 + (destinationCells s i).2) →
        Memory.read t.emem a = Memory.read s.emem a) ∧
    (∀ c ap m fp, i = .fcfg c ap m fp →
      (∀ r, t.e.get r = s.e.get r ∨ t.e.get r = survives c (s.e.get r)) ∧
      (∀ a, Memory.read t.emem a = Memory.read s.emem a ∨
        Memory.read t.emem a = survives c (Memory.read s.emem a)))

/-- 10_state.md R33: `STATUS` is the code of the command just completed, and a CSRR of `STATUS` returns what
the command before it left and then writes 0; reset leaves 0. -/
def Obligations.StatusIsTheLastCode : Prop :=
  (∀ (s : State) (w : Word) (rest : List Word) (t : State), s.cmds = w :: rest → step s = .next t →
    ∃ r, t.responses = r :: s.responses ∧ t.status = r.code) ∧
  (∀ s : State, Succeeds (.csrr 0) s s s.status.toNat) ∧
  ∀ s : State, s.applyReset.status = 0

/-- 10_state.md R34: bit `i` is set by an error with code `i`, in 1 to 12, and stays until CLRE or reset;
bits 0, 13, 14, 15 stay 0; a success other than CLRE changes nothing; reset leaves 0. -/
def Obligations.EsrIsSticky : Prop :=
  (∀ s : State, s.applyReset.esr = 0) ∧
  ∀ (s : State) (w : Word) (rest : List Word) (t : State), s.cmds = w :: rest → step s = .next t →
    (∀ n, n < 16 → t.esr.getLsbD n =
      if t.status ≠ 0 then (s.esr.getLsbD n || decide (n = t.status.toNat))
      else if decode w = .ok .clre then false else s.esr.getLsbD n) ∧
    (t.status ≠ 0 → 1 ≤ t.status.toNat ∧ t.status.toNat ≤ 12) ∧
    (s.esr &&& 0xE001 = 0 → t.esr &&& 0xE001 = 0)

/-! ### System commands -/

/-- 44_system.md R180, R181, R183, 40_field.md R90. -/
def Obligations.NopSetaClreCclr : Prop :=
  ∀ s : State,
    Succeeds .nop s s 0 ∧
    (∀ (ad : AReg) (imm : Nat), imm ≤ 1048575 → ∃ v : BitVec 20, v.toNat = imm ∧
      Succeeds (.seta ad imm) s { s with a := s.a.set ad.val v } 0) ∧
    Succeeds .clre s { s with esr := 0 } 0 ∧
    Succeeds .cclr s { s with cbuf := [] } 0

/-- 10_state.md R36, R37, R38, 44_system.md R182: the global, argument and parameter CSRs, and the
zeros that the first two kinds read after reset. -/
def Obligations.CsrrGlobalRegisters : Prop :=
  ∀ s : State,
    Succeeds (.csrr 0x0000) s s s.status.toNat ∧
    Succeeds (.csrr 0x0001) s s s.esr.toNat ∧
    Succeeds (.csrr 0x0002) s s s.cbuf.length ∧
    (∀ i : AReg, Succeeds (.csrr (0x0010 + i.val)) s s (s.a.get i).toNat) ∧
    Succeeds (.csrr 0x0008) s s s.params.pMax ∧
    Succeeds (.csrr 0x0009) s s s.params.mMax ∧
    Succeeds (.csrr 0x000A) s s s.params.qMax ∧
    Succeeds (.csrr 0x000B) s s s.params.nMax ∧
    Succeeds (.csrr 0x000C) s s s.params.emDepth ∧
    ∀ addr, addr ≤ 0x0002 ∨ 0x0010 ≤ addr ∧ addr ≤ 0x001F →
      Succeeds (.csrr addr) s.applyReset s.applyReset 0

/-- 10_state.md R39: the CSRs of context `c`, 0 when the flag that guards them is 0; the addresses
between and after them are no CSRs. -/
def Obligations.CsrrContextRegisters : Prop :=
  ∀ (s : State) (c : Ctx), s.params.legal →
    (∀ F, s.fc.get c = some F →
      Succeeds (.csrr (0x0100 + 0x40 * c.val + 0x00)) s s F.p ∧
      Succeeds (.csrr (0x0100 + 0x40 * c.val + 0x01)) s s F.m ∧
      Succeeds (.csrr (0x0100 + 0x40 * c.val + 0x02)) s s F.q ∧
      Succeeds (.csrr (0x0100 + 0x40 * c.val + 0x03)) s s (if F.tables = none then 1 else 3) ∧
      (F.tables = none → Succeeds (.csrr (0x0100 + 0x40 * c.val + 0x04)) s s 0) ∧
      (∀ T, F.tables = some T → Succeeds (.csrr (0x0100 + 0x40 * c.val + 0x04)) s s (F.idx T.prim)) ∧
      ∀ i, i ≤ s.params.mMax → Succeeds (.csrr (0x0100 + 0x40 * c.val + 0x20 + i)) s s
        (if i ≤ F.m then slot F.g i else 0)) ∧
    (s.fc.get c = none →
      (∀ k, k ≤ 4 → Succeeds (.csrr (0x0100 + 0x40 * c.val + k)) s s 0) ∧
      ∀ i, i ≤ s.params.mMax → Succeeds (.csrr (0x0100 + 0x40 * c.val + 0x20 + i)) s s 0) ∧
    (∀ R, s.rs.get c = some R →
      Succeeds (.csrr (0x0100 + 0x40 * c.val + 0x05)) s s R.n ∧
      Succeeds (.csrr (0x0100 + 0x40 * c.val + 0x06)) s s R.k ∧
      Succeeds (.csrr (0x0100 + 0x40 * c.val + 0x07)) s s R.emax ∧
      Succeeds (.csrr (0x0100 + 0x40 * c.val + 0x08)) s s 1) ∧
    (s.rs.get c = none → ∀ k, 5 ≤ k → k ≤ 8 → Succeeds (.csrr (0x0100 + 0x40 * c.val + k)) s s 0) ∧
    ∀ k, 0x09 ≤ k ∧ k ≤ 0x1F ∨ 0x20 + s.params.mMax < k ∧ k < 0x40 →
      Fails (.csrr (0x0100 + 0x40 * c.val + k)) s .badAddress

/-- 10_state.md R35: an address of no table raises BadAddress. -/
def Obligations.CsrrUnassignedAddress : Prop :=
  ∀ (s : State) (addr : Nat), s.params.legal →
    ¬ addr ≤ 0x0002 → ¬ (0x0008 ≤ addr ∧ addr ≤ 0x000C) → ¬ (0x0010 ≤ addr ∧ addr ≤ 0x001F) →
    (∀ c, c < 4 → ¬ (0x0100 + 0x40 * c ≤ addr ∧ addr ≤ 0x0100 + 0x40 * c + 0x08) ∧
      ¬ (0x0100 + 0x40 * c + 0x20 ≤ addr ∧ addr ≤ 0x0100 + 0x40 * c + 0x20 + s.params.mMax)) →
    Fails (.csrr addr) s .badAddress

/-! ### The staging buffer and field construction -/

/-- 40_field.md R91. -/
def Obligations.CpushAppendsOrIsFull : Prop :=
  ∀ (s : State) (v : Int), -32768 ≤ v → v ≤ 32767 →
    (s.cbuf.length ≠ s.params.mMax + 1 → ∃ b : BitVec 16, b.toInt = v ∧
      Succeeds (.cpush v) s { s with cbuf := s.cbuf ++ [b] } 0) ∧
    (s.cbuf.length = s.params.mMax + 1 → Fails (.cpush v) s .capacityExceeded)

/-- 40_field.md R92 to R95, 10_state.md R40: a valid request with `fp = 0` constructs the context without
tables, whatever the reduction polynomial, and empties everything tagged with it. -/
def Obligations.FcfgWithoutTables : Prop :=
  ∀ (s : State) (c : Ctx) (ap : AReg) (m : Nat), Memory.wf s.emem = true →
    FcfgValid s.params (s.a.get ap).toNat m (s.cbuf.map BitVec.toInt) →
    ∃ t, Installs s t c (plainField (s.a.get ap).toNat m (s.cbuf.map BitVec.toInt)) ∧
      Succeeds (.fcfg c ap m false) s t 0

/-- 40_field.md R93, 60_exceptions.md R191, R201: capacity first, then validity; `p` fails unless it is prime. -/
def Obligations.FcfgRefusesInvalidParameters : Prop :=
  ∀ (s : State) (c : Ctx) (ap : AReg) (m : Nat) (fp : Bool) (p : Nat), p = (s.a.get ap).toNat →
    (s.params.pMax < p ∨ s.params.mMax < m ∨ s.params.qMax < p ^ m →
      Fails (.fcfg c ap m fp) s .capacityExceeded) ∧
    (p ≤ s.params.pMax → m ≤ s.params.mMax → p ^ m ≤ s.params.qMax →
      (m < 1 ∨ p < 2 ∨ (∃ d, 2 ≤ d ∧ d * d ≤ p ∧ d ∣ p) ∨
        (1 < m ∧ ¬ StagedPoly p m (s.cbuf.map BitVec.toInt))) →
      Fails (.fcfg c ap m fp) s .invalidFieldParameters)

/-- 40_field.md R96, R97, 10_state.md R28, R29: with `fp = 1` the primitive element is the candidate of
smallest canonical index whose order is exactly `q - 1`, and the tables are its powers and their inverse;
with no such candidate FCFG raises NoPrimitiveElementFound. -/
def Obligations.FcfgBuildsTheTables : Prop :=
  ∀ (s : State) (c : Ctx) (ap : AReg) (m : Nat) (F : FieldCtx), Memory.wf s.emem = true →
    FcfgValid s.params (s.a.get ap).toNat m (s.cbuf.map BitVec.toInt) →
    F = plainField (s.a.get ap).toNat m (s.cbuf.map BitVec.toInt) →
    ((∀ j, 1 ≤ j → j < F.q → ¬ F.IsPrimitive (F.unidx j)) →
      Fails (.fcfg c ap m true) s .noPrimitiveElementFound) ∧
    (∀ j, 1 ≤ j → j < F.q → F.IsPrimitive (F.unidx j) →
      (∀ j', 1 ≤ j' → j' < j → ¬ F.IsPrimitive (F.unidx j')) →
      ∃ t T, T.prim = F.unidx j ∧ F.TablesOk T ∧ Installs s t c { F with tables := some T } ∧
        Succeeds (.fcfg c ap m true) s t 0)

/-- 40_field.md R96, R106: construction with `fp = 1` succeeds exactly when the ring is a field. -/
def Obligations.FcfgWithTablesTestsIrreducibility : Prop :=
  ∀ (s : State) (c : Ctx) (ap : AReg) (m : Nat) (F : FieldCtx), Memory.wf s.emem = true →
    FcfgValid s.params (s.a.get ap).toNat m (s.cbuf.map BitVec.toInt) →
    F = plainField (s.a.get ap).toNat m (s.cbuf.map BitVec.toInt) →
    (Irreducible (polyOf F.p F.g) → ∃ t T, Installs s t c { F with tables := some T } ∧
      Succeeds (.fcfg c ap m true) s t 0) ∧
    (¬ Irreducible (polyOf F.p F.g) → Fails (.fcfg c ap m true) s .noPrimitiveElementFound)

/-! ### The element constructor, moves, loads and stores -/

/-- 40_field.md R98, 60_exceptions.md R193: EMK validates and never reduces; it consumes the buffer only when
it succeeds. -/
def Obligations.EmkValidatesTheSequence : Prop :=
  ∀ (s : State) (ed : EReg) (c : Ctx) (F : FieldCtx) (cb : List Int), s.fc.get c = some F →
    cb = s.cbuf.map BitVec.toInt →
    (cb.length ≤ F.m → (∀ x ∈ cb, 0 ≤ x ∧ x < (F.p : Int)) → ∃ u : Vec, u.length = F.m ∧
      (∀ i, i < F.m → (slot u i : Int) = cb.getD i 0) ∧
      Succeeds (.emk ed c) s { s with e := s.e.set ed.val (some ⟨c, u⟩), cbuf := [] } 0) ∧
    (F.m < cb.length ∨ (∃ x ∈ cb, x < 0 ∨ (F.p : Int) ≤ x) → Fails (.emk ed c) s .outOfRangeCoefficient)

/-- 40_field.md R99, 41_element.md R120, 00_scope.md R12: EMKI reduces by the floored remainder; both
constructors raise Uninitialised on a context that is not constructed. -/
def Obligations.EmkiReducesTheInteger : Prop :=
  ∀ (s : State) (ed : EReg) (c : Ctx) (v : Int),
    (∀ F, s.fc.get c = some F → F.Ring → ∃ (k : Nat) (z : Int), k < F.p ∧ v = z * (F.p : Int) + (k : Int) ∧
      Succeeds (.emki ed c v) s
        { s with e := s.e.set ed.val (some ⟨c, k :: List.replicate (F.m - 1) 0⟩) } 0) ∧
    (s.fc.get c = none → Fails (.emki ed c v) s .uninitialised ∧ Fails (.emk ed c) s .uninitialised)

/-- 40_field.md R100, R101. -/
def Obligations.ErdcAndEmov : Prop :=
  ∀ (s : State) (es : EReg) (x : Elem), s.e.get es = some x →
    (∀ ed : EReg, Succeeds (.emov ed es) s { s with e := s.e.set ed.val (some x) } 0) ∧
    (∀ (F : FieldCtx) (index : Nat), s.fc.get x.ctx = some F →
      (index < F.m → Succeeds (.erdc es index) s s (slot x.coef index)) ∧
      (F.m ≤ index → Fails (.erdc es index) s .badAddress))

/-- 40_field.md R102, R103, 20_memory.md R51: the effective address is `A[b] + offset`, not wrapped; a load
reads that cell, a store changes that cell alone; beyond EMEM both raise BadAddress. -/
def Obligations.EldAndEst : Prop :=
  ∀ (s : State) (r : EReg) (ab : AReg) (offset ea : Nat), ea = (s.a.get ab).toNat + offset →
    (ea < s.params.emDepth →
      (∀ x, Memory.read s.emem ea = some x →
        Succeeds (.eld r offset ab) s { s with e := s.e.set r.val (some x) } 0) ∧
      (Memory.read s.emem ea = none → Fails (.eld r offset ab) s .uninitialised) ∧
      (∀ x, s.e.get r = some x → ∃ mem', Stores s.emem mem' ea [x] ∧
        Succeeds (.est r offset ab) s { s with emem := mem' } 0)) ∧
    (s.params.emDepth ≤ ea →
      Fails (.eld r offset ab) s .badAddress ∧
      (∀ x, s.e.get r = some x → Fails (.est r offset ab) s .badAddress)) ∧
    (s.e.get r = none → Fails (.est r offset ab) s .uninitialised)

/-! ### Reading the tables and the points -/

/-- 40_field.md R104, R105, 43_reed_solomon.md R162. -/
def Obligations.LogrdAlogrdRspt : Prop :=
  ∀ (s : State) (c : Ctx), Inv s →
    (∀ F T, s.fc.get c = some F → F.tables = some T →
      (∀ (es : EReg) (u : Vec), s.e.get es = some ⟨c, u⟩ →
        (u ≠ F.zero → ∃ i, T.log[F.idx u]? = some (some i) ∧ F.power T.prim i = u ∧
          Succeeds (.logrd es) s s i) ∧
        (u = F.zero → Fails (.logrd es) s .badAddress)) ∧
      (∀ (ed : EReg) (ai : AReg),
        ((s.a.get ai).toNat ≤ F.q - 2 → Succeeds (.alogrd ed c ai) s
          { s with e := s.e.set ed.val (some ⟨c, F.power T.prim (s.a.get ai).toNat⟩) } 0) ∧
        (F.q - 2 < (s.a.get ai).toNat → Fails (.alogrd ed c ai) s .badAddress))) ∧
    (∀ F, s.fc.get c = some F → F.tables = none →
      (∀ (es : EReg) (u : Vec), s.e.get es = some ⟨c, u⟩ → Fails (.logrd es) s .uninitialised) ∧
      ∀ (ed : EReg) (ai : AReg), Fails (.alogrd ed c ai) s .uninitialised) ∧
    (s.fc.get c = none → ∀ (ed : EReg) (ai : AReg), Fails (.alogrd ed c ai) s .uninitialised) ∧
    (∀ (ed : EReg) (ai : AReg),
      (s.rs.get c = none → Fails (.rspt ed c ai) s .uninitialised) ∧
      (∀ R, s.rs.get c = some R →
        (R.n ≤ (s.a.get ai).toNat → Fails (.rspt ed c ai) s .badAddress) ∧
        (∀ u, (s.a.get ai).toNat < R.n → R.x[(s.a.get ai).toNat]? = some u →
          Succeeds (.rspt ed c ai) s { s with e := s.e.set ed.val (some ⟨c, u⟩) } 0)))

/-- 41_element.md R121: the canonical index and its inverse are inverse bijections between the vectors and
`[0, q)`, with `zero` at 0 and `one` at 1. -/
def Obligations.CanonicalIndexIsABijection : Prop :=
  ∀ F : FieldCtx, F.Ring →
    (∀ u, F.IsVec u → F.idx u = (∑ i ∈ Finset.range F.m, slot u i * F.p ^ i) ∧ F.idx u < F.q ∧
      F.unidx (F.idx u) = u) ∧
    (∀ j, j < F.q → F.IsVec (F.unidx j) ∧ (∀ i, i < F.m → slot (F.unidx j) i = j / F.p ^ i % F.p) ∧
      F.idx (F.unidx j) = j) ∧
    F.idx F.zero = 0 ∧ F.idx F.one = 1 ∧ (F.m = 1 → ∀ x, F.idx [x] = x)

/-! ### Element arithmetic -/

/-- 41_element.md R122 to R124, R130 to R132: coefficient-wise mod `p`, the difference as the number that
gives the minuend back. -/
def Obligations.FaddFsubFneg : Prop :=
  ∀ (s : State) (ed es1 es2 : EReg) (c : Ctx) (F : FieldCtx) (u v : Vec),
    s.e.get es1 = some ⟨c, u⟩ → s.e.get es2 = some ⟨c, v⟩ → s.fc.get c = some F → 0 < F.p →
    (∃ w : Vec, w.length = F.m ∧ (∀ i, i < F.m → slot w i = (slot u i + slot v i) % F.p) ∧
      Succeeds (.fadd ed es1 es2) s { s with e := s.e.set ed.val (some ⟨c, w⟩) } 0) ∧
    (∃ w : Vec, w.length = F.m ∧
      (∀ i, i < F.m → slot w i < F.p ∧ (slot w i + slot v i) % F.p = slot u i % F.p) ∧
      Succeeds (.fsub ed es1 es2) s { s with e := s.e.set ed.val (some ⟨c, w⟩) } 0) ∧
    (∃ w : Vec, w.length = F.m ∧ (∀ i, i < F.m → slot w i < F.p ∧ (slot w i + slot u i) % F.p = 0) ∧
      Succeeds (.fneg ed es1) s { s with e := s.e.set ed.val (some ⟨c, w⟩) } 0)

/-- 41_element.md R137 to R139: the raw integer acts on coefficient 0 alone; FRSUBI has it on the left. -/
def Obligations.FaddiFsubiFrsubi : Prop :=
  ∀ (s : State) (ed es1 : EReg) (c : Ctx) (F : FieldCtx) (u : Vec) (v : Int),
    s.e.get es1 = some ⟨c, u⟩ → s.fc.get c = some F → F.Ring → F.IsVec u →
    (∃ w : Vec, F.IsVec w ∧ (slot w 0 : Int) = ((slot u 0 : Int) + v) % (F.p : Int) ∧
      (∀ i, 1 ≤ i → slot w i = slot u i) ∧
      Succeeds (.faddi ed es1 v) s { s with e := s.e.set ed.val (some ⟨c, w⟩) } 0) ∧
    (∃ w : Vec, F.IsVec w ∧ (slot w 0 : Int) = ((slot u 0 : Int) - v) % (F.p : Int) ∧
      (∀ i, 1 ≤ i → slot w i = slot u i) ∧
      Succeeds (.fsubi ed es1 v) s { s with e := s.e.set ed.val (some ⟨c, w⟩) } 0) ∧
    (∃ w : Vec, F.IsVec w ∧ (slot w 0 : Int) = (v - (slot u 0 : Int)) % (F.p : Int) ∧
      (∀ i, 1 ≤ i → (slot w i + slot u i) % F.p = 0) ∧
      Succeeds (.frsubi ed es1 v) s { s with e := s.e.set ed.val (some ⟨c, w⟩) } 0)

/-- 41_element.md R125, R133, R135, R140: FMUL and PMULG, with and without tables, and FMULI give the
remainder of the product of polynomials modulo `g`. -/
def Obligations.ProductsArePolynomialRemainders : Prop :=
  ∀ (s : State) (ed es1 es2 : EReg) (c : Ctx) (F : FieldCtx) (u v : Vec) (n : Int), Inv s →
    s.e.get es1 = some ⟨c, u⟩ → s.e.get es2 = some ⟨c, v⟩ → s.fc.get c = some F →
    (∃ w : Vec, F.IsVec w ∧
      polyOf F.p w = Polynomial.modByMonic (polyOf F.p u * polyOf F.p v) (polyOf F.p F.g) ∧
      Succeeds (.fmul ed es1 es2) s { s with e := s.e.set ed.val (some ⟨c, w⟩) } 0 ∧
      Succeeds (.pmulg ed es1 es2) s { s with e := s.e.set ed.val (some ⟨c, w⟩) } 0) ∧
    (∃ w : Vec, F.IsVec w ∧ (∀ i, (slot w i : ZMod F.p) = (slot u i : ZMod F.p) * (n : ZMod F.p)) ∧
      Succeeds (.fmuli ed es1 n) s { s with e := s.e.set ed.val (some ⟨c, w⟩) } 0)

/-- 41_element.md R145, first part: FMUL and PMULG never differ, in results or in errors. -/
def Obligations.FmulAndPmulgNeverDiffer : Prop :=
  ∀ (s : State) (ed es1 es2 : EReg), Inv s → exec (.fmul ed es1 es2) s = exec (.pmulg ed es1 es2) s

/-- 41_element.md R126, R127: the table path of FMUL and FDIV, from the words of the two RAMs, and the zero
operands that look nothing up. -/
def Obligations.TablePathOfFmulAndFdiv : Prop :=
  ∀ (s : State) (ed es1 es2 : EReg) (c : Ctx) (F : FieldCtx) (T : Tables) (u v : Vec),
    s.e.get es1 = some ⟨c, u⟩ → s.e.get es2 = some ⟨c, v⟩ → s.fc.get c = some F → F.tables = some T →
    (∀ i j w, u ≠ F.zero → v ≠ F.zero → T.log[F.idx u]? = some (some i) → T.log[F.idx v]? = some (some j) →
      (T.alog[(i + j) % (F.q - 1)]? = some w →
        Succeeds (.fmul ed es1 es2) s { s with e := s.e.set ed.val (some ⟨c, w⟩) } 0) ∧
      (T.alog[(((i : Int) - (j : Int)) % ((F.q - 1 : Nat) : Int)).toNat]? = some w →
        Succeeds (.fdiv ed es1 es2) s { s with e := s.e.set ed.val (some ⟨c, w⟩) } 0)) ∧
    (u = F.zero ∨ v = F.zero →
      Succeeds (.fmul ed es1 es2) s { s with e := s.e.set ed.val (some ⟨c, F.zero⟩) } 0) ∧
    (u = F.zero → v ≠ F.zero →
      Succeeds (.fdiv ed es1 es2) s { s with e := s.e.set ed.val (some ⟨c, F.zero⟩) } 0)

/-- 41_element.md R127, R134, R141, R142, R145: with and without tables a quotient is the dividend times the
divisor to the power `q - 2` under the direct rule, for every nonzero divisor. -/
def Obligations.QuotientsAreProductsWithAPower : Prop :=
  ∀ (s : State) (ed es1 es2 : EReg) (c : Ctx) (F : FieldCtx) (u v : Vec) (n : Int), Inv s →
    s.e.get es1 = some ⟨c, u⟩ → s.e.get es2 = some ⟨c, v⟩ → s.fc.get c = some F →
    (v ≠ F.zero → Succeeds (.fdiv ed es1 es2) s
      { s with e := s.e.set ed.val (some ⟨c, F.dmul u (F.power v (F.q - 2))⟩) } 0) ∧
    (¬ (F.p : Int) ∣ n → Succeeds (.fdivi ed es1 n) s
      { s with e := s.e.set ed.val (some ⟨c, F.dmul u (F.power (F.promote n) (F.q - 2))⟩) } 0) ∧
    (u ≠ F.zero → Succeeds (.frdivi ed es1 n) s
      { s with e := s.e.set ed.val (some ⟨c, F.dmul (F.promote n) (F.power u (F.q - 2))⟩) } 0)

/-- 41_element.md R144: in a field FDIV undoes multiplication, and FINV gives the multiplicative inverse. -/
def Obligations.QuotientTimesDivisorIsTheDividend : Prop :=
  ∀ (s : State) (ed es1 es2 : EReg) (c : Ctx) (F : FieldCtx) (u v : Vec), Inv s →
    s.e.get es1 = some ⟨c, u⟩ → s.e.get es2 = some ⟨c, v⟩ → s.fc.get c = some F → F.HasFieldRing →
    v ≠ F.zero →
    (∃ w, F.IsVec w ∧ F.dmul w v = u ∧
      Succeeds (.fdiv ed es1 es2) s { s with e := s.e.set ed.val (some ⟨c, w⟩) } 0) ∧
    (∃ w, F.IsVec w ∧ F.dmul v w = F.one ∧
      Succeeds (.finv ed es2) s { s with e := s.e.set ed.val (some ⟨c, w⟩) } 0)

/-- 60_exceptions.md R195, 41_element.md R127: a zero divisor, also over `0 / 0` and for an integer divisible
by `p`. -/
def Obligations.ZeroDivisorRaisesDivisionByZero : Prop :=
  ∀ (s : State) (ed es1 es2 : EReg) (c : Ctx) (F : FieldCtx) (u : Vec) (n : Int), Inv s →
    s.fc.get c = some F → s.e.get es1 = some ⟨c, u⟩ →
    (s.e.get es2 = some ⟨c, F.zero⟩ → Fails (.fdiv ed es1 es2) s .divisionByZero) ∧
    ((F.p : Int) ∣ n → Fails (.fdivi ed es1 n) s .divisionByZero) ∧
    (u = F.zero → Fails (.frdivi ed es1 n) s .divisionByZero)

/-- 41_element.md R144: commutativity, associativity and distributivity "hold in every context, field or not". -/
def Obligations.RingLawsOfEveryContext : Prop :=
  ∀ (F : FieldCtx) (u v w : Vec), F.Ring → F.IsVec u → F.IsVec v → F.IsVec w →
    F.add u v = F.add v u ∧ F.add (F.add u v) w = F.add u (F.add v w) ∧
    F.dmul u v = F.dmul v u ∧ F.dmul (F.dmul u v) w = F.dmul u (F.dmul v w) ∧
    F.dmul u (F.add v w) = F.add (F.dmul u v) (F.dmul u w) ∧
    F.add u F.zero = u ∧ F.dmul u F.one = u ∧ F.add u (F.neg u) = F.zero ∧
    F.sub u v = F.add u (F.neg v)

/-- 41_element.md R136: equal iff same owning field and identical vectors; different contexts are unequal and
raise nothing. -/
def Obligations.FeqComparesFieldAndVector : Prop :=
  ∀ (s : State) (es1 es2 : EReg) (x y : Elem), s.e.get es1 = some x → s.e.get es2 = some y →
    (x = y → Succeeds (.feq es1 es2) s s 1) ∧ (x ≠ y → Succeeds (.feq es1 es2) s s 0)

/-- 41_element.md R129, 60_exceptions.md R194: two sources of different contexts. -/
def Obligations.DifferentFieldsDoNotCombine : Prop :=
  ∀ (s : State) (ed es1 es2 : EReg) (x y : Elem), s.e.get es1 = some x → s.e.get es2 = some y →
    x.ctx ≠ y.ctx →
    Fails (.fadd ed es1 es2) s .fieldMismatch ∧ Fails (.fsub ed es1 es2) s .fieldMismatch ∧
    Fails (.fmul ed es1 es2) s .fieldMismatch ∧ Fails (.fdiv ed es1 es2) s .fieldMismatch ∧
    Fails (.pmulg ed es1 es2) s .fieldMismatch

/-- 60_exceptions.md R200, 10_state.md R21: a source register that was never written. -/
def Obligations.EmptySourceRaisesUninitialised : Prop :=
  ∀ (i : Instr) (s : State) (r : EReg), r ∈ sourcesOf i → s.e.get r = none → Fails i s .uninitialised

/-- 30_encoding.md R81 (FDBL), 41_element.md R139: two commands that equal another. -/
def Obligations.AliasesAgree : Prop :=
  ∀ (s : State) (ed es : EReg),
    exec (.frsubi ed es 0) s = exec (.fneg ed es) s ∧
    (Inv s → exec (.fdbl ed es) s = exec (.fadd ed es es) s)

/-! ### Linear algebra -/

/-- 42_linear_algebra.md R153, R154: PEVAL writes the sum of the coefficients times the powers of the point,
the additive identity for length 0. That length 0 succeeds at ANY base, also one above EM_DEPTH, is the model's
reading (log 20, DEDUCED, unsafe): 60_exceptions.md R202 and a sentence of 00_scope.md R14 say that an empty range
is never bad, R14's formula and the vector of `95_test_vectors.md` 2.9 with base 0x10001 say otherwise. -/
def Obligations.PevalIsTheValueOfThePolynomial : Prop :=
  ∀ (s : State) (ed es : EReg) (ac al : AReg) (c : Ctx) (F : FieldCtx) (x : Vec) (L : List Vec), Inv s →
    s.e.get es = some ⟨c, x⟩ → s.fc.get c = some F → L.length = (s.a.get al).toNat →
    (L.length = 0 ∨ (s.a.get ac).toNat + L.length ≤ s.params.emDepth) →
    CellsHold s.emem (s.a.get ac).toNat (tagged c L) →
    Succeeds (.peval ed es ac al) s { s with e := s.e.set ed.val (some ⟨c, F.polyValue L x⟩) } 0

/-- 42_linear_algebra.md R150, R152: in a field GSOLVE stores the solution of a system that has exactly one,
and raises SingularSystem otherwise; a system of size 0 succeeds and writes nothing. That size 0 succeeds at ANY
three bases, also above EM_DEPTH, is the model's reading (log 20, DEDUCED, unsafe: 60_exceptions.md R202 and a
sentence of 00_scope.md R14 against R14's formula). `Obligations.GsolveTestsInOrder` has the contexts whose ring is
no field. -/
def Obligations.GsolveSolvesTheSystem : Prop :=
  ∀ (s : State) (ax aA ab an : AReg) (c : Ctx) (F : FieldCtx) (n : Nat) (MA Mb : List Vec), Inv s →
    s.fc.get c = some F → F.HasFieldRing → n = (s.a.get an).toNat → n ≤ s.params.nMax →
    MA.length = n * n → Mb.length = n →
    (n = 0 ∨ (s.a.get aA).toNat + n * n ≤ s.params.emDepth ∧ (s.a.get ab).toNat + n ≤ s.params.emDepth ∧
      (s.a.get ax).toNat + n ≤ s.params.emDepth) →
    CellsHold s.emem (s.a.get aA).toNat (tagged c MA) → CellsHold s.emem (s.a.get ab).toNat (tagged c Mb) →
    (n = 0 → Succeeds (.gsolve ax aA ab an) s s 0) ∧
    (∀ xs, F.IsSolution n MA Mb xs → (∀ ys, F.IsSolution n MA Mb ys → ys = xs) →
      ∃ mem', Stores s.emem mem' (s.a.get ax).toNat (tagged c xs) ∧
        Succeeds (.gsolve ax aA ab an) s { s with emem := mem' } 0) ∧
    ((¬ ∃! xs, F.IsSolution n MA Mb xs) → Fails (.gsolve ax aA ab an) s .singularSystem)

/-- 42_linear_algebra.md R150, R151, 60_exceptions.md R201, R202, R204: the tests of GSOLVE in their order; then, in
every context, field or not, what the elimination of R151 gives is stored at `A[ax]`, or SingularSystem is raised
(`93_implementation_defined.md` U4: one definite result). -/
def Obligations.GsolveTestsInOrder : Prop :=
  ∀ (s : State) (ax aA ab an : AReg) (n : Nat), n = (s.a.get an).toNat →
    (s.params.nMax < n → Fails (.gsolve ax aA ab an) s .capacityExceeded) ∧
    (n ≤ s.params.nMax → 1 ≤ n →
      (s.params.emDepth < (s.a.get aA).toNat + n * n ∨ s.params.emDepth < (s.a.get ab).toNat + n ∨
        s.params.emDepth < (s.a.get ax).toNat + n) →
      Fails (.gsolve ax aA ab an) s .badAddress) ∧
    (n ≤ s.params.nMax → 1 ≤ n → (s.a.get aA).toNat + n * n ≤ s.params.emDepth →
      (s.a.get ab).toNat + n ≤ s.params.emDepth → (s.a.get ax).toNat + n ≤ s.params.emDepth →
      ((∃ i, i < n * n ∧ Memory.read s.emem ((s.a.get aA).toNat + i) = none) ∨
        ∃ i, i < n ∧ Memory.read s.emem ((s.a.get ab).toNat + i) = none) →
      Fails (.gsolve ax aA ab an) s .uninitialised) ∧
    (∀ MA Mb : List Elem, n ≤ s.params.nMax → 1 ≤ n → MA.length = n * n → Mb.length = n →
      (s.a.get aA).toNat + n * n ≤ s.params.emDepth → (s.a.get ab).toNat + n ≤ s.params.emDepth →
      (s.a.get ax).toNat + n ≤ s.params.emDepth →
      CellsHold s.emem (s.a.get aA).toNat MA → CellsHold s.emem (s.a.get ab).toNat Mb →
      (∃ x ∈ MA ++ Mb, ∃ y ∈ MA ++ Mb, x.ctx ≠ y.ctx) →
      Fails (.gsolve ax aA ab an) s .fieldMismatch) ∧
    (∀ (c : Ctx) (F : FieldCtx) (MA Mb : List Vec), s.fc.get c = some F → n ≤ s.params.nMax → 1 ≤ n →
      MA.length = n * n → Mb.length = n → (s.a.get aA).toNat + n * n ≤ s.params.emDepth →
      (s.a.get ab).toNat + n ≤ s.params.emDepth → (s.a.get ax).toNat + n ≤ s.params.emDepth →
      CellsHold s.emem (s.a.get aA).toNat (tagged c MA) → CellsHold s.emem (s.a.get ab).toNat (tagged c Mb) →
      (∀ xs, F.solve n MA Mb = some xs → xs.length = n ∧
        ∃ mem', Stores s.emem mem' (s.a.get ax).toNat (tagged c xs) ∧
          Succeeds (.gsolve ax aA ab an) s { s with emem := mem' } 0) ∧
      (F.solve n MA Mb = none → Fails (.gsolve ax aA ab an) s .singularSystem))

/-! ### Reed-Solomon -/

/-- 43_reed_solomon.md R160, R161: the codec that RSCFG and RSCFGA construct. -/
def Obligations.RscfgAndRscfgaConstructTheCodec : Prop :=
  ∀ (s : State) (c : Ctx) (an ak ax : AReg) (F : FieldCtx) (n k : Nat), s.fc.get c = some F →
    n = (s.a.get an).toNat → k = (s.a.get ak).toNat → 1 ≤ k → k < n → n ≤ F.q - 1 → n ≤ s.params.nMax →
    (∀ xs : List Vec, xs.length = n → (s.a.get ax).toNat + n ≤ s.params.emDepth →
      CellsHold s.emem (s.a.get ax).toNat (tagged c xs) → (∀ u ∈ xs, u ≠ F.zero) → xs.Nodup →
      Succeeds (.rscfg c an ak ax) s
        { s with rs := s.rs.set c.val (some ⟨n, k, (n - k) / 2, xs⟩) } 0) ∧
    Succeeds (.rscfga c an ak) s
      { s with rs := s.rs.set c.val (some ⟨n, k, (n - k) / 2,
        (List.range n).map (fun i => (List.range F.m).map (fun d => (i + 1) / F.p ^ d % F.p))⟩) } 0

/-- 43_reed_solomon.md R160, R161, 60_exceptions.md R198, R201: the parameters and points that are refused. -/
def Obligations.CodecParametersRefused : Prop :=
  ∀ (s : State) (c : Ctx) (an ak ax : AReg) (n k : Nat), n = (s.a.get an).toNat → k = (s.a.get ak).toNat →
    (s.fc.get c = none → Fails (.rscfg c an ak ax) s .uninitialised ∧
      Fails (.rscfga c an ak) s .uninitialised) ∧
    ∀ F, s.fc.get c = some F →
      (¬ (1 ≤ k ∧ k < n ∧ n ≤ F.q - 1) → Fails (.rscfg c an ak ax) s .invalidCodecParameters ∧
        Fails (.rscfga c an ak) s .invalidCodecParameters) ∧
      (1 ≤ k → k < n → n ≤ F.q - 1 → s.params.nMax < n → Fails (.rscfg c an ak ax) s .capacityExceeded ∧
        Fails (.rscfga c an ak) s .capacityExceeded) ∧
      (∀ xs : List Vec, 1 ≤ k → k < n → n ≤ F.q - 1 → n ≤ s.params.nMax → xs.length = n →
        (s.a.get ax).toNat + n ≤ s.params.emDepth → CellsHold s.emem (s.a.get ax).toNat (tagged c xs) →
        (F.zero ∈ xs ∨ ¬ xs.Nodup) → Fails (.rscfg c an ak ax) s .invalidCodecParameters)

/-- 43_reed_solomon.md R163: RSENC stores the value of the message polynomial at every evaluation point. -/
def Obligations.RsencEvaluatesTheMessage : Prop :=
  ∀ (s : State) (c : Ctx) (ad am : AReg) (F : FieldCtx) (R : Codec) (msg : List Vec), Inv s →
    s.fc.get c = some F → s.rs.get c = some R → msg.length = R.k →
    (s.a.get am).toNat + R.k ≤ s.params.emDepth → (s.a.get ad).toNat + R.n ≤ s.params.emDepth →
    CellsHold s.emem (s.a.get am).toNat (tagged c msg) →
    ∃ mem', Stores s.emem mem' (s.a.get ad).toNat
        (tagged c (R.x.map (fun x => F.polyValue msg x))) ∧
      Succeeds (.rsenc c ad am) s { s with emem := mem' } 0

/-- 43_reed_solomon.md R169: in a field RSDEC stores the message near the received word if there is one, and
raises DecodingFailure if there is none. -/
def Obligations.RsdecReturnsTheNearMessage : Prop :=
  ∀ (s : State) (c : Ctx) (ad ar : AReg) (F : FieldCtx) (R : Codec) (r : List Vec), Inv s →
    s.fc.get c = some F → F.HasFieldRing → s.rs.get c = some R → r.length = R.n →
    (s.a.get ar).toNat + R.n ≤ s.params.emDepth → (s.a.get ad).toNat + R.k ≤ s.params.emDepth →
    CellsHold s.emem (s.a.get ar).toNat (tagged c r) →
    (∀ msg, F.Near R r msg → ∃ mem', Stores s.emem mem' (s.a.get ad).toNat (tagged c msg) ∧
      Succeeds (.rsdec c ad ar) s { s with emem := mem' } 0) ∧
    ((∀ msg, ¬ F.Near R r msg) → Fails (.rsdec c ad ar) s .decodingFailure)

/-- 43_reed_solomon.md R165, R168, `93_implementation_defined.md` U4: in every context, field or not, RSDEC
never returns a message whose encoding differs from the received word in more than `emax` positions. -/
def Obligations.RsdecNeverReturnsAFarMessage : Prop :=
  ∀ (s t : State) (c : Ctx) (ad ar : AReg) (F : FieldCtx) (R : Codec) (r : List Vec), Inv s →
    s.fc.get c = some F → s.rs.get c = some R → r.length = R.n →
    CellsHold s.emem (s.a.get ar).toNat (tagged c r) → exec (.rsdec c ad ar) s = .next t → t.status = 0 →
    ∃ msg, F.Near R r msg ∧ Stores s.emem t.emem (s.a.get ad).toNat (tagged c msg)

/-- 43_reed_solomon.md R163, R164, 60_exceptions.md R204: the tests that RSENC and RSDEC make before they
compute, in their order. -/
def Obligations.RsencAndRsdecTestInOrder : Prop :=
  ∀ (s : State) (c : Ctx) (a1 a2 : AReg),
    (s.rs.get c = none → Fails (.rsenc c a1 a2) s .uninitialised ∧ Fails (.rsdec c a1 a2) s .uninitialised) ∧
    ∀ R, s.rs.get c = some R → 1 ≤ R.k → 1 ≤ R.n →
      (s.params.emDepth < (s.a.get a2).toNat + R.k ∨ s.params.emDepth < (s.a.get a1).toNat + R.n →
        Fails (.rsenc c a1 a2) s .badAddress) ∧
      (s.params.emDepth < (s.a.get a2).toNat + R.n ∨ s.params.emDepth < (s.a.get a1).toNat + R.k →
        Fails (.rsdec c a1 a2) s .badAddress) ∧
      ((s.a.get a2).toNat + R.k ≤ s.params.emDepth → (s.a.get a1).toNat + R.n ≤ s.params.emDepth →
        (∃ i, i < R.k ∧ Memory.read s.emem ((s.a.get a2).toNat + i) = none) →
        Fails (.rsenc c a1 a2) s .uninitialised) ∧
      ((s.a.get a2).toNat + R.n ≤ s.params.emDepth → (s.a.get a1).toNat + R.k ≤ s.params.emDepth →
        (∃ i, i < R.n ∧ Memory.read s.emem ((s.a.get a2).toNat + i) = none) →
        Fails (.rsdec c a1 a2) s .uninitialised) ∧
      (∀ L : List Elem, L.length = R.k → (s.a.get a2).toNat + R.k ≤ s.params.emDepth →
        (s.a.get a1).toNat + R.n ≤ s.params.emDepth → CellsHold s.emem (s.a.get a2).toNat L →
        (∃ x ∈ L, x.ctx ≠ c) → Fails (.rsenc c a1 a2) s .fieldMismatch) ∧
      (∀ L : List Elem, L.length = R.n → (s.a.get a2).toNat + R.n ≤ s.params.emDepth →
        (s.a.get a1).toNat + R.k ≤ s.params.emDepth → CellsHold s.emem (s.a.get a2).toNat L →
        (∃ x ∈ L, x.ctx ≠ c) → Fails (.rsdec c a1 a2) s .fieldMismatch)

/-- 42_linear_algebra.md R153, 43_reed_solomon.md R160, 60_exceptions.md R204: the tests that PEVAL and RSCFG make
on the cells they read, in their order; RSCFG makes them after those of `n` and `k`. -/
def Obligations.PevalAndRscfgTestTheirCells : Prop :=
  ∀ (s : State) (base len : AReg) (n : Nat), n = (s.a.get len).toNat → 1 ≤ n →
    (∀ (ed es : EReg) (x : Elem), s.e.get es = some x →
      (s.params.emDepth < (s.a.get base).toNat + n → Fails (.peval ed es base len) s .badAddress) ∧
      ((s.a.get base).toNat + n ≤ s.params.emDepth →
        (∃ i, i < n ∧ Memory.read s.emem ((s.a.get base).toNat + i) = none) →
        Fails (.peval ed es base len) s .uninitialised) ∧
      (∀ L : List Elem, L.length = n → (s.a.get base).toNat + n ≤ s.params.emDepth →
        CellsHold s.emem (s.a.get base).toNat L → (∃ y ∈ L, y.ctx ≠ x.ctx) →
        Fails (.peval ed es base len) s .fieldMismatch)) ∧
    (∀ (c : Ctx) (ak : AReg) (F : FieldCtx), s.fc.get c = some F → 1 ≤ (s.a.get ak).toNat →
      (s.a.get ak).toNat < n → n ≤ F.q - 1 → n ≤ s.params.nMax →
      (s.params.emDepth < (s.a.get base).toNat + n → Fails (.rscfg c len ak base) s .badAddress) ∧
      ((s.a.get base).toNat + n ≤ s.params.emDepth →
        (∃ i, i < n ∧ Memory.read s.emem ((s.a.get base).toNat + i) = none) →
        Fails (.rscfg c len ak base) s .uninitialised) ∧
      (∀ L : List Elem, L.length = n → (s.a.get base).toNat + n ≤ s.params.emDepth →
        CellsHold s.emem (s.a.get base).toNat L → (∃ y ∈ L, y.ctx ≠ c) →
        Fails (.rscfg c len ak base) s .fieldMismatch))
end

