-- ==== Sys2Proof/Laws/Memory.lean ====
section
/-! SUPPORT. The laws of the element memory: read after write, ranges, FCFG's sweep, and that every operation
keeps the canonical form. -/

namespace Sys2Proof.Machine

@[simp] theorem read_nil (a : Nat) : Memory.read [] a = none := rfl

theorem read_cons (a b : Nat) (v : Elem) (m : Memory) :
    Memory.read ((a, v) :: m) b = if a = b then some v else Memory.read m b := rfl

theorem write_cons (a addr : Nat) (u v : Elem) (m : Memory) :
    Memory.write ((a, u) :: m) addr v =
      if addr < a then (addr, v) :: (a, u) :: m
      else if addr = a then (addr, v) :: m
      else (a, u) :: Memory.write m addr v := rfl

/-- Reading a cell after a write: the value written there, every other cell as before. -/
theorem read_write (m : Memory) (addr a : Nat) (v : Elem) :
    Memory.read (Memory.write m addr v) a = if addr = a then some v else Memory.read m a := by
  induction m with
  | nil => rfl
  | cons cell m ih =>
    obtain ⟨b, u⟩ := cell
    rw [write_cons]
    split
    · rw [read_cons]
    · split
      · rename_i h
        subst h
        simp only [read_cons]
        split <;> simp_all
      · simp only [read_cons, ih]
        split <;> split <;> simp_all

theorem read_write_same (m : Memory) (a : Nat) (v : Elem) : Memory.read (Memory.write m a v) a = some v := by
  simp [read_write]

theorem read_write_other (m : Memory) (addr a : Nat) (v : Elem) (h : addr ≠ a) :
    Memory.read (Memory.write m addr v) a = Memory.read m a := by
  simp [read_write, h]

/-- Reading a cell after a range was stored. -/
theorem stores_writeRange (L : List Elem) (m : Memory) (base : Nat) :
    Stores m (Memory.writeRange m base L) base L := by
  induction L generalizing m base with
  | nil =>
    intro a
    have h : ¬ (base ≤ a ∧ a < base + ([] : List Elem).length) := by simp
    rw [if_neg h, Memory.writeRange]
  | cons v L ih =>
    intro a
    simp only [Memory.writeRange, ih (Memory.write m base v) (base + 1) a, read_write, List.length_cons]
    by_cases h0 : base = a
    · subst h0; simp
    · by_cases h1 : base + 1 ≤ a ∧ a < base + 1 + L.length
      · have h2 : base ≤ a ∧ a < base + (L.length + 1) := by omega
        have h3 : a - base = (a - (base + 1)) + 1 := by omega
        rw [if_pos h1, if_pos h2, h3, List.getElem?_cons_succ]
      · have h2 : ¬ (base ≤ a ∧ a < base + (L.length + 1)) := by omega
        rw [if_neg h1, if_neg h2, if_neg h0]

/-- What `readRange` answers: the list the cells hold. -/
theorem readRange_of_cellsHold (L : List Elem) (m : Memory) (base : Nat) (h : CellsHold m base L) :
    Memory.readRange m base L.length = some L := by
  induction L generalizing base with
  | nil => rfl
  | cons v L ih =>
    have h0 : Memory.read m base = some v := by simpa using h 0 (by simp)
    have hL : CellsHold m (base + 1) L := by
      intro i hi
      have := h (i + 1) (by simpa using hi)
      simpa [Nat.add_assoc, Nat.add_comm 1 i] using this
    simp [Memory.readRange, h0, ih (base + 1) hL]

theorem cellsHold_of_readRange (n : Nat) (m : Memory) (base : Nat) (L : List Elem)
    (h : Memory.readRange m base n = some L) : L.length = n ∧ CellsHold m base L := by
  induction n generalizing base L with
  | zero =>
    simp only [Memory.readRange, Option.some.injEq] at h
    subst h
    exact ⟨rfl, fun i hi => by simp at hi⟩
  | succ n ih =>
    simp only [Memory.readRange] at h
    split at h
    · simp at h
    · rename_i v hv
      simp only [Option.map_eq_some_iff] at h
      obtain ⟨L', hL', rfl⟩ := h
      obtain ⟨hlen, hcells⟩ := ih (base + 1) L' hL'
      refine ⟨by simp [hlen], fun i hi => ?_⟩
      cases i with
      | zero => simpa using hv
      | succ i =>
        have := hcells i (by simpa using hi)
        simpa [Nat.add_assoc, Nat.add_comm 1 i] using this

theorem readRange_none_iff (n : Nat) (m : Memory) (base : Nat) :
    Memory.readRange m base n = none ↔ ∃ i, i < n ∧ Memory.read m (base + i) = none := by
  induction n generalizing base with
  | zero => simp [Memory.readRange]
  | succ n ih =>
    simp only [Memory.readRange]
    cases hv : Memory.read m base with
    | none => simp only [true_iff]; exact ⟨0, by omega, hv⟩
    | some v =>
      simp only [Option.map_eq_none_iff, ih]
      constructor
      · rintro ⟨i, hi, h⟩
        exact ⟨i + 1, by omega, by rw [← h]; congr 1; omega⟩
      · rintro ⟨i, hi, h⟩
        cases i with
        | zero => simp [hv] at h
        | succ i => exact ⟨i, by omega, by rw [← h]; congr 1; omega⟩

/-! ### The canonical form -/

/-- The canonical form as a statement about all pairs of cells. -/
theorem wf_iff_pairwise (m : Memory) :
    Memory.wf m = true ↔ m.Pairwise (fun x y => x.1 < y.1) := by
  show Memory.rising m = true ↔ _
  induction m with
  | nil => simp [Memory.rising]
  | cons cell m ih =>
    cases m with
    | nil => simp [Memory.rising]
    | cons cell' m =>
      obtain ⟨a, u⟩ := cell
      obtain ⟨b, v⟩ := cell'
      simp only [Memory.rising, Bool.and_eq_true, decide_eq_true_eq, ih]
      constructor
      · rintro ⟨hab, hp⟩
        refine List.pairwise_cons.2 ⟨fun x hx => ?_, hp⟩
        rcases List.mem_cons.1 hx with rfl | hx
        · exact hab
        · exact Nat.lt_trans hab ((List.pairwise_cons.1 hp).1 x hx)
      · intro hp
        have := List.pairwise_cons.1 hp
        exact ⟨this.1 (b, v) (by simp), this.2⟩

theorem mem_write (m : Memory) (addr : Nat) (v : Elem) (x : Nat × Elem) (h : x ∈ Memory.write m addr v) :
    x = (addr, v) ∨ x ∈ m := by
  induction m with
  | nil => simpa [Memory.write] using h
  | cons cell m ih =>
    obtain ⟨a, u⟩ := cell
    rw [write_cons] at h
    split at h
    · simpa using h
    · split at h
      · rcases List.mem_cons.1 h with h | h
        · exact .inl h
        · exact .inr (List.mem_cons_of_mem _ h)
      · rcases List.mem_cons.1 h with h | h
        · exact .inr (by simp [h])
        · rcases ih h with h | h
          · exact .inl h
          · exact .inr (List.mem_cons_of_mem _ h)

theorem write_keeps_wf (m : Memory) (addr : Nat) (v : Elem) (h : Memory.wf m = true) :
    Memory.wf (Memory.write m addr v) = true := by
  rw [wf_iff_pairwise] at h ⊢
  induction m with
  | nil => simp [Memory.write]
  | cons cell m ih =>
    obtain ⟨a, u⟩ := cell
    obtain ⟨hhead, htail⟩ := List.pairwise_cons.1 h
    rw [write_cons]
    split
    · rename_i hlt
      refine List.pairwise_cons.2 ⟨fun x hx => ?_, h⟩
      rcases List.mem_cons.1 hx with rfl | hx
      · exact hlt
      · exact Nat.lt_trans hlt (hhead x hx)
    · split
      · rename_i heq
        subst heq
        exact List.pairwise_cons.2 ⟨hhead, htail⟩
      · refine List.pairwise_cons.2 ⟨fun x hx => ?_, ih htail⟩
        rcases mem_write m addr v x hx with rfl | hx
        · show a < addr
          omega
        · exact hhead x hx

theorem writeRange_keeps_wf (L : List Elem) (m : Memory) (base : Nat) (h : Memory.wf m = true) :
    Memory.wf (Memory.writeRange m base L) = true := by
  induction L generalizing m base with
  | nil => exact h
  | cons v L ih => exact ih _ _ (write_keeps_wf m base v h)

theorem sweep_keeps_wf (m : Memory) (c : Ctx) (h : Memory.wf m = true) : Memory.wf (Memory.sweep m c) = true := by
  rw [wf_iff_pairwise] at h ⊢
  exact h.filter _

theorem read_none_of_lt (m : Memory) (a : Nat) (h : ∀ x ∈ m, a < x.1) : Memory.read m a = none := by
  induction m with
  | nil => rfl
  | cons cell m ih =>
    obtain ⟨b, v⟩ := cell
    have hb : a < b := h (b, v) (by simp)
    rw [read_cons, if_neg (by omega)]
    exact ih fun x hx => h x (List.mem_cons_of_mem _ hx)

/-- What FCFG leaves of a cell. -/
theorem read_sweep (m : Memory) (c : Ctx) (a : Nat) (h : Memory.wf m = true) :
    Memory.read (Memory.sweep m c) a = survives c (Memory.read m a) := by
  rw [wf_iff_pairwise] at h
  induction m with
  | nil => rfl
  | cons cell m ih =>
    obtain ⟨b, v⟩ := cell
    obtain ⟨hhead, htail⟩ := List.pairwise_cons.1 h
    have ih := ih htail
    simp only [Memory.sweep] at ih ⊢
    rw [List.filter_cons, read_cons]
    by_cases hb : b = a
    · subst hb
      have hn : Memory.read m b = none := read_none_of_lt m b fun x hx => hhead x hx
      by_cases hc : v.ctx = c
      · simp [hc, survives, ih, hn]
      · simp [hc, survives, read_cons]
    · by_cases hc : v.ctx = c
      · simp [hc, hb, ih]
      · simp [hc, hb, ih, read_cons]

theorem reset_memory_wf (P : Params) : Memory.wf (State.resetWith P).emem = true := rfl

end Sys2Proof.Machine
end

