-- ==== Sys2Proof/Laws/State.lean ====
section
/-! SUPPORT. One lemma per field of State for every named update, true by `rfl`, so that no proof unfolds a
record update; and what a register vector reads after a write. -/

namespace Sys2Proof.Machine

/-! ### `respond` -/

@[simp] theorem respond_params (s : State) (d : Nat) : (s.respond d).params = s.params := rfl
@[simp] theorem respond_e (s : State) (d : Nat) : (s.respond d).e = s.e := rfl
@[simp] theorem respond_a (s : State) (d : Nat) : (s.respond d).a = s.a := rfl
@[simp] theorem respond_cbuf (s : State) (d : Nat) : (s.respond d).cbuf = s.cbuf := rfl
@[simp] theorem respond_emem (s : State) (d : Nat) : (s.respond d).emem = s.emem := rfl
@[simp] theorem respond_fc (s : State) (d : Nat) : (s.respond d).fc = s.fc := rfl
@[simp] theorem respond_rs (s : State) (d : Nat) : (s.respond d).rs = s.rs := rfl
@[simp] theorem respond_status (s : State) (d : Nat) : (s.respond d).status = 0 := rfl
@[simp] theorem respond_esr (s : State) (d : Nat) : (s.respond d).esr = s.esr := rfl
@[simp] theorem respond_cmds (s : State) (d : Nat) : (s.respond d).cmds = s.cmds := rfl
@[simp] theorem respond_responses (s : State) (d : Nat) :
    (s.respond d).responses = ⟨0, BitVec.ofNat 32 d⟩ :: s.responses := rfl

/-! ### `raise` -/

@[simp] theorem raise_params (s : State) (x : Err) : (s.raise x).params = s.params := rfl
@[simp] theorem raise_e (s : State) (x : Err) : (s.raise x).e = s.e := rfl
@[simp] theorem raise_a (s : State) (x : Err) : (s.raise x).a = s.a := rfl
@[simp] theorem raise_cbuf (s : State) (x : Err) : (s.raise x).cbuf = s.cbuf := rfl
@[simp] theorem raise_emem (s : State) (x : Err) : (s.raise x).emem = s.emem := rfl
@[simp] theorem raise_fc (s : State) (x : Err) : (s.raise x).fc = s.fc := rfl
@[simp] theorem raise_rs (s : State) (x : Err) : (s.raise x).rs = s.rs := rfl
@[simp] theorem raise_status (s : State) (x : Err) : (s.raise x).status = x.statusByte := rfl
@[simp] theorem raise_esr (s : State) (x : Err) : (s.raise x).esr = x.stick s.esr := rfl
@[simp] theorem raise_cmds (s : State) (x : Err) : (s.raise x).cmds = s.cmds := rfl
@[simp] theorem raise_responses (s : State) (x : Err) :
    (s.raise x).responses = ⟨x.statusByte, 0⟩ :: s.responses := rfl

/-! ### `writeE` -/

@[simp] theorem writeE_params (s : State) (i : EReg) (v : Elem) : (writeE s i v).params = s.params := rfl
@[simp] theorem writeE_e (s : State) (i : EReg) (v : Elem) : (writeE s i v).e = s.e.set i.val (some v) := rfl
@[simp] theorem writeE_a (s : State) (i : EReg) (v : Elem) : (writeE s i v).a = s.a := rfl
@[simp] theorem writeE_cbuf (s : State) (i : EReg) (v : Elem) : (writeE s i v).cbuf = s.cbuf := rfl
@[simp] theorem writeE_emem (s : State) (i : EReg) (v : Elem) : (writeE s i v).emem = s.emem := rfl
@[simp] theorem writeE_fc (s : State) (i : EReg) (v : Elem) : (writeE s i v).fc = s.fc := rfl
@[simp] theorem writeE_rs (s : State) (i : EReg) (v : Elem) : (writeE s i v).rs = s.rs := rfl
@[simp] theorem writeE_status (s : State) (i : EReg) (v : Elem) : (writeE s i v).status = s.status := rfl
@[simp] theorem writeE_esr (s : State) (i : EReg) (v : Elem) : (writeE s i v).esr = s.esr := rfl
@[simp] theorem writeE_cmds (s : State) (i : EReg) (v : Elem) : (writeE s i v).cmds = s.cmds := rfl
@[simp] theorem writeE_responses (s : State) (i : EReg) (v : Elem) : (writeE s i v).responses = s.responses := rfl

/-! ### `writeA` -/

@[simp] theorem writeA_params (s : State) (i : AReg) (v : BitVec 20) : (writeA s i v).params = s.params := rfl
@[simp] theorem writeA_e (s : State) (i : AReg) (v : BitVec 20) : (writeA s i v).e = s.e := rfl
@[simp] theorem writeA_a (s : State) (i : AReg) (v : BitVec 20) : (writeA s i v).a = s.a.set i.val v := rfl
@[simp] theorem writeA_cbuf (s : State) (i : AReg) (v : BitVec 20) : (writeA s i v).cbuf = s.cbuf := rfl
@[simp] theorem writeA_emem (s : State) (i : AReg) (v : BitVec 20) : (writeA s i v).emem = s.emem := rfl
@[simp] theorem writeA_fc (s : State) (i : AReg) (v : BitVec 20) : (writeA s i v).fc = s.fc := rfl
@[simp] theorem writeA_rs (s : State) (i : AReg) (v : BitVec 20) : (writeA s i v).rs = s.rs := rfl
@[simp] theorem writeA_status (s : State) (i : AReg) (v : BitVec 20) : (writeA s i v).status = s.status := rfl
@[simp] theorem writeA_esr (s : State) (i : AReg) (v : BitVec 20) : (writeA s i v).esr = s.esr := rfl
@[simp] theorem writeA_cmds (s : State) (i : AReg) (v : BitVec 20) : (writeA s i v).cmds = s.cmds := rfl
@[simp] theorem writeA_responses (s : State) (i : AReg) (v : BitVec 20) :
    (writeA s i v).responses = s.responses := rfl

/-! ### `writeCodec` -/

@[simp] theorem writeCodec_params (s : State) (c : Ctx) (R : Codec) : (writeCodec s c R).params = s.params := rfl
@[simp] theorem writeCodec_e (s : State) (c : Ctx) (R : Codec) : (writeCodec s c R).e = s.e := rfl
@[simp] theorem writeCodec_a (s : State) (c : Ctx) (R : Codec) : (writeCodec s c R).a = s.a := rfl
@[simp] theorem writeCodec_cbuf (s : State) (c : Ctx) (R : Codec) : (writeCodec s c R).cbuf = s.cbuf := rfl
@[simp] theorem writeCodec_emem (s : State) (c : Ctx) (R : Codec) : (writeCodec s c R).emem = s.emem := rfl
@[simp] theorem writeCodec_fc (s : State) (c : Ctx) (R : Codec) : (writeCodec s c R).fc = s.fc := rfl
@[simp] theorem writeCodec_rs (s : State) (c : Ctx) (R : Codec) :
    (writeCodec s c R).rs = s.rs.set c.val (some R) := rfl
@[simp] theorem writeCodec_status (s : State) (c : Ctx) (R : Codec) : (writeCodec s c R).status = s.status := rfl
@[simp] theorem writeCodec_esr (s : State) (c : Ctx) (R : Codec) : (writeCodec s c R).esr = s.esr := rfl
@[simp] theorem writeCodec_cmds (s : State) (c : Ctx) (R : Codec) : (writeCodec s c R).cmds = s.cmds := rfl
@[simp] theorem writeCodec_responses (s : State) (c : Ctx) (R : Codec) :
    (writeCodec s c R).responses = s.responses := rfl

/-! ### `installField` -/

@[simp] theorem installField_params (s : State) (c : Ctx) (F : FieldCtx) :
    (installField s c F).params = s.params := rfl
@[simp] theorem installField_e (s : State) (c : Ctx) (F : FieldCtx) :
    (installField s c F).e = s.e.map (fun r => r.filter (fun v => v.ctx != c)) := rfl
@[simp] theorem installField_a (s : State) (c : Ctx) (F : FieldCtx) : (installField s c F).a = s.a := rfl
@[simp] theorem installField_cbuf (s : State) (c : Ctx) (F : FieldCtx) : (installField s c F).cbuf = [] := rfl
@[simp] theorem installField_emem (s : State) (c : Ctx) (F : FieldCtx) :
    (installField s c F).emem = Memory.sweep s.emem c := rfl
@[simp] theorem installField_fc (s : State) (c : Ctx) (F : FieldCtx) :
    (installField s c F).fc = s.fc.set c.val (some F) := rfl
@[simp] theorem installField_rs (s : State) (c : Ctx) (F : FieldCtx) :
    (installField s c F).rs = s.rs.set c.val none := rfl
@[simp] theorem installField_status (s : State) (c : Ctx) (F : FieldCtx) :
    (installField s c F).status = s.status := rfl
@[simp] theorem installField_esr (s : State) (c : Ctx) (F : FieldCtx) : (installField s c F).esr = s.esr := rfl
@[simp] theorem installField_cmds (s : State) (c : Ctx) (F : FieldCtx) : (installField s c F).cmds = s.cmds := rfl
@[simp] theorem installField_responses (s : State) (c : Ctx) (F : FieldCtx) :
    (installField s c F).responses = s.responses := rfl

/-! ### `present` -/

@[simp] theorem present_params (s : State) (w : Word) : (s.present w).params = s.params := rfl
@[simp] theorem present_e (s : State) (w : Word) : (s.present w).e = s.e := rfl
@[simp] theorem present_a (s : State) (w : Word) : (s.present w).a = s.a := rfl
@[simp] theorem present_cbuf (s : State) (w : Word) : (s.present w).cbuf = s.cbuf := rfl
@[simp] theorem present_emem (s : State) (w : Word) : (s.present w).emem = s.emem := rfl
@[simp] theorem present_fc (s : State) (w : Word) : (s.present w).fc = s.fc := rfl
@[simp] theorem present_rs (s : State) (w : Word) : (s.present w).rs = s.rs := rfl
@[simp] theorem present_status (s : State) (w : Word) : (s.present w).status = s.status := rfl
@[simp] theorem present_esr (s : State) (w : Word) : (s.present w).esr = s.esr := rfl
@[simp] theorem present_cmds (s : State) (w : Word) : (s.present w).cmds = w :: s.cmds := rfl
@[simp] theorem present_responses (s : State) (w : Word) : (s.present w).responses = s.responses := rfl

/-! ### `applyReset` -/

@[simp] theorem applyReset_params (s : State) : (s.applyReset).params = s.params := rfl
@[simp] theorem applyReset_e (s : State) : (s.applyReset).e = Vector.replicate 16 none := rfl
@[simp] theorem applyReset_a (s : State) : (s.applyReset).a = Vector.replicate 16 0 := rfl
@[simp] theorem applyReset_cbuf (s : State) : (s.applyReset).cbuf = [] := rfl
@[simp] theorem applyReset_emem (s : State) : (s.applyReset).emem = [] := rfl
@[simp] theorem applyReset_fc (s : State) : (s.applyReset).fc = Vector.replicate 4 none := rfl
@[simp] theorem applyReset_rs (s : State) : (s.applyReset).rs = Vector.replicate 4 none := rfl
@[simp] theorem applyReset_status (s : State) : (s.applyReset).status = 0 := rfl
@[simp] theorem applyReset_esr (s : State) : (s.applyReset).esr = 0 := rfl
@[simp] theorem applyReset_cmds (s : State) : (s.applyReset).cmds = [] := rfl
@[simp] theorem applyReset_responses (s : State) : (s.applyReset).responses = [] := rfl

/-! ### Register vectors -/

theorem get_set_same {α : Type} {n : Nat} (v : Vector α n) (i : Fin n) (x : α) :
    (v.set i.val x).get i = x := by
  simp [Vector.get_eq_getElem]

theorem get_set_other {α : Type} {n : Nat} (v : Vector α n) (i j : Fin n) (x : α) (h : j ≠ i) :
    (v.set i.val x).get j = v.get j := by
  have h' : i.val ≠ j.val := fun hij => h (Fin.ext hij.symm)
  simp [Vector.get_eq_getElem, h']

@[simp] theorem get_replicate {α : Type} {n : Nat} (x : α) (i : Fin n) : (Vector.replicate n x).get i = x := by
  simp [Vector.get_eq_getElem]

@[simp] theorem get_map {α β : Type} {n : Nat} (f : α → β) (v : Vector α n) (i : Fin n) :
    (v.map f).get i = f (v.get i) := by
  simp [Vector.get_eq_getElem]

end Sys2Proof.Machine
end

