-- ==== Sys2Proof/Laws/Complete.lean ====
section
/-! SUPPORT. What each shared operation answers, said once: the ends of a command, the operand reads, and the
inversion of `exec` (every command is `complete` of a result, so it answers a next state and either fails with
nothing changed or succeeds). -/

namespace Sys2Proof.Machine

/-! ### Chains of checks -/

@[simp] theorem except_bind_ok {α β : Type} (a : α) (f : α → Except Err β) : (Except.ok a >>= f) = f a := rfl

@[simp] theorem except_bind_error {α β : Type} (x : Err) (f : α → Except Err β) :
    ((Except.error x : Except Err α) >>= f) = .error x := rfl

@[simp] theorem except_pure {α : Type} (a : α) : (pure a : Except Err α) = .ok a := rfl

@[simp] theorem except_throw {α : Type} (x : Err) : (throw x : Except Err α) = .error x := rfl

theorem except_bind_eq_ok {α β : Type} (r : Except Err α) (f : α → Except Err β) (b : β) :
    (r >>= f) = .ok b ↔ ∃ a, r = .ok a ∧ f a = .ok b := by
  cases r <;> simp

theorem except_bind_eq_error {α β : Type} (r : Except Err α) (f : α → Except Err β) (x : Err) :
    (r >>= f) = .error x ↔ r = .error x ∨ ∃ a, r = .ok a ∧ f a = .error x := by
  cases r <;> simp

@[simp] theorem require_true (x : Err) : require true x = .ok () := rfl

@[simp] theorem require_false (x : Err) : require false x = .error x := rfl

theorem require_eq_ok (b : Bool) (x : Err) (u : Unit) : require b x = .ok u ↔ b = true := by
  cases b <;> simp

theorem require_eq_error (b : Bool) (x y : Err) : require b x = .error y ↔ b = false ∧ x = y := by
  cases b <;> simp

@[simp] theorem held_some {α : Type} (v : α) : held (some v) = .ok v := rfl

@[simp] theorem held_none {α : Type} : held (none : Option α) = .error .uninitialised := rfl

theorem held_eq_ok {α : Type} (o : Option α) (v : α) : held o = .ok v ↔ o = some v := by
  cases o <;> simp

theorem held_eq_error {α : Type} (o : Option α) (x : Err) :
    held o = .error x ↔ o = none ∧ x = .uninitialised := by
  cases o <;> simp [eq_comm]

/-! ### Operand reads -/

theorem readE_eq_ok (s : State) (i : EReg) (v : Elem) : readE s i = .ok v ↔ s.e.get i = some v := held_eq_ok _ _

theorem fieldOf_eq_ok (s : State) (c : Ctx) (F : FieldCtx) : fieldOf s c = .ok F ↔ s.fc.get c = some F :=
  held_eq_ok _ _

theorem codecOf_eq_ok (s : State) (c : Ctx) (R : Codec) : codecOf s c = .ok R ↔ s.rs.get c = some R :=
  held_eq_ok _ _

theorem checkRange_eq_ok (s : State) (addr n : Nat) :
    checkRange s addr n = .ok () ↔ n = 0 ∨ addr + n ≤ s.params.emDepth := by
  simp [checkRange, require_eq_ok]

theorem checkRange_eq_error (s : State) (addr n : Nat) (x : Err) :
    checkRange s addr n = .error x ↔ (n ≠ 0 ∧ s.params.emDepth < addr + n) ∧ x = .badAddress := by
  rw [checkRange, require_eq_error, eq_comm (a := Err.badAddress)]
  simp

/-- A range read answers the list exactly when the range is inside EMEM and its cells hold it. -/
theorem memRead_eq_ok (s : State) (addr n : Nat) (L : List Elem) :
    memRead s addr n = .ok L ↔
      (n = 0 ∨ addr + n ≤ s.params.emDepth) ∧ L.length = n ∧ CellsHold s.emem addr L := by
  simp only [memRead, except_bind_eq_ok, held_eq_ok]
  constructor
  · rintro ⟨u, hu, hL⟩
    exact ⟨(checkRange_eq_ok s addr n).1 hu, cellsHold_of_readRange n s.emem addr L hL⟩
  · rintro ⟨hr, rfl, hc⟩
    exact ⟨(), (checkRange_eq_ok s addr _).2 hr, readRange_of_cellsHold L s.emem addr hc⟩

theorem memWrite_eq_ok (s t : State) (addr : Nat) (L : List Elem) :
    memWrite s addr L = .ok t ↔
      (L.length = 0 ∨ addr + L.length ≤ s.params.emDepth) ∧
        t = { s with emem := Memory.writeRange s.emem addr L } := by
  simp only [memWrite, except_bind_eq_ok]
  constructor
  · rintro ⟨u, hu, ht⟩
    exact ⟨(checkRange_eq_ok s addr _).1 hu, by simpa [eq_comm] using ht⟩
  · rintro ⟨hr, rfl⟩
    exact ⟨(), (checkRange_eq_ok s addr _).2 hr, rfl⟩

theorem sameCtx_eq_ok (L : List Elem) (c : Ctx) : sameCtx L c = .ok () ↔ ∀ v ∈ L, v.ctx = c := by
  simp [sameCtx, require_eq_ok]

/-- Two operands of one field (41_element.md R129). -/
theorem pair_eq_ok (s : State) (i j : EReg) (P : Operands) :
    pair s i j = .ok P ↔
      s.e.get i = some ⟨P.ctx, P.u⟩ ∧ s.e.get j = some ⟨P.ctx, P.v⟩ ∧ s.fc.get P.ctx = some P.field := by
  simp only [pair, except_bind_eq_ok, readE_eq_ok, fieldOf_eq_ok, require_eq_ok, except_pure]
  constructor
  · rintro ⟨x, hx, y, hy, -, hxy, F, hF, h⟩
    simp only [Except.ok.injEq] at h
    subst h
    have hc : x.ctx = y.ctx := by simpa using hxy
    exact ⟨hx, by rw [hy, hc], hF⟩
  · rintro ⟨hx, hy, hF⟩
    exact ⟨_, hx, _, hy, (), by simp, _, hF, rfl⟩

/-- A register and a promoted integer (41_element.md R129). -/
theorem withInt_eq_ok (s : State) (i : EReg) (v : Int) (P : Operands) :
    withInt s i v = .ok P ↔
      s.e.get i = some ⟨P.ctx, P.u⟩ ∧ s.fc.get P.ctx = some P.field ∧ P.v = P.field.promote v := by
  simp only [withInt, except_bind_eq_ok, readE_eq_ok, fieldOf_eq_ok, except_pure]
  constructor
  · rintro ⟨x, hx, F, hF, h⟩
    simp only [Except.ok.injEq] at h
    subst h
    exact ⟨hx, hF, rfl⟩
  · rintro ⟨hx, hF, hv⟩
    exact ⟨_, hx, _, hF, by rw [← hv]⟩

/-! ### The end of a command -/

@[simp] theorem complete_ok (s t : State) (d : Nat) : complete s (.ok (t, d)) = .next (t.respond d) := rfl

@[simp] theorem complete_error (s : State) (x : Err) : complete s (.error x) = .next (s.raise x) := rfl

theorem twoPow_eq_shift (n : Nat) : BitVec.twoPow 16 n = 1#16 <<< n := rfl

/-- `Fails` is the shared error entry. -/
theorem fails_iff (i : Instr) (s : State) (x : Err) : Fails i s x ↔ exec i s = .next (s.raise x) := Iff.rfl

/-- `Succeeds` is the shared success entry, when the command's writes leave the response port alone. -/
theorem succeeds_of_respond (i : Instr) (s t : State) (d : Nat) (ht : t.responses = s.responses)
    (h : exec i s = .next (t.respond d)) : Succeeds i s t d := by
  rw [Succeeds, h, State.respond, ht]

theorem code_ne_zero (x : Err) : x.statusByte ≠ 0 := by cases x <;> decide

theorem code_le_twelve (x : Err) : 1 ≤ x.code ∧ x.code ≤ 12 := by cases x <;> decide

/-- The codes determine the errors. -/
theorem statusByte_injective (x y : Err) (h : x.statusByte = y.statusByte) : x = y := by
  cases x <;> cases y <;> first | rfl | exact absurd h (by decide)

/-- The common end of the element commands answers `complete` of the chain. -/
theorem storeResult_eq (s : State) (ed : EReg) (P : Operands) (ops : Except Err Operands)
    (f : FieldCtx → Vec → Vec → Except Err Vec) (hP : ops = .ok P) :
    storeResult s ed ops f =
      complete s ((f P.field P.u P.v).map (fun r => (writeE s ed ⟨P.ctx, r⟩, 0))) := by
  subst hP
  show complete s (f P.field P.u P.v >>= fun r => pure (writeE s ed ⟨P.ctx, r⟩, 0)) = _
  cases f P.field P.u P.v <;> rfl

/-- Every command is the end of some result: it answers a next state, and nothing else decides how. -/
theorem exec_is_complete (i : Instr) (s : State) : ∃ r, exec i s = complete s r := by
  cases i
  case nop => exact ⟨.ok (s, 0), rfl⟩
  case seta ad imm => exact ⟨.ok (writeA s ad (BitVec.ofNat 20 imm), 0), rfl⟩
  case clre => exact ⟨.ok ({ s with esr := 0 }, 0), rfl⟩
  case cclr => exact ⟨.ok ({ s with cbuf := [] }, 0), rfl⟩
  all_goals exact ⟨_, rfl⟩

end Sys2Proof.Machine
end

