-- ==== Sys2Proof/Laws/Encoding.lean ====
section
/-! SUPPORT. What each field of a packed word is: the encoder's words read back field by field. -/

namespace Sys2Proof

theorem field_toNat (w : Word) (lo len : Nat) : (w.field lo len).toNat = w.toNat / 2 ^ lo % 2 ^ len := by
  simp [Word.field, BitVec.extractLsb'_toNat, Nat.shiftRight_eq_div_pow]

theorem packN_toNat (op : Nat) (a b c d : Fin 16) (x : Ctx) (h : op < 256) :
    (packN op a b c d x).toNat =
      op * 2 ^ 24 + a.val * 2 ^ 20 + b.val * 2 ^ 16 + c.val * 2 ^ 12 + d.val * 2 ^ 8 + x.val := by
  rw [packN, BitVec.toNat_ofNat]
  omega

theorem packI_toNat (op : Nat) (a : Fin 16) (b : Nat) (imm : BitVec 16) (h : op < 256) (hb : b < 16) :
    (packI op a b imm).toNat = op * 2 ^ 24 + a.val * 2 ^ 20 + b * 2 ^ 16 + imm.toNat := by
  rw [packI, BitVec.toNat_ofNat]
  omega

theorem packL_toNat (op : Nat) (a : Fin 16) (imm : BitVec 20) (h : op < 256) :
    (packL op a imm).toNat = op * 2 ^ 24 + a.val * 2 ^ 20 + imm.toNat := by
  rw [packL, BitVec.toNat_ofNat]
  omega

theorem opcodeOf_packN (op : Nat) (a b c d : Fin 16) (x : Ctx) (h : op < 256) :
    opcodeOf (packN op a b c d x) = op := by
  rw [opcodeOf, field_toNat, packN_toNat op a b c d x h]
  omega

theorem opcodeOf_packI (op : Nat) (a : Fin 16) (b : Nat) (imm : BitVec 16) (h : op < 256) (hb : b < 16) :
    opcodeOf (packI op a b imm) = op := by
  rw [opcodeOf, field_toNat, packI_toNat op a b imm h hb]
  omega

theorem opcodeOf_packL (op : Nat) (a : Fin 16) (imm : BitVec 20) (h : op < 256) :
    opcodeOf (packL op a imm) = op := by
  rw [opcodeOf, field_toNat, packL_toNat op a imm h]
  omega

end Sys2Proof
end

