-- ==== Sys2Proof/Laws/Lengths.lean ====
section
/-! SUPPORT. How many values each computed list has, in every context: what GSOLVE, RSENC and RSDEC store. -/

namespace Sys2Proof.Machine

@[simp] theorem tagged_length (c : Ctx) (us : List Vec) : (tagged c us).length = us.length := by simp [tagged]

@[simp] theorem backSubstitute_length (F : FieldCtx) (n : Nat) (M : List (List Vec)) (count : Nat) :
    (F.backSubstitute n M count).length = count := by
  induction count with
  | zero => rfl
  | succ count ih => simp [FieldCtx.backSubstitute, ih]

theorem solve_length (F : FieldCtx) (n : Nat) (MA Mb xs : List Vec) (h : F.solve n MA Mb = some xs) :
    xs.length = n := by
  obtain ⟨M, -, rfl⟩ := Option.map_eq_some_iff.1 h
  exact backSubstitute_length F n M n

@[simp] theorem rsEncode_length (F : FieldCtx) (R : Codec) (msg : List Vec) : (F.rsEncode R msg).length = R.n := by
  simp [FieldCtx.rsEncode]

theorem bwCandidate_length (F : FieldCtx) (R : Codec) (r : List Vec) (e : Nat) (xs msg : List Vec)
    (h : F.bwCandidate R r e xs = .ok msg) : msg.length = R.k := by
  simp only [FieldCtx.bwCandidate, except_bind_eq_ok, except_pure, Except.ok.injEq] at h
  obtain ⟨-, -, -, -, -, -, rfl⟩ := h
  simp only [List.length_append, List.length_take, List.length_replicate]
  omega

theorem bwTrials_length (F : FieldCtx) (R : Codec) (r msg : List Vec) (e : Nat)
    (h : F.bwTrials R r e = .ok msg) : msg.length = R.k := by
  induction e with
  | zero =>
    rw [FieldCtx.bwTrials] at h
    split at h
    · exact bwCandidate_length F R r _ _ msg h
    · cases h
  | succ e ih =>
    rw [FieldCtx.bwTrials] at h
    split at h
    · exact bwCandidate_length F R r _ _ msg h
    · exact ih h

/-- A message that the decoder returns has `k` coefficients (43_reed_solomon.md R165). -/
theorem bwDecode_length (F : FieldCtx) (R : Codec) (r msg : List Vec) (h : F.bwDecode R r = .ok msg) :
    msg.length = R.k := bwTrials_length F R r msg R.emax h

/-- A range write leaves every cell outside the range as it was. -/
theorem memWrite_frame (s t : State) (addr a : Nat) (L : List Elem) (h : memWrite s addr L = .ok t)
    (ha : ¬ (addr ≤ a ∧ a < addr + L.length)) : Memory.read t.emem a = Memory.read s.emem a := by
  obtain ⟨-, rfl⟩ := (memWrite_eq_ok s t addr L).1 h
  exact (stores_writeRange L s.emem addr a).trans (if_neg ha)

end Sys2Proof.Machine
end

