-- ==== Sys2Proof/Laws/PerInstr.lean ====
section
/-! SUPPORT. One fact per command, by name: the word of a command carries that command's opcode
(30_encoding.md R70, R76). -/

namespace Sys2Proof.Laws.OpcodeField

/-- The opcode of each command (30_encoding.md R76). -/
def opcode : Instr → Nat
  | .nop => 0x00
  | .seta _ _ => 0x01
  | .csrr _ => 0x02
  | .clre => 0x03
  | .cclr => 0x08
  | .cpush _ => 0x09
  | .emk _ _ => 0x0A
  | .emki _ _ _ => 0x0B
  | .erdc _ _ => 0x0C
  | .emov _ _ => 0x0D
  | .eld _ _ _ => 0x0E
  | .est _ _ _ => 0x0F
  | .fcfg _ _ _ _ => 0x10
  | .logrd _ => 0x11
  | .alogrd _ _ _ => 0x12
  | .fadd _ _ _ => 0x20
  | .fsub _ _ _ => 0x21
  | .fneg _ _ => 0x22
  | .fmul _ _ _ => 0x23
  | .fdiv _ _ _ => 0x24
  | .pmulg _ _ _ => 0x25
  | .feq _ _ => 0x26
  | .faddi _ _ _ => 0x28
  | .fsubi _ _ _ => 0x29
  | .frsubi _ _ _ => 0x2A
  | .fmuli _ _ _ => 0x2B
  | .fdivi _ _ _ => 0x2C
  | .frdivi _ _ _ => 0x2D
  | .gsolve _ _ _ _ => 0x30
  | .peval _ _ _ _ => 0x31
  | .rscfg _ _ _ _ => 0x38
  | .rscfga _ _ _ => 0x39
  | .rsenc _ _ _ => 0x3A
  | .rsdec _ _ _ => 0x3B
  | .rspt _ _ _ => 0x3C

/-- Bits 31:24 of the command's word are its opcode. -/
def Statement (i : Instr) : Prop := opcodeOf (encode i) = opcode i

theorem nop : Statement .nop := opcodeOf_packN _ _ _ _ _ _ (by decide)

theorem seta (ad : AReg) (imm : Nat) : Statement (.seta ad imm) := opcodeOf_packL _ _ _ (by decide)

theorem csrr (csr : Nat) : Statement (.csrr csr) := opcodeOf_packI _ _ _ _ (by decide) (by decide)

theorem clre : Statement .clre := opcodeOf_packN _ _ _ _ _ _ (by decide)

theorem cclr : Statement .cclr := opcodeOf_packN _ _ _ _ _ _ (by decide)

theorem cpush (v : Int) : Statement (.cpush v) := opcodeOf_packI _ _ _ _ (by decide) (by decide)

theorem emk (ed : EReg) (c : Ctx) : Statement (.emk ed c) := opcodeOf_packN _ _ _ _ _ _ (by decide)

theorem emki (ed : EReg) (c : Ctx) (v : Int) : Statement (.emki ed c v) :=
  opcodeOf_packI _ _ _ _ (by decide) (by omega)

theorem erdc (es : EReg) (index : Nat) : Statement (.erdc es index) :=
  opcodeOf_packI _ _ _ _ (by decide) (by decide)

theorem emov (ed : EReg) (es : EReg) : Statement (.emov ed es) := opcodeOf_packN _ _ _ _ _ _ (by decide)

theorem eld (ed : EReg) (offset : Nat) (ab : AReg) : Statement (.eld ed offset ab) :=
  opcodeOf_packI _ _ _ _ (by decide) (Fin.isLt _)

theorem est (es : EReg) (offset : Nat) (ab : AReg) : Statement (.est es offset ab) :=
  opcodeOf_packI _ _ _ _ (by decide) (Fin.isLt _)

theorem fcfg (c : Ctx) (ap : AReg) (m : Nat) (fp : Bool) : Statement (.fcfg c ap m fp) :=
  opcodeOf_packI _ _ _ _ (by decide) (by cases fp <;> simp <;> omega)

theorem logrd (es : EReg) : Statement (.logrd es) := opcodeOf_packN _ _ _ _ _ _ (by decide)

theorem alogrd (ed : EReg) (c : Ctx) (ai : AReg) : Statement (.alogrd ed c ai) :=
  opcodeOf_packN _ _ _ _ _ _ (by decide)

theorem fadd (ed : EReg) (es1 : EReg) (es2 : EReg) : Statement (.fadd ed es1 es2) :=
  opcodeOf_packN _ _ _ _ _ _ (by decide)

theorem fsub (ed : EReg) (es1 : EReg) (es2 : EReg) : Statement (.fsub ed es1 es2) :=
  opcodeOf_packN _ _ _ _ _ _ (by decide)

theorem fneg (ed : EReg) (es1 : EReg) : Statement (.fneg ed es1) := opcodeOf_packN _ _ _ _ _ _ (by decide)

theorem fmul (ed : EReg) (es1 : EReg) (es2 : EReg) : Statement (.fmul ed es1 es2) :=
  opcodeOf_packN _ _ _ _ _ _ (by decide)

theorem fdiv (ed : EReg) (es1 : EReg) (es2 : EReg) : Statement (.fdiv ed es1 es2) :=
  opcodeOf_packN _ _ _ _ _ _ (by decide)

theorem pmulg (ed : EReg) (es1 : EReg) (es2 : EReg) : Statement (.pmulg ed es1 es2) :=
  opcodeOf_packN _ _ _ _ _ _ (by decide)

theorem feq (es1 : EReg) (es2 : EReg) : Statement (.feq es1 es2) := opcodeOf_packN _ _ _ _ _ _ (by decide)

theorem faddi (ed : EReg) (es1 : EReg) (v : Int) : Statement (.faddi ed es1 v) :=
  opcodeOf_packI _ _ _ _ (by decide) (Fin.isLt _)

theorem fsubi (ed : EReg) (es1 : EReg) (v : Int) : Statement (.fsubi ed es1 v) :=
  opcodeOf_packI _ _ _ _ (by decide) (Fin.isLt _)

theorem frsubi (ed : EReg) (es1 : EReg) (v : Int) : Statement (.frsubi ed es1 v) :=
  opcodeOf_packI _ _ _ _ (by decide) (Fin.isLt _)

theorem fmuli (ed : EReg) (es1 : EReg) (v : Int) : Statement (.fmuli ed es1 v) :=
  opcodeOf_packI _ _ _ _ (by decide) (Fin.isLt _)

theorem fdivi (ed : EReg) (es1 : EReg) (v : Int) : Statement (.fdivi ed es1 v) :=
  opcodeOf_packI _ _ _ _ (by decide) (Fin.isLt _)

theorem frdivi (ed : EReg) (es1 : EReg) (v : Int) : Statement (.frdivi ed es1 v) :=
  opcodeOf_packI _ _ _ _ (by decide) (Fin.isLt _)

theorem gsolve (ax : AReg) (aA : AReg) (ab : AReg) (an : AReg) : Statement (.gsolve ax aA ab an) :=
  opcodeOf_packN _ _ _ _ _ _ (by decide)

theorem peval (ed : EReg) (es : EReg) (ac : AReg) (al : AReg) : Statement (.peval ed es ac al) :=
  opcodeOf_packN _ _ _ _ _ _ (by decide)

theorem rscfg (c : Ctx) (an : AReg) (ak : AReg) (ax : AReg) : Statement (.rscfg c an ak ax) :=
  opcodeOf_packN _ _ _ _ _ _ (by decide)

theorem rscfga (c : Ctx) (an : AReg) (ak : AReg) : Statement (.rscfga c an ak) :=
  opcodeOf_packN _ _ _ _ _ _ (by decide)

theorem rsenc (c : Ctx) (ad : AReg) (am : AReg) : Statement (.rsenc c ad am) :=
  opcodeOf_packN _ _ _ _ _ _ (by decide)

theorem rsdec (c : Ctx) (ad : AReg) (ar : AReg) : Statement (.rsdec c ad ar) :=
  opcodeOf_packN _ _ _ _ _ _ (by decide)

theorem rspt (ed : EReg) (c : Ctx) (ai : AReg) : Statement (.rspt ed c ai) :=
  opcodeOf_packN _ _ _ _ _ _ (by decide)

end Sys2Proof.Laws.OpcodeField
end

