-- ==== Sys2Proof/Tests/Slice0.lean ====
section
/-! SUPPORT. Tests, with expected values from `95_test_vectors.md` and from the rules' own words, and one witness
for the hypotheses of every statement in Obligations.lean. -/

namespace Sys2Proof.Tests

open Sys2Proof.Machine

/-! ### Well-formedness: one ill-formed term per check is refused, the boundary values are not -/

theorem test_wf_imm20 : (Instr.seta 0 1048576).wf = false ∧ (Instr.seta 0 1048575).wf = true := by decide

theorem test_wf_imm16 : (Instr.csrr 65536).wf = false ∧ (Instr.erdc 0 65536).wf = false ∧
    (Instr.eld 0 65536 0).wf = false ∧ (Instr.est 0 65536 0).wf = false ∧
    (Instr.fcfg 0 0 65536 true).wf = false ∧ (Instr.csrr 65535).wf = true ∧
    (Instr.erdc 0 65535).wf = true ∧ (Instr.eld 0 65535 0).wf = true ∧ (Instr.est 0 65535 0).wf = true ∧
    (Instr.fcfg 0 0 65535 true).wf = true := by decide

theorem test_wf_simm16_low : (Instr.cpush (-32769)).wf = false ∧ (Instr.emki 0 0 (-32769)).wf = false ∧
    (Instr.faddi 0 0 (-32769)).wf = false ∧ (Instr.fsubi 0 0 (-32769)).wf = false ∧
    (Instr.frsubi 0 0 (-32769)).wf = false ∧ (Instr.fmuli 0 0 (-32769)).wf = false ∧
    (Instr.fdivi 0 0 (-32769)).wf = false ∧ (Instr.frdivi 0 0 (-32769)).wf = false ∧
    (Instr.cpush (-32768)).wf = true ∧ (Instr.frdivi 0 0 (-32768)).wf = true := by decide

theorem test_wf_simm16_high : (Instr.cpush 32768).wf = false ∧ (Instr.emki 0 0 32768).wf = false ∧
    (Instr.faddi 0 0 32768).wf = false ∧ (Instr.fsubi 0 0 32768).wf = false ∧
    (Instr.frsubi 0 0 32768).wf = false ∧ (Instr.fmuli 0 0 32768).wf = false ∧
    (Instr.fdivi 0 0 32768).wf = false ∧ (Instr.frdivi 0 0 32768).wf = false ∧
    (Instr.cpush 32767).wf = true ∧ (Instr.emki 0 0 32767).wf = true := by decide

/-! ### Decoding: a word of every row, written from R71 to R76 (most of them stand in 95_test_vectors.md) -/

/-- What the decoder reads from a word, `none` for an illegal one. -/
def read (w : Word) : Option Instr := (decode w).toOption

theorem test_decode_system : read 0x00000000 = some .nop ∧ read 0x01310000 = some (.seta 3 65536) ∧
    read 0x013FFFFF = some (.seta 3 1048575) ∧ read 0x02000102 = some (.csrr 0x0102) ∧
    read 0x03000000 = some .clre := by decide

theorem test_decode_buffer : read 0x08000000 = some .cclr ∧ read 0x0900FFFE = some (.cpush (-2)) ∧
    read 0x0AF00003 = some (.emk 15 3) ∧ read 0x0B01FFFF = some (.emki 0 1 (-1)) ∧
    read 0x0B008000 = some (.emki 0 0 (-32768)) ∧ read 0x0B51000A = some (.emki 5 1 10) := by decide

theorem test_decode_moves : read 0x0C500002 = some (.erdc 5 2) ∧ read 0x0D300000 = some (.emov 3 0) ∧
    read 0x0E46FFFE = some (.eld 4 65534 6) ∧ read 0x0F120001 = some (.est 1 1 2) := by decide

theorem test_decode_field : read 0x10050002 = some (.fcfg 1 0 2 true) ∧
    read 0x10F70008 = some (.fcfg 3 15 8 true) ∧ read 0x10100001 = some (.fcfg 0 1 1 false) ∧
    read 0x11020000 = some (.logrd 2) ∧ read 0x12410001 = some (.alogrd 4 1 1) := by decide

theorem test_decode_element : read 0x20201000 = some (.fadd 2 0 1) ∧ read 0x21210000 = some (.fsub 2 1 0) ∧
    read 0x22200000 = some (.fneg 2 0) ∧ read 0x23651000 = some (.fmul 6 5 1) ∧
    read 0x24321000 = some (.fdiv 3 2 1) ∧ read 0x25401000 = some (.pmulg 4 0 1) ∧
    read 0x26042000 = some (.feq 4 2) := by decide

theorem test_decode_immediate : read 0x28107FFF = some (.faddi 1 0 32767) ∧
    read 0x2910FFFD = some (.fsubi 1 0 (-3)) ∧ read 0x2A100004 = some (.frsubi 1 0 4) ∧
    read 0x2B20FFFF = some (.fmuli 2 0 (-1)) ∧ read 0x2C10FFFB = some (.fdivi 1 0 (-5)) ∧
    read 0x2D510001 = some (Instr.finv 5 1) := by decide

theorem test_decode_algebra_and_codec : read 0x30312400 = some (.gsolve 3 1 2 4) ∧
    read 0x31541200 = some (.peval 5 4 1 2) ∧ read 0x38012000 = some (.rscfg 0 0 1 2) ∧
    read 0x39340000 = some (.rscfga 0 3 4) ∧ read 0x3A540000 = some (.rsenc 0 5 4) ∧
    read 0x3B450002 = some (.rsdec 2 4 5) ∧ read 0x3C4A0001 = some (.rspt 4 1 10) := by decide

/-- The illegal words of 95_test_vectors.md 2.1. -/
theorem test_decode_illegal : read 0x00000001 = none ∧ read 0x03000001 = none ∧ read 0x04000000 = none ∧
    read 0x13000000 = none ∧ read 0x27000000 = none ∧ read 0x3D000000 = none ∧ read 0xFFFFFFFF = none ∧
    read 0x20201004 = none ∧ read 0x20201100 = none ∧ read 0x10080001 = none ∧ read 0x0B040000 = none ∧
    read 0x02010000 = none ∧ read 0x26100000 = none ∧ read 0x0A010000 = none := by decide

/-- The two entry points of the host: a word is decoded and stepped as the first command after reset. -/
theorem test_fetch_word : decodeTableWord 32 0x01310000 = some (.seta 3 65536) ∧
    (match step (State.reset.withFetchWord 32 0x01310000) with
      | .next t => t.a.get 3 == 65536 && t.cmds == [] && t.responses == [⟨0, 0⟩]
      | .fault _ => false
      | .refused _ => false) = true := by decide

/-- The written form of a command and its aliases (R80 to R82). -/
theorem test_asm : (Instr.fcfg 1 0 2 true).toAsm = "FCFG c1, a0, 2, 1" ∧
    (Instr.eld 5 1 2).toAsm = "ELD e5, 1(a2)" ∧ (Instr.finv 5 1).toAsm = "FRDIVI e5, e1, 1" ∧
    (Instr.emki 0 1 (-1)).toAsm = "EMKI e0, c1, -1" := by decide

/-! ### A small state

`c0` is GF(5) with its tables (95_test_vectors.md 2.3), `c1` is GF(49) without tables, `c2` is GF(11) without
tables, `c3` is not constructed; codecs in `c0` (`n = 3`, `k = 1`) and `c2` (`n = 5`, `k = 2`). -/

/-- GF(5) and the tables of 95_test_vectors.md 2.3. -/
def tables5 : Tables :=
  { prim := [2], log := [none, some 0, some 1, some 3, some 2], alog := [[1], [2], [4], [3]] }

def gf5 : FieldCtx := { p := 5, m := 1, q := 5, g := [0, 1], tables := some tables5 }

def gf49 : FieldCtx := { p := 7, m := 2, q := 49, g := [1, 0, 1], tables := none }

def gf11 : FieldCtx := { p := 11, m := 1, q := 11, g := [0, 1], tables := none }

def codec5 : Codec := { n := 3, k := 1, emax := 1, x := [[1], [2], [3]] }

def codec11 : Codec := { n := 5, k := 2, emax := 1, x := [[1], [2], [3], [4], [5]] }

/-- A list of one-coefficient values of context `c` in consecutive cells. -/
def cellsOf (c : Ctx) (base : Nat) (us : List Nat) : Memory :=
  us.mapIdx (fun i u => (base + i, ⟨c, [u]⟩))

def demoCells : Memory :=
  cellsOf 0 0 [1, 0, 0, 1] ++ cellsOf 0 16 [3, 4] ++ cellsOf 0 32 [2, 2, 2] ++ cellsOf 0 40 [1, 2, 3] ++
    cellsOf 2 64 [2, 3] ++ cellsOf 2 80 [5, 9, 0, 3, 6] ++ cellsOf 0 100 [0]

def demo : State :=
  { State.reset with
    e := #v[some ⟨0, [2]⟩, some ⟨0, [4]⟩, some ⟨0, [0]⟩, some ⟨1, [1, 3]⟩, some ⟨1, [3, 4]⟩,
      some ⟨1, [0, 0]⟩, some ⟨2, [4]⟩, none, none, none, none, none, none, none, none, none]
    a := #v[5, 0, 16, 200, 2, 64, 80, 1, 3, 40, 32, 65535, 65536, 256, 100, 10]
    emem := demoCells
    fc := #v[some gf5, some gf49, some gf11, none]
    rs := #v[some codec5, none, some codec11, none] }

/-- `s` with a staged sequence. -/
def staged (s : State) (cb : List (BitVec 16)) : State := { s with cbuf := cb }

/-- `s` with the argument register `r` holding `v`. -/
def withA (s : State) (r : AReg) (v : BitVec 20) : State := writeA s r v

/-- The state after a command (every command answers a next state, `exec_next`). -/
def after (i : Instr) (s : State) : State :=
  match exec i s with
  | .next t => t
  | .fault _ => s
  | .refused _ => s

/-- The code and the data of the response. -/
def answer (i : Instr) (s : State) : Nat × Nat :=
  match (after i s).responses with
  | r :: _ => (r.code.toNat, r.data.toNat)
  | [] => (0, 0)

/-- The vector that the register `r` holds after a command. -/
def result (i : Instr) (s : State) (r : EReg) : Option Vec := ((after i s).e.get r).map Elem.coef

/-- The vectors of the `n` cells from `a` on after a command. -/
def cellsAfter (i : Instr) (s : State) (a n : Nat) : Option (List Vec) :=
  (Memory.readRange (after i s).emem a n).map vectors

theorem exec_next (i : Instr) (s : State) : exec i s = .next (after i s) := by
  obtain ⟨r, hr⟩ := exec_is_complete i s
  rw [after, hr]
  cases r <;> rfl

/-! ### System commands (95_test_vectors.md 2.7) -/

theorem test_nop : answer .nop { demo with status := 4 } = (0, 0) ∧ (after .nop { demo with status := 4 }).status = 0 := by
  decide

theorem test_seta : (after (.seta 3 0xFFFFF) demo).a.get 3 = 1048575 ∧ (after (.seta 3 5) demo).a.get 4 = 2 := by
  decide

theorem test_csrr_reset : answer (.csrr 0x0008) State.reset = (0, 251) ∧ answer (.csrr 0x000C) State.reset = (0, 65536) ∧
    answer (.csrr 0x01E8) State.reset = (0, 0) ∧ answer (.csrr 0x0129) State.reset = (11, 0) ∧
    answer (.csrr 0x0020) State.reset = (11, 0) ∧ answer (.csrr 0xFFFF) State.reset = (11, 0) := by decide

theorem test_csrr_context : answer (.csrr 0x0100) demo = (0, 5) ∧ answer (.csrr 0x0103) demo = (0, 3) ∧
    answer (.csrr 0x0104) demo = (0, 2) ∧ answer (.csrr 0x0121) demo = (0, 1) ∧
    answer (.csrr 0x0122) demo = (0, 0) ∧ answer (.csrr 0x0143) demo = (0, 1) ∧
    answer (.csrr 0x0187) demo = (0, 1) ∧ answer (.csrr 0x0148) demo = (0, 0) := by decide

/-- `ESR` accumulates FieldMismatch and DivisionByZero to `0x30`, and CLRE clears it. -/
theorem test_clre : (after (.fdiv 9 0 2) (after (.fadd 9 0 3) demo)).esr = 0x30 ∧
    (after .clre { demo with esr := 0x30 }).esr = 0 := by decide

/-! ### The staging buffer and FCFG (2.2, 2.7) -/

theorem test_cclr : (after .cclr (staged demo [1, 2, 3])).cbuf = [] := by decide

theorem test_cpush : (after (.cpush (-2)) demo).cbuf = [0xFFFE] ∧
    answer (.cpush (-2)) (staged demo (List.replicate 9 0)) = (12, 0) ∧
    answer (.cpush (-2)) (staged demo (List.replicate 8 0)) = (0, 0) := by decide

theorem test_fcfg_gf5 : (after (.fcfg 3 0 1 true) demo).fc.get 3 = some gf5 ∧
    (after (.fcfg 0 0 1 true) demo).e.get 0 = none ∧ (after (.fcfg 0 0 1 true) demo).rs.get 0 = none ∧
    (after (.fcfg 0 0 1 true) demo).e.get 3 = some ⟨1, [1, 3]⟩ := by decide +kernel

theorem test_fcfg_refusals : answer (.fcfg 0 0 1 true) (withA demo 0 4) = (1, 0) ∧
    answer (.fcfg 0 0 1 true) (withA demo 0 257) = (12, 0) ∧ answer (.fcfg 0 0 9 true) (withA demo 0 6) = (12, 0) ∧
    answer (.fcfg 0 4 2 true) (staged demo [1, 0, 1]) = (2, 0) ∧
    answer (.fcfg 0 4 2 false) (staged demo [1, 0, 1]) = (0, 0) := by decide

/-! ### The element constructor, moves, loads and stores (2.4, 2.8) -/

theorem test_emk : result (.emk 9 1) (staged demo [1, 3]) 9 = some [1, 3] ∧
    result (.emk 9 1) (staged demo [6]) 9 = some [6, 0] ∧ answer (.emk 9 1) (staged demo [7, 0]) = (3, 0) ∧
    answer (.emk 9 1) (staged demo [0, 0xFFFF]) = (3, 0) ∧ answer (.emk 9 1) (staged demo [1, 2, 3]) = (3, 0) := by
  decide

theorem test_emki : result (.emki 9 0 (-32768)) demo 9 = some [2] ∧ result (.emki 9 0 (-1)) demo 9 = some [4] ∧
    result (.emki 9 1 10) demo 9 = some [3, 0] ∧ answer (.emki 9 3 1) demo = (10, 0) := by decide

theorem test_erdc : answer (.erdc 3 1) demo = (0, 3) ∧ answer (.erdc 3 2) demo = (11, 0) ∧
    answer (.erdc 9 0) demo = (10, 0) := by decide

theorem test_emov : (after (.emov 9 3) demo).e.get 9 = some ⟨1, [1, 3]⟩ ∧ answer (.emov 9 9) demo = (10, 0) := by
  decide

theorem test_eld : (after (.eld 9 1 5) demo).e.get 9 = some ⟨2, [3]⟩ ∧ answer (.eld 9 65534 1) demo = (10, 0) ∧
    answer (.eld 9 65535 7) demo = (11, 0) := by decide

theorem test_est : Memory.read (after (.est 3 65535 1) demo).emem 65535 = some ⟨1, [1, 3]⟩ ∧
    answer (.est 0 65535 7) demo = (11, 0) ∧ answer (.est 9 65535 7) demo = (10, 0) := by decide

/-! ### Tables and points (2.3, 2.11) -/

theorem test_logrd : answer (.logrd 1) demo = (0, 2) ∧ answer (.logrd 2) demo = (11, 0) ∧
    answer (.logrd 3) demo = (10, 0) := by decide

theorem test_alogrd : result (.alogrd 9 0 8) demo 9 = some [3] ∧ answer (.alogrd 9 0 8) (withA demo 8 4) = (11, 0) ∧
    answer (.alogrd 9 3 8) demo = (10, 0) := by decide

theorem test_rspt : result (.rspt 9 2 8) (withA demo 8 4) 9 = some [5] ∧
    answer (.rspt 9 2 8) (withA demo 8 5) = (11, 0) ∧ answer (.rspt 9 1 8) demo = (10, 0) := by decide

/-! ### Element arithmetic (2.5) -/

theorem test_fadd : result (.fadd 9 0 1) demo 9 = some [1] ∧ result (.fadd 9 3 4) demo 9 = some [4, 0] := by decide

theorem test_fsub : result (.fsub 9 3 4) demo 9 = some [5, 6] ∧ result (.fsub 9 4 3) demo 9 = some [2, 1] := by decide

theorem test_fneg : result (.fneg 9 0) demo 9 = some [3] ∧ result (.fneg 9 3) demo 9 = some [6, 4] ∧
    result (.fneg 9 2) demo 9 = some [0] := by decide

theorem test_fmul : result (.fmul 9 3 4) demo 9 = some [5, 6] ∧ result (.fmul 9 0 1) demo 9 = some [3] ∧
    answer (.fmul 9 0 3) demo = (4, 0) := by decide

theorem test_fdiv : result (.fdiv 9 3 4) demo 9 = some [2, 3] ∧ result (.fdiv 9 2 0) demo 9 = some [0] ∧
    answer (.fdiv 9 0 2) demo = (5, 0) ∧ answer (.fdiv 9 2 2) demo = (5, 0) := by decide

theorem test_pmulg : result (.pmulg 9 4 4) demo 9 = some [0, 3] ∧ result (.pmulg 9 0 1) demo 9 = some [3] := by decide

theorem test_feq : answer (.feq 0 3) demo = (0, 0) ∧ answer (.feq 3 3) demo = (0, 1) ∧
    answer (.feq 0 1) demo = (0, 0) ∧ answer (.feq 0 9) demo = (10, 0) := by decide

theorem test_faddi : result (.faddi 9 0 (-1)) demo 9 = some [1] ∧ result (.faddi 9 0 32767) demo 9 = some [4] ∧
    result (.faddi 9 3 10) demo 9 = some [4, 3] := by decide

theorem test_fsubi : result (.fsubi 9 0 4) demo 9 = some [3] ∧ result (.fsubi 9 0 (-3)) demo 9 = some [0] ∧
    result (.fsubi 9 3 3) demo 9 = some [5, 3] := by decide

theorem test_frsubi : result (.frsubi 9 0 4) demo 9 = some [2] ∧ result (.frsubi 9 3 0) demo 9 = some [6, 4] := by decide

theorem test_fmuli : result (.fmuli 9 0 5) demo 9 = some [0] ∧ result (.fmuli 9 0 (-1)) demo 9 = some [3] ∧
    result (.fmuli 9 3 2) demo 9 = some [2, 6] := by decide

theorem test_fdivi : result (.fdivi 9 0 4) demo 9 = some [3] ∧ answer (.fdivi 9 0 (-5)) demo = (5, 0) ∧
    result (.fdivi 9 3 3) demo 9 = some [5, 1] ∧ answer (.fdivi 9 3 14) demo = (5, 0) := by decide

theorem test_frdivi : result (.frdivi 9 0 3) demo 9 = some [4] ∧ result (.frdivi 9 0 0) demo 9 = some [0] ∧
    answer (.frdivi 9 2 1) demo = (5, 0) ∧ result (Instr.finv 9 4) demo 9 = some [6, 6] := by decide

/-! ### Linear algebra (2.9, 2.10; P3) -/

theorem test_peval : result (.peval 9 6 5 4) demo 9 = some [3] ∧
    result (.peval 9 6 5 4) (withA demo 4 0) 9 = some [0] ∧ answer (.peval 9 6 5 4) (withA demo 4 3) = (10, 0) ∧
    answer (.peval 9 6 11 4) demo = (11, 0) ∧ answer (.peval 9 6 12 1) demo = (0, 0) ∧
    answer (.peval 9 0 5 4) demo = (4, 0) := by decide

/-- The identity with right-hand side `3, 4`, and a `1 × 1` matrix of zero. -/
theorem test_gsolve : cellsAfter (.gsolve 3 1 2 4) demo 200 2 = some [[3], [4]] ∧
    answer (.gsolve 3 14 2 7) demo = (6, 0) ∧ answer (.gsolve 3 1 2 13) demo = (12, 0) ∧
    answer (.gsolve 3 1 2 1) demo = (0, 0) := by decide

/-- `x^2 + 1` over `Z_2` without tables in `c3`, a ring that is no field (95_test_vectors.md 2.6), with the cells
`(1,1)`, `(0,1)`, `(0,0)` of it. -/
def ring4 : FieldCtx := { p := 2, m := 2, q := 4, g := [1, 0, 1], tables := none }

def reducible : State :=
  { demo with
    fc := #v[some gf5, some gf49, some gf11, some ring4]
    a := #v[5, 0, 120, 200, 121, 122, 80, 1, 3, 40, 32, 65535, 65536, 256, 100, 10]
    emem := demoCells ++ [(120, ⟨3, [1, 1]⟩), (121, ⟨3, [0, 1]⟩), (122, ⟨3, [0, 0]⟩)] }

/-- `(0,1) / (1,1)` is `(0,0)` there (2.6), so GSOLVE of size 1 stores a vector that does not solve the system. -/
theorem test_gsolve_reducible : cellsAfter (.gsolve 3 2 4 7) reducible 200 1 = some [[0, 0]] ∧
    Memory.read (after (.gsolve 3 2 4 7) reducible).emem 201 = none ∧ answer (.gsolve 3 5 4 7) reducible = (6, 0) := by
  decide

/-- GF(11), row swap at column 0 and in the second system at column 1. -/
theorem test_gsolve_swaps : gf11.solve 3 [[0], [2], [1], [3], [0], [4], [1], [1], [1]] [[7], [5], [6]] = some [[3], [4], [10]] ∧
    gf11.solve 3 [[1], [2], [3], [2], [4], [7], [1], [0], [1]] [[7], [5], [6]] = some [[4], [4], [2]] ∧
    gf11.solve 3 [[1], [2], [3], [2], [4], [6], [1], [0], [1]] [[7], [5], [6]] = none := by decide

/-! ### Reed-Solomon (2.11; P4) -/

theorem test_rscfg : (after (.rscfg 0 8 7 9) demo).rs.get 0 = some codec5 ∧
    answer (.rscfg 0 8 7 10) demo = (8, 0) ∧ answer (.rscfg 0 8 7 3) demo = (10, 0) := by decide

theorem test_rscfga : (after (.rscfga 2 0 4) demo).rs.get 2 = some codec11 ∧ answer (.rscfga 2 0 0) demo = (8, 0) ∧
    answer (.rscfga 3 0 4) demo = (10, 0) := by decide

theorem test_rsenc : cellsAfter (.rsenc 2 3 5) demo 200 5 = some [[5], [8], [0], [3], [6]] ∧
    answer (.rsenc 1 3 5) demo = (10, 0) := by decide

/-- One error is corrected; the word `0, 0, 0, 3, 6` has no codeword within `emax`. -/
theorem test_rsdec : cellsAfter (.rsdec 2 3 6) demo 200 2 = some [[2], [3]] ∧
    (gf11.bwDecode codec11 [[0], [0], [0], [3], [6]]).toOption = none := by decide

/-! ### The small state meets the invariant -/

theorem mem_of_read (m : Memory) (a : Nat) (v : Elem) (h : Memory.read m a = some v) : (a, v) ∈ m := by
  induction m with
  | nil => simp at h
  | cons x m ih =>
    obtain ⟨b, u⟩ := x
    rw [read_cons] at h
    split at h
    · simp_all
    · exact List.mem_cons_of_mem _ (ih h)

theorem ring_gf5 : gf5.Ring := ⟨by norm_num [gf5], by decide, by decide, by decide, by decide, by decide, fun _ => rfl⟩

theorem ring_gf49 : gf49.Ring :=
  ⟨by norm_num [gf49], by decide, by decide, by decide, by decide, by decide, fun h => absurd h (by decide)⟩

theorem ring_gf11 : gf11.Ring := ⟨by norm_num [gf11], by decide, by decide, by decide, by decide, by decide, fun _ => rfl⟩

theorem tablesOk_gf5 : gf5.TablesOk tables5 where
  primVec := by decide
  logSize := by decide
  logZero := by decide
  alogSize := by decide
  powers := by decide
  vecs := by decide
  alogOfLog := by
    intro j h1 h2
    have : j = 1 ∨ j = 2 ∨ j = 3 ∨ j = 4 := by
      have : gf5.q = 5 := rfl
      omega
    rcases this with rfl | rfl | rfl | rfl
    · exact ⟨0, [1], by decide⟩
    · exact ⟨1, [2], by decide⟩
    · exact ⟨3, [3], by decide⟩
    · exact ⟨2, [4], by decide⟩
  logOfAlog := by
    intro i u h
    have hi : i < 4 := by
      obtain ⟨h, -⟩ := List.getElem?_eq_some_iff.1 h
      exact h
    have : i = 0 ∨ i = 1 ∨ i = 2 ∨ i = 3 := by omega
    rcases this with rfl | rfl | rfl | rfl <;> (obtain rfl := Option.some.inj h; decide)
  alogZero := by decide
  alogOne := by decide

/-- The value's context is constructed and its vector is one of that field. -/
def elemCheck (s : State) (v : Elem) : Bool := (s.fc.get v.ctx).any (fun F => decide (F.IsVec v.coef))

theorem elemOk_of_check (s : State) (v : Elem) (h : elemCheck s v = true) : ElemOk s v := by
  unfold elemCheck at h
  cases hF : s.fc.get v.ctx with
  | none => rw [hF] at h; exact absurd h (by simp)
  | some F => rw [hF] at h; exact ⟨F, hF, of_decide_eq_true h⟩

theorem inv_demo : Inv demo where
  layout :=
    { params := by decide
      memory := by decide
      cells := fun a v h => by
        have hall : ∀ x ∈ demoCells, x.1 < 65536 := by decide
        exact hall _ (mem_of_read _ a v h)
      buffer := by decide
      status := by decide
      esr := by decide }
  registers := fun r v h => by
    have hall : ∀ r, (demo.e.get r).all (elemCheck demo) = true := by decide
    have := hall r
    rw [h] at this
    exact elemOk_of_check _ _ this
  cells := fun a v h => by
    have hall : ∀ x ∈ demoCells, elemCheck demo x.2 = true := by decide
    exact elemOk_of_check _ _ (hall _ (mem_of_read _ a v h))
  fields := fun c F h => by
    match c, h with
    | 0, h =>
      obtain rfl : gf5 = F := Option.some.inj h
      exact ⟨ring_gf5, by decide, fun T hT => by obtain rfl : tables5 = T := Option.some.inj hT; exact tablesOk_gf5⟩
    | 1, h =>
      obtain rfl : gf49 = F := Option.some.inj h
      exact ⟨ring_gf49, by decide, fun T hT => by cases hT⟩
    | 2, h =>
      obtain rfl : gf11 = F := Option.some.inj h
      exact ⟨ring_gf11, by decide, fun T hT => by cases hT⟩
    | 3, h => cases h
  codecs := fun c R h => by
    match c, h with
    | 0, h =>
      obtain rfl : codec5 = R := Option.some.inj h
      exact ⟨gf5, by decide⟩
    | 1, h => cases h
    | 2, h =>
      obtain rfl : codec11 = R := Option.some.inj h
      exact ⟨gf11, by decide⟩
    | 3, h => cases h

theorem field_ring_gf5 : gf5.HasFieldRing := .inl (by decide)

/-! ### Witnesses: concrete states and operands that meet the hypotheses of each statement, at least one for
each clause, named after the statement -/

theorem witness_DecodeOfEncodeIsTheCommand : (Instr.cpush (-32768)).wf = true ∧ (Instr.seta 15 1048575).wf = true ∧
    (Instr.fcfg 3 15 65535 true).wf = true := by decide

theorem witness_EncodeOfDecodeIsTheWord : decode 0x3B450002 = .ok (.rsdec 2 4 5) := by decide

theorem witness_IllegalWordRaisesIllegalCommand :
    { demo with cmds := [0x00000001] }.cmds = 0x00000001 :: [] ∧
      ∀ row ∈ opcodeRows, row.holds 0x00000001 = false := by decide

theorem witness_StepRunsTheDecodedCommand :
    { demo with cmds := [0x20201000] }.cmds = 0x20201000 :: [] ∧ decode 0x20201000 = .ok (.fadd 2 0 1) := by decide

theorem witness_StepWithoutCommandWaits : demo.cmds = [] := by decide

/-- A command that fails, and one of the commands that return no data. -/
theorem witness_OneResponsePerCommand :
    { demo with cmds := [0x24902000] }.cmds = 0x24902000 :: [] ∧ decode 0x24902000 = .ok (.fdiv 9 0 2) ∧
      answer (.fdiv 9 0 2) demo = (5, 0) := by decide

theorem witness_RunIsTheFoldOverTheCommands : demo.cmds = [] ∧ [0x20201000, 0x03000000].length = 2 := by decide

theorem witness_PortsDoNotInfluenceCommands : exec (.fadd 9 0 1) demo = .next (after (.fadd 9 0 1) demo) :=
  exec_next _ _

theorem witness_ErrorsOfEachCommand : Fails (.fdiv 9 0 2) demo .divisionByZero := by rfl

theorem witness_ResponseCodes :
    { demo with cmds := [0x24902000] }.cmds = 0x24902000 :: [] ∧
      step { demo with cmds := [0x24902000] } = .next (after (.fdiv 9 0 2) demo) := ⟨by decide, by rfl⟩

theorem witness_ResetMeetsTheInvariant : Params.ref.legal ∧
    Params.legal { pMax := 2, mMax := 1, qMax := 3, nMax := 2, emDepth := 1 } := by decide

theorem witness_StepKeepsTheInvariant : Inv { demo with cmds := [0x20201000] } ∧
    ∃ t, step { demo with cmds := [0x20201000] } = .next t :=
  ⟨⟨⟨inv_demo.1.1, inv_demo.1.2, inv_demo.1.3, inv_demo.1.4, inv_demo.1.5, inv_demo.1.6⟩, inv_demo.2, inv_demo.3,
    inv_demo.4, inv_demo.5⟩, _, rfl⟩

theorem witness_StepKeepsTheLayout : LayoutOk demo ∧ ∃ t, step demo = .next t := ⟨inv_demo.layout, _, rfl⟩

/-- SETA, FCFG, RSCFG and CPUSH do change what they write. -/
theorem witness_WritersOfArgumentsAndContexts :
    exec (.seta 0 6) demo = .next (after (.seta 0 6) demo) ∧
    (after (.seta 0 6) demo).a.get 0 ≠ demo.a.get 0 ∧ (after (.fcfg 3 0 1 false) demo).fc.get 3 ≠ demo.fc.get 3 ∧
    (after (.fcfg 0 0 1 false) demo).rs.get 0 ≠ demo.rs.get 0 ∧
    (after (.rscfga 1 0 4) demo).rs.get 1 ≠ demo.rs.get 1 ∧ (after (.cpush 7) demo).cbuf ≠ demo.cbuf :=
  ⟨exec_next _ _, by decide⟩

/-- The cells beside those that EST, GSOLVE (in a context that is no field), RSENC and RSDEC store to, and FCFG. -/
theorem witness_WritersOfElements : exec (.est 0 0 1) demo = .next (after (.est 0 0 1) demo) ∧
    exec (.gsolve 3 2 4 7) reducible = .next (after (.gsolve 3 2 4 7) reducible) ∧
    Memory.wf demo.emem = true ∧ Memory.wf reducible.emem = true ∧ destinationOf (.est 0 0 1) ≠ some 0 ∧
    destinationCells demo (.est 0 0 1) = (0, 1) ∧ destinationCells reducible (.gsolve 3 2 4 7) = (200, 1) ∧
    destinationCells demo (.rsenc 2 3 5) = (200, 5) ∧ destinationCells demo (.rsdec 2 3 6) = (200, 2) ∧
    ¬ (200 ≤ 199 ∧ 199 < 200 + 1) ∧ ¬ (200 ≤ 201 ∧ 201 < 200 + 1) :=
  ⟨exec_next _ _, exec_next _ _, by decide⟩

theorem witness_StatusIsTheLastCode :
    { demo with cmds := [0x24902000] }.cmds = 0x24902000 :: [] ∧
      ∃ t, step { demo with cmds := [0x24902000] } = .next t ∧ t.status = 5 := ⟨by decide, _, rfl, by decide⟩

/-- A failure, a success and CLRE. -/
theorem witness_EsrIsSticky :
    (∃ t, step { demo with cmds := [0x24902000] } = .next t ∧ t.status ≠ 0 ∧ t.status.toNat = 5) ∧
    (∃ t, step { demo with cmds := [0x20201000] } = .next t ∧ t.status = 0) ∧
    decode 0x03000000 = .ok .clre ∧ demo.esr &&& 0xE001 = 0 :=
  ⟨⟨_, rfl, by decide⟩, ⟨_, rfl, by decide⟩, by decide, by decide⟩

theorem witness_NopSetaClreCclr : (0 : Nat) ≤ 1048575 ∧ (1048575 : Nat) ≤ 1048575 := by decide

/-- The clauses, with and without tables, the first and last word of `FG`, and the address after it. -/
theorem witness_CsrrContextRegisters : demo.params.legal ∧ demo.fc.get 0 = some gf5 ∧ gf5.tables = some tables5 ∧
    demo.fc.get 1 = some gf49 ∧ gf49.tables = none ∧ demo.fc.get 3 = none ∧ demo.rs.get 0 = some codec5 ∧
    demo.rs.get 3 = none ∧ 0 ≤ demo.params.mMax ∧ 8 ≤ demo.params.mMax ∧ 0x09 ≤ 0x1F ∧
    0x20 + demo.params.mMax < 0x29 ∧ 0x29 < 0x40 := by decide

/-- The addresses beside the assigned ranges. -/
theorem witness_CsrrUnassignedAddress : demo.params.legal ∧
    ∀ addr ∈ [0x0003, 0x0007, 0x000D, 0x000F, 0x0020, 0x00FF, 0x0109, 0x011F, 0x0129, 0x013F, 0x01E9, 0x0200, 0xFFFF],
      ¬ addr ≤ 0x0002 ∧ ¬ (0x0008 ≤ addr ∧ addr ≤ 0x000C) ∧ ¬ (0x0010 ≤ addr ∧ addr ≤ 0x001F) ∧
      (∀ c, c < 4 → ¬ (0x0100 + 0x40 * c ≤ addr ∧ addr ≤ 0x0100 + 0x40 * c + 0x08) ∧
        ¬ (0x0100 + 0x40 * c + 0x20 ≤ addr ∧ addr ≤ 0x0100 + 0x40 * c + 0x20 + demo.params.mMax)) := by
  decide

theorem witness_CpushAppendsOrIsFull : (-32768 : Int) ≤ -32768 ∧ (-32768 : Int) ≤ 32767 ∧
    demo.cbuf.length ≠ demo.params.mMax + 1 ∧ (staged demo (List.replicate 8 0)).cbuf.length ≠ demo.params.mMax + 1 ∧
    (staged demo (List.replicate 9 0)).cbuf.length = demo.params.mMax + 1 := by decide

/-- `p = 2`, `m = 2`, `g = (1, 0, 1)`, a reducible polynomial. -/
def square : State := staged demo [1, 0, 1]

theorem valid_square : FcfgValid square.params (square.a.get 4).toNat 2 (square.cbuf.map BitVec.toInt) :=
  ⟨by decide, by decide, by decide, Nat.prime_two, by decide, .inr (by decide)⟩

theorem valid_demo : FcfgValid demo.params (demo.a.get 0).toNat 1 (demo.cbuf.map BitVec.toInt) :=
  ⟨by decide, by decide, by decide, (by norm_num : Nat.Prime 5), by decide, .inl rfl⟩

theorem witness_FcfgWithoutTables : Memory.wf square.emem = true ∧
    FcfgValid square.params (square.a.get 4).toNat 2 (square.cbuf.map BitVec.toInt) := ⟨by decide, valid_square⟩

/-- `p > P_MAX`; `m > M_MAX`; `q > Q_MAX`; then `m = 0`, `p = 0`, a composite `p`, a missing polynomial. -/
theorem witness_FcfgRefusesInvalidParameters :
    demo.params.pMax < ((withA demo 0 252).a.get 0).toNat ∧ demo.params.mMax < 9 ∧
    demo.params.qMax < (demo.a.get 0).toNat ^ 4 ∧
    ((demo.a.get 0).toNat ≤ demo.params.pMax ∧ 0 ≤ demo.params.mMax ∧ (demo.a.get 0).toNat ^ 0 ≤ demo.params.qMax ∧
      (0 : Nat) < 1) ∧
    ((withA demo 0 1).a.get 0).toNat < 2 ∧
    (∃ d, 2 ≤ d ∧ d * d ≤ ((withA demo 0 4).a.get 0).toNat ∧ d ∣ ((withA demo 0 4).a.get 0).toNat) ∧
    (1 < 2 ∧ ¬ StagedPoly (demo.a.get 0).toNat 2 (demo.cbuf.map BitVec.toInt)) :=
  ⟨by decide, by decide, by decide, by decide, by decide, ⟨2, by decide⟩, by decide⟩

/-- No candidate for `g = (1, 0, 1)` over `Z_2`; over GF(5) the candidate of index 2, index 1 failing. -/
theorem witness_FcfgBuildsTheTables :
    (Memory.wf square.emem = true ∧ FcfgValid square.params (square.a.get 4).toNat 2 (square.cbuf.map BitVec.toInt) ∧
      ∀ j, 1 ≤ j → j < (plainField 2 2 [1, 0, 1]).q →
        ¬ (plainField 2 2 [1, 0, 1]).IsPrimitive ((plainField 2 2 [1, 0, 1]).unidx j)) ∧
    (Memory.wf demo.emem = true ∧ FcfgValid demo.params (demo.a.get 0).toNat 1 (demo.cbuf.map BitVec.toInt) ∧
      1 ≤ 2 ∧ 2 < (plainField 5 1 []).q ∧ (plainField 5 1 []).IsPrimitive ((plainField 5 1 []).unidx 2) ∧
      ∀ j', 1 ≤ j' → j' < 2 → ¬ (plainField 5 1 []).IsPrimitive ((plainField 5 1 []).unidx j')) := by
  refine ⟨⟨by decide, valid_square, ?_⟩, by decide, valid_demo, by decide, by decide, ?_, ?_⟩
  · intro j h1 h2
    have : j = 1 ∨ j = 2 ∨ j = 3 := by
      have : (plainField 2 2 [1, 0, 1]).q = 4 := rfl
      omega
    rcases this with rfl | rfl | rfl
    · exact fun h => h.2 1 (by decide) (by decide) (by decide)
    · exact fun h => absurd h.1 (by decide)
    · exact fun h => absurd h.1 (by decide)
  · exact ⟨by decide, by decide⟩
  · intro j' h1 h2 h
    obtain rfl : j' = 1 := by omega
    exact h.2 1 (by decide) (by decide) (by decide)

/-- `g = x` over `Z_5` is irreducible; `g = x^2 + 1 = (x + 1)^2` over `Z_2` is not. -/
theorem witness_FcfgWithTablesTestsIrreducibility :
    (FcfgValid demo.params (demo.a.get 0).toNat 1 (demo.cbuf.map BitVec.toInt) ∧
      Irreducible (polyOf 5 (plainField 5 1 []).g)) ∧
    (FcfgValid square.params (square.a.get 4).toNat 2 (square.cbuf.map BitVec.toInt) ∧
      ¬ Irreducible (polyOf 2 (plainField 2 2 [1, 0, 1]).g)) := by
  refine ⟨⟨valid_demo, ?_⟩, valid_square, ?_⟩
  · have : Fact (Nat.Prime 5) := ⟨by norm_num⟩
    have h : polyOf 5 [0, 1] = Polynomial.X := by
      simp [polyOf, Finset.sum_range_succ, slot, Polynomial.X]
    exact h ▸ Polynomial.irreducible_X
  · have : Fact (Nat.Prime 2) := ⟨Nat.prime_two⟩
    have h : polyOf 2 [1, 0, 1] = (Polynomial.X + 1) * (Polynomial.X + 1) := by
      have h2 : (2 : Polynomial (ZMod 2)) = 0 := by
        have : ((2 : Nat) : Polynomial (ZMod 2)) = 0 := CharP.cast_eq_zero _ 2
        simpa using this
      have h1 : polyOf 2 [1, 0, 1] = 1 + Polynomial.X ^ 2 := by
        simp [polyOf, Finset.sum_range_succ, slot, Polynomial.X_pow_eq_monomial]
      rw [h1]
      linear_combination -Polynomial.X * h2
    have hu : ¬ IsUnit (Polynomial.X + 1 : Polynomial (ZMod 2)) := by
      have h1 : (Polynomial.X + 1 : Polynomial (ZMod 2)) = Polynomial.X - Polynomial.C (-1) := by
        rw [Polynomial.C_neg, Polynomial.C_1, sub_neg_eq_add]
      exact h1 ▸ Polynomial.not_isUnit_X_sub_C _
    intro hi
    have hi' : Irreducible ((Polynomial.X + 1 : Polynomial (ZMod 2)) * (Polynomial.X + 1)) := h ▸ hi
    exact (hi'.isUnit_or_isUnit rfl).elim hu hu

theorem witness_EmkValidatesTheSequence : demo.fc.get 1 = some gf49 ∧
    (∀ x ∈ [0, (6 : Int)], 0 ≤ x ∧ x < (gf49.p : Int)) ∧ [0, (6 : Int)].length ≤ gf49.m ∧
    gf49.m < [1, 2, (3 : Int)].length ∧ (∃ x ∈ [7, (0 : Int)], x < 0 ∨ (gf49.p : Int) ≤ x) ∧
    ∃ x ∈ [0, (-1 : Int)], x < 0 ∨ (gf49.p : Int) ≤ x := by decide

theorem witness_EmkiReducesTheInteger : demo.fc.get 0 = some gf5 ∧ gf5.Ring ∧ demo.fc.get 3 = none :=
  ⟨by decide, ring_gf5, by decide⟩

theorem witness_ErdcAndEmov : demo.e.get 3 = some ⟨1, [1, 3]⟩ ∧ demo.fc.get 1 = some gf49 ∧ 1 < gf49.m ∧
    gf49.m ≤ 2 := by decide

/-- A listed cell, an empty one, the last cell, the first address beyond, an empty register. -/
theorem witness_EldAndEst : 64 = (demo.a.get 5).toNat + 0 ∧ 64 < demo.params.emDepth ∧
    Memory.read demo.emem 64 = some ⟨2, [2]⟩ ∧ 65535 = (demo.a.get 1).toNat + 65535 ∧ 65535 < demo.params.emDepth ∧
    Memory.read demo.emem 65535 = none ∧ 65536 = (demo.a.get 7).toNat + 65535 ∧ demo.params.emDepth ≤ 65536 ∧
    demo.e.get 3 = some ⟨1, [1, 3]⟩ ∧ demo.e.get 9 = none := by decide

theorem witness_LogrdAlogrdRspt : Inv demo ∧
    (demo.fc.get 0 = some gf5 ∧ gf5.tables = some tables5 ∧ demo.e.get 0 = some ⟨0, [2]⟩ ∧ [2] ≠ gf5.zero ∧
      demo.e.get 2 = some ⟨0, [0]⟩ ∧ [0] = gf5.zero ∧ (demo.a.get 8).toNat ≤ gf5.q - 2 ∧
      gf5.q - 2 < ((withA demo 8 4).a.get 8).toNat) ∧
    (demo.fc.get 1 = some gf49 ∧ gf49.tables = none ∧ demo.e.get 3 = some ⟨1, [1, 3]⟩) ∧
    demo.fc.get 3 = none ∧ demo.rs.get 1 = none ∧
    (demo.rs.get 2 = some codec11 ∧ codec11.n ≤ (demo.a.get 0).toNat ∧ (demo.a.get 8).toNat < codec11.n ∧
      codec11.x[(demo.a.get 8).toNat]? = some [4]) := ⟨inv_demo, by decide⟩

theorem witness_CanonicalIndexIsABijection : gf49.Ring ∧ gf49.IsVec [1, 3] ∧ 48 < gf49.q :=
  ⟨ring_gf49, by decide, by decide⟩

theorem witness_FaddFsubFneg : demo.e.get 3 = some ⟨1, [1, 3]⟩ ∧ demo.e.get 4 = some ⟨1, [3, 4]⟩ ∧
    demo.fc.get 1 = some gf49 ∧ 0 < gf49.p := by decide

theorem witness_FaddiFsubiFrsubi : demo.e.get 3 = some ⟨1, [1, 3]⟩ ∧ demo.fc.get 1 = some gf49 ∧ gf49.Ring ∧
    gf49.IsVec [1, 3] := ⟨by decide, by decide, ring_gf49, by decide⟩

theorem witness_ProductsArePolynomialRemainders : Inv demo ∧ demo.e.get 3 = some ⟨1, [1, 3]⟩ ∧
    demo.e.get 4 = some ⟨1, [3, 4]⟩ ∧ demo.fc.get 1 = some gf49 := ⟨inv_demo, by decide⟩

theorem witness_FmulAndPmulgNeverDiffer : Inv demo := inv_demo

/-- `4 * 2` through `LOG[4] = 2`, `LOG[2] = 1`; then zero operands. -/
theorem witness_TablePathOfFmulAndFdiv : demo.e.get 1 = some ⟨0, [4]⟩ ∧ demo.e.get 0 = some ⟨0, [2]⟩ ∧
    demo.fc.get 0 = some gf5 ∧ gf5.tables = some tables5 ∧
    ([4] ≠ gf5.zero ∧ [2] ≠ gf5.zero ∧ tables5.log[gf5.idx [4]]? = some (some 2) ∧
      tables5.log[gf5.idx [2]]? = some (some 1) ∧ tables5.alog[(2 + 1) % (gf5.q - 1)]? = some [3] ∧
      tables5.alog[(((1 : Nat) : Int) - ((2 : Nat) : Int)) % ((gf5.q - 1 : Nat) : Int) |>.toNat]? = some [3]) ∧
    demo.e.get 2 = some ⟨0, [0]⟩ ∧ [0] = gf5.zero := by decide

/-- A field with tables and one without; an integer not divisible by `p`. -/
theorem witness_QuotientsAreProductsWithAPower : Inv demo ∧ demo.e.get 0 = some ⟨0, [2]⟩ ∧
    demo.e.get 1 = some ⟨0, [4]⟩ ∧ demo.fc.get 0 = some gf5 ∧ [4] ≠ gf5.zero ∧ ¬ (gf5.p : Int) ∣ -1 ∧
    [2] ≠ gf5.zero ∧ demo.e.get 3 = some ⟨1, [1, 3]⟩ ∧ demo.e.get 4 = some ⟨1, [3, 4]⟩ ∧ demo.fc.get 1 = some gf49 ∧
    [3, 4] ≠ gf49.zero := ⟨inv_demo, by decide⟩

theorem witness_QuotientTimesDivisorIsTheDividend : Inv demo ∧ demo.e.get 2 = some ⟨0, [0]⟩ ∧
    demo.e.get 1 = some ⟨0, [4]⟩ ∧ demo.fc.get 0 = some gf5 ∧ gf5.HasFieldRing ∧ [4] ≠ gf5.zero :=
  ⟨inv_demo, by decide, by decide, by decide, field_ring_gf5, by decide⟩

/-- Also `0 / 0` and an integer that is a nonzero multiple of `p`. -/
theorem witness_ZeroDivisorRaisesDivisionByZero : Inv demo ∧ demo.fc.get 0 = some gf5 ∧
    demo.e.get 2 = some ⟨0, gf5.zero⟩ ∧ (gf5.p : Int) ∣ -5 ∧ [0] = gf5.zero := ⟨inv_demo, by decide⟩

theorem witness_RingLawsOfEveryContext : gf49.Ring ∧ gf49.IsVec [1, 3] ∧ gf49.IsVec [3, 4] ∧ gf49.IsVec [0, 6] :=
  ⟨ring_gf49, by decide, by decide, by decide⟩

/-- Equal values, equal fields with different vectors, different fields. -/
theorem witness_FeqComparesFieldAndVector : demo.e.get 0 = some ⟨0, [2]⟩ ∧ demo.e.get 1 = some ⟨0, [4]⟩ ∧
    demo.e.get 3 = some ⟨1, [1, 3]⟩ ∧ (⟨0, [2]⟩ : Elem) ≠ ⟨0, [4]⟩ ∧ (⟨0, [2]⟩ : Elem) ≠ ⟨1, [1, 3]⟩ := by decide

theorem witness_DifferentFieldsDoNotCombine : demo.e.get 0 = some ⟨0, [2]⟩ ∧ demo.e.get 3 = some ⟨1, [1, 3]⟩ ∧
    (⟨0, [2]⟩ : Elem).ctx ≠ (⟨1, [1, 3]⟩ : Elem).ctx := by decide

theorem witness_EmptySourceRaisesUninitialised : (9 : EReg) ∈ sourcesOf (.fadd 0 0 9) ∧
    (9 : EReg) ∈ sourcesOf (.peval 0 9 1 4) ∧ demo.e.get 9 = none := by decide

theorem witness_AliasesAgree : Inv demo := inv_demo

/-- Length 2 inside EMEM, and length 0 with a base beyond it. -/
theorem witness_PevalIsTheValueOfThePolynomial : Inv demo ∧ demo.e.get 6 = some ⟨2, [4]⟩ ∧
    demo.fc.get 2 = some gf11 ∧ [[2], [3]].length = (demo.a.get 4).toNat ∧
    (demo.a.get 5).toNat + [[2], [3]].length ≤ demo.params.emDepth ∧
    CellsHold demo.emem (demo.a.get 5).toNat (tagged 2 [[2], [3]]) ∧
    ([] : List Vec).length = (demo.a.get 1).toNat ∧ CellsHold demo.emem 1048575 (tagged 2 []) :=
  ⟨inv_demo, by decide, by decide, by decide, by decide, by unfold CellsHold; decide, by decide,
    by unfold CellsHold; decide⟩

/-- A one-coefficient vector of GF(5) is one of five. -/
theorem vec_gf5 (u : Vec) (h : gf5.IsVec u) : u = [0] ∨ u = [1] ∨ u = [2] ∨ u = [3] ∨ u = [4] := by
  obtain ⟨hl, hr⟩ := h
  obtain ⟨a, rfl⟩ := List.length_eq_one_iff.1 hl
  have ha : a < 5 := hr a (by simp)
  have : a = 0 ∨ a = 1 ∨ a = 2 ∨ a = 3 ∨ a = 4 := by omega
  rcases this with rfl | rfl | rfl | rfl | rfl <;> simp

/-- The solutions of a `1 × 1` system over GF(5). -/
theorem solution_gf5 (MA Mb xs : List Vec) (h : gf5.IsSolution 1 MA Mb xs) :
    ∃ x, xs = [x] ∧ (x = [0] ∨ x = [1] ∨ x = [2] ∨ x = [3] ∨ x = [4]) ∧
      gf5.rowDot ((MA.drop 0).take 1) [x] = Mb.getD 0 gf5.zero := by
  obtain ⟨hl, hv, he⟩ := h
  obtain ⟨x, rfl⟩ := List.length_eq_one_iff.1 hl
  exact ⟨x, rfl, vec_gf5 x (hv x (by simp)), he 0 (by decide)⟩

/-- The systems `1 * x = 1` and `0 * x = 3` over GF(5), and a system of size 0. -/
theorem witness_GsolveSolvesTheSystem : Inv demo ∧ demo.fc.get 0 = some gf5 ∧ gf5.HasFieldRing ∧
    (1 = (demo.a.get 7).toNat ∧ 1 ≤ demo.params.nMax ∧ [[1]].length = 1 * 1 ∧ [[3]].length = 1 ∧
      (demo.a.get 7).toNat + 1 * 1 ≤ demo.params.emDepth ∧
      CellsHold demo.emem (demo.a.get 1).toNat (tagged 0 [[1]]) ∧ CellsHold demo.emem (demo.a.get 2).toNat (tagged 0 [[3]]) ∧
      gf5.IsSolution 1 [[1]] [[3]] [[3]] ∧ ∀ ys, gf5.IsSolution 1 [[1]] [[3]] ys → ys = [[3]]) ∧
    (CellsHold demo.emem (demo.a.get 14).toNat (tagged 0 [[0]]) ∧ ¬ ∃! xs, gf5.IsSolution 1 [[0]] [[3]] xs) ∧
    (0 = (demo.a.get 1).toNat ∧ CellsHold demo.emem 0 (tagged 0 [])) := by
  refine ⟨inv_demo, by decide, field_ring_gf5, ⟨by decide, by decide, by decide, by decide, by decide,
    by unfold CellsHold; decide, by unfold CellsHold; decide, ⟨by decide, by decide, by decide⟩, ?_⟩,
    ⟨by unfold CellsHold; decide, ?_⟩, by decide, by unfold CellsHold; decide⟩
  · intro ys h
    obtain ⟨x, rfl, hx, he⟩ := solution_gf5 _ _ _ h
    rcases hx with rfl | rfl | rfl | rfl | rfl <;> first | rfl | exact absurd he (by decide)
  · rintro ⟨xs, h, -⟩
    obtain ⟨x, rfl, hx, he⟩ := solution_gf5 _ _ _ h
    rcases hx with rfl | rfl | rfl | rfl | rfl <;> exact absurd he (by decide)

/-- `n > N_MAX`; a range beyond EMEM; an empty cell; two contexts; a system that the elimination ends and one that it
does not, in a context that is no field. -/
theorem witness_GsolveTestsInOrder :
    (256 = (demo.a.get 13).toNat ∧ demo.params.nMax < 256) ∧
    (2 = (demo.a.get 4).toNat ∧ 2 ≤ demo.params.nMax ∧ demo.params.emDepth < (demo.a.get 11).toNat + 2 * 2 ∧
      demo.params.emDepth < (demo.a.get 11).toNat + 2) ∧
    ((demo.a.get 1).toNat + 2 * 2 ≤ demo.params.emDepth ∧ (demo.a.get 2).toNat + 2 ≤ demo.params.emDepth ∧
      (demo.a.get 3).toNat + 2 ≤ demo.params.emDepth ∧ (∃ i, i < 2 * 2 ∧ Memory.read demo.emem ((demo.a.get 5).toNat + i) = none) ∧
      ∃ i, i < 2 ∧ Memory.read demo.emem ((demo.a.get 3).toNat + i) = none) ∧
    (CellsHold demo.emem (demo.a.get 1).toNat (tagged 0 [[1], [0], [0], [1]]) ∧
      CellsHold demo.emem (demo.a.get 5).toNat (tagged 2 [[2], [3]]) ∧
      ∃ x ∈ tagged 0 [[1], [0], [0], [1]] ++ tagged 2 [[2], [3]],
        ∃ y ∈ tagged 0 [[1], [0], [0], [1]] ++ tagged 2 [[2], [3]], x.ctx ≠ y.ctx) ∧
    (reducible.fc.get 3 = some ring4 ∧ 1 = (reducible.a.get 7).toNat ∧ 1 ≤ reducible.params.nMax ∧
      (reducible.a.get 2).toNat + 1 * 1 ≤ reducible.params.emDepth ∧
      (reducible.a.get 5).toNat + 1 * 1 ≤ reducible.params.emDepth ∧
      (reducible.a.get 4).toNat + 1 ≤ reducible.params.emDepth ∧
      (reducible.a.get 3).toNat + 1 ≤ reducible.params.emDepth ∧
      CellsHold reducible.emem (reducible.a.get 2).toNat (tagged 3 [[1, 1]]) ∧
      CellsHold reducible.emem (reducible.a.get 5).toNat (tagged 3 [[0, 0]]) ∧
      CellsHold reducible.emem (reducible.a.get 4).toNat (tagged 3 [[0, 1]]) ∧
      ring4.solve 1 [[1, 1]] [[0, 1]] = some [[0, 0]] ∧ ring4.solve 1 [[0, 0]] [[0, 1]] = none) :=
  ⟨by decide, by decide, ⟨by decide, by decide, by decide, ⟨2, by decide⟩, ⟨0, by decide⟩⟩,
    ⟨by unfold CellsHold; decide, by unfold CellsHold; decide, by decide⟩,
    by decide, by decide, by decide, by decide, by decide, by decide, by decide,
    by unfold CellsHold; decide, by unfold CellsHold; decide, by unfold CellsHold; decide, by decide, by decide⟩

/-- The points `1, 2, 3` over GF(5). -/
theorem witness_RscfgAndRscfgaConstructTheCodec : demo.fc.get 0 = some gf5 ∧ 3 = (demo.a.get 8).toNat ∧
    1 = (demo.a.get 7).toNat ∧ 1 ≤ 1 ∧ 1 < 3 ∧ 3 ≤ gf5.q - 1 ∧ 3 ≤ demo.params.nMax ∧
    [[1], [2], [3]].length = 3 ∧ (demo.a.get 9).toNat + 3 ≤ demo.params.emDepth ∧
    CellsHold demo.emem (demo.a.get 9).toNat (tagged 0 [[1], [2], [3]]) ∧
    (∀ u ∈ [[1], [2], [3]], u ≠ gf5.zero) ∧ ([[1], [2], [3]] : List Vec).Nodup :=
  ⟨by decide, by decide, by decide, by decide, by decide, by decide, by decide, by decide, by decide,
    by unfold CellsHold; decide, by decide, by decide⟩

/-- A state whose `N_MAX` is 2, so that `n = 3` is beyond it. -/
def smallNMax : State := { demo with params := { Params.ref with nMax := 2 } }

/-- No context; `n > q - 1`; `n > N_MAX`; a zero point and a repeated one. -/
theorem witness_CodecParametersRefused : demo.fc.get 3 = none ∧ demo.fc.get 0 = some gf5 ∧
    ¬ (1 ≤ 1 ∧ 1 < 5 ∧ 5 ≤ gf5.q - 1) ∧ ¬ (1 ≤ 0 ∧ 0 < 3 ∧ 3 ≤ gf5.q - 1) ∧
    (3 = (smallNMax.a.get 8).toNat ∧ 3 ≤ gf5.q - 1 ∧ smallNMax.params.nMax < 3) ∧
    (CellsHold demo.emem (demo.a.get 1).toNat (tagged 0 [[1], [0], [0]]) ∧ gf5.zero ∈ [[1], [0], [0]]) ∧
    (CellsHold demo.emem (demo.a.get 10).toNat (tagged 0 [[2], [2], [2]]) ∧ ¬ ([[2], [2], [2]] : List Vec).Nodup) :=
  ⟨by decide, by decide, by decide, by decide, by decide, ⟨by unfold CellsHold; decide, by decide⟩,
    by unfold CellsHold; decide, by decide⟩

theorem witness_RsencEvaluatesTheMessage : Inv demo ∧ demo.fc.get 2 = some gf11 ∧ demo.rs.get 2 = some codec11 ∧
    [[2], [3]].length = codec11.k ∧ (demo.a.get 5).toNat + codec11.k ≤ demo.params.emDepth ∧
    (demo.a.get 3).toNat + codec11.n ≤ demo.params.emDepth ∧
    CellsHold demo.emem (demo.a.get 5).toNat (tagged 2 [[2], [3]]) :=
  ⟨inv_demo, by decide, by decide, by decide, by decide, by decide, by unfold CellsHold; decide⟩

/-- `2, 2, 2` is near the message `2`; no message is near `1, 2, 3`. -/
theorem witness_RsdecReturnsTheNearMessage : Inv demo ∧ demo.fc.get 0 = some gf5 ∧ gf5.HasFieldRing ∧
    demo.rs.get 0 = some codec5 ∧ [[2], [2], [2]].length = codec5.n ∧ [[1], [2], [3]].length = codec5.n ∧
    (demo.a.get 10).toNat + codec5.n ≤ demo.params.emDepth ∧ (demo.a.get 9).toNat + codec5.n ≤ demo.params.emDepth ∧
    (demo.a.get 3).toNat + codec5.k ≤ demo.params.emDepth ∧
    CellsHold demo.emem (demo.a.get 10).toNat (tagged 0 [[2], [2], [2]]) ∧ gf5.Near codec5 [[2], [2], [2]] [[2]] ∧
    CellsHold demo.emem (demo.a.get 9).toNat (tagged 0 [[1], [2], [3]]) ∧
    ∀ msg, ¬ gf5.Near codec5 [[1], [2], [3]] msg := by
  refine ⟨inv_demo, by decide, field_ring_gf5, by decide, by decide, by decide, by decide, by decide, by decide,
    by unfold CellsHold; decide, ⟨by decide, by decide, by decide⟩, by unfold CellsHold; decide, ?_⟩
  rintro msg ⟨hl, hv, hd⟩
  obtain ⟨x, rfl⟩ := List.length_eq_one_iff.1 hl
  rcases vec_gf5 x (hv x (by simp)) with rfl | rfl | rfl | rfl | rfl <;> exact absurd hd (by decide)

theorem witness_RsdecNeverReturnsAFarMessage : Inv demo ∧ demo.fc.get 2 = some gf11 ∧ demo.rs.get 2 = some codec11 ∧
    [[5], [9], [0], [3], [6]].length = codec11.n ∧
    CellsHold demo.emem (demo.a.get 6).toNat (tagged 2 [[5], [9], [0], [3], [6]]) ∧
    exec (.rsdec 2 3 6) demo = .next (after (.rsdec 2 3 6) demo) ∧ (after (.rsdec 2 3 6) demo).status = 0 :=
  ⟨inv_demo, by decide, by decide, by decide, by unfold CellsHold; decide, exec_next _ _, by decide⟩

/-- Per clause: no codec; a range beyond EMEM; an empty cell; a cell of another context. -/
theorem witness_RsencAndRsdecTestInOrder : demo.rs.get 1 = none ∧ demo.rs.get 2 = some codec11 ∧ 1 ≤ codec11.k ∧
    1 ≤ codec11.n ∧ demo.params.emDepth < (demo.a.get 11).toNat + codec11.k ∧
    (demo.a.get 5).toNat + codec11.n ≤ demo.params.emDepth ∧ (demo.a.get 3).toNat + codec11.n ≤ demo.params.emDepth ∧
    (∃ i, i < codec11.k ∧ Memory.read demo.emem ((demo.a.get 3).toNat + i) = none) ∧
    (CellsHold demo.emem (demo.a.get 2).toNat (tagged 0 [[3], [4]]) ∧ (tagged 0 [[3], [4]]).length = codec11.k ∧
      ∃ x ∈ tagged 0 [[3], [4]], x.ctx ≠ 2) ∧
    (demo.rs.get 0 = some codec5 ∧ CellsHold demo.emem (demo.a.get 6).toNat (tagged 2 [[5], [9], [0]]) ∧
      (tagged 2 [[5], [9], [0]]).length = codec5.n ∧ ∃ x ∈ tagged 2 [[5], [9], [0]], x.ctx ≠ 0) :=
  ⟨by decide, by decide, by decide, by decide, by decide, by decide, by decide, ⟨0, by decide⟩,
    ⟨by unfold CellsHold; decide, by decide, by decide⟩, by decide, by unfold CellsHold; decide, by decide, by decide⟩

/-- Per clause: a range beyond EMEM; an empty cell; a cell of another context. -/
theorem witness_PevalAndRscfgTestTheirCells : 3 = (demo.a.get 8).toNat ∧ 1 ≤ 3 ∧
    demo.e.get 6 = some ⟨2, [4]⟩ ∧ demo.fc.get 0 = some gf5 ∧ 1 ≤ (demo.a.get 7).toNat ∧ (demo.a.get 7).toNat < 3 ∧
    3 ≤ gf5.q - 1 ∧ 3 ≤ demo.params.nMax ∧ demo.params.emDepth < (demo.a.get 11).toNat + 3 ∧
    (demo.a.get 3).toNat + 3 ≤ demo.params.emDepth ∧
    (∃ i, i < 3 ∧ Memory.read demo.emem ((demo.a.get 3).toNat + i) = none) ∧
    (CellsHold demo.emem (demo.a.get 9).toNat (tagged 0 [[1], [2], [3]]) ∧ ∃ y ∈ tagged 0 [[1], [2], [3]], y.ctx ≠ 2) ∧
    (CellsHold demo.emem (demo.a.get 6).toNat (tagged 2 [[5], [9], [0]]) ∧ ∃ y ∈ tagged 2 [[5], [9], [0]], y.ctx ≠ 0) :=
  ⟨by decide, by decide, by decide, by decide, by decide, by decide, by decide, by decide, by decide, by decide,
    ⟨0, by decide⟩, ⟨by unfold CellsHold; decide, by decide⟩, by unfold CellsHold; decide, by decide⟩

end Sys2Proof.Tests
end

section
/-! The step as a whole and the state after reset (00_scope.md): what the command port gives, what a step does
with a legal word, and that the state after reset meets the invariant. -/

namespace Sys2Proof.Machine

/-! ### The step -/

theorem acceptCommand_of_cons {s : State} {w : Word} {rest : List Word} (h : s.cmds = w :: rest) :
    acceptCommand s = some (w, { s with cmds := rest }) := by
  simp only [acceptCommand, h]

theorem step_of_accept_of_decode {s t : State} {w : Word} {i : Instr} (ha : acceptCommand s = some (w, t))
    (hd : decode w = .ok i) : step s = exec i t := by
  simp only [step, ha, hd]

/-- Settles O6: the port gives the word, and the decoder its command. -/
theorem stepRunsTheDecodedCommand : Obligations.StepRunsTheDecodedCommand := by
  intro s w rest i hcmds hdecode
  exact step_of_accept_of_decode (acceptCommand_of_cons hcmds) hdecode

/-! ### The state after reset (10_state.md R42) -/

@[simp] theorem resetWith_params (P : Params) : (State.resetWith P).params = P := rfl
@[simp] theorem resetWith_cbuf (P : Params) : (State.resetWith P).cbuf = [] := rfl
@[simp] theorem resetWith_emem (P : Params) : (State.resetWith P).emem = [] := rfl
@[simp] theorem resetWith_status (P : Params) : (State.resetWith P).status = 0 := rfl
@[simp] theorem resetWith_esr (P : Params) : (State.resetWith P).esr = 0 := rfl

@[simp] theorem resetWith_e_get (P : Params) (r : EReg) : (State.resetWith P).e.get r = none := get_replicate _ _

@[simp] theorem resetWith_fc_get (P : Params) (c : Ctx) : (State.resetWith P).fc.get c = none := get_replicate _ _

@[simp] theorem resetWith_rs_get (P : Params) (c : Ctx) : (State.resetWith P).rs.get c = none := get_replicate _ _

theorem layoutOk_resetWith (P : Params) (h : P.legal) : LayoutOk (State.resetWith P) where
  params := h
  memory := reset_memory_wf P
  cells := by simp
  buffer := by simp
  status := by simp
  esr := by simp

/-- Settles O16: the layout is that of the parameters, and the four other clauses are about valid registers,
cells and contexts, of which there are none after reset. -/
theorem resetMeetsTheInvariant : Obligations.ResetMeetsTheInvariant := by
  intro P hP
  exact {
    layout := layoutOk_resetWith P hP
    registers := by simp
    cells := by simp
    fields := by simp
    codecs := by simp }

end Sys2Proof.Machine
end

section
/-! The vectors of a field context (10_state.md R22): every field function answers one, whatever its operands. -/

namespace Sys2Proof.Machine

/-- What the invariant says of a constructed context: the ring, and the tables if there are any. -/
structure FieldCtx.Sound (F : FieldCtx) : Prop where
  ring : F.Ring
  tablesOk : ∀ T, F.tables = some T → F.TablesOk T

theorem Inv.sound {s : State} (h : Inv s) {c : Ctx} {F : FieldCtx} (hF : s.fc.get c = some F) : F.Sound :=
  ⟨(h.fields c F hF).1, (h.fields c F hF).2.2⟩

theorem fmod_lt (a : Int) {b : Nat} (hb : 0 < b) : fmod a b < b := by
  have h0 := Int.emod_nonneg a (by omega : (b : Int) ≠ 0)
  have h1 := Int.emod_lt_of_pos a (by omega : (0 : Int) < b)
  unfold fmod
  omega

theorem fmod_natCast (a b : Nat) : fmod (a : Int) b = a % b := by
  rw [fmod, ← Int.natCast_emod, Int.toNat_natCast]

theorem slot_of_lt {u : Vec} {i : Nat} (h : i < u.length) : slot u i = u[i] := by
  simp [slot, h]

theorem slot_of_le {u : Vec} {i : Nat} (h : u.length ≤ i) : slot u i = 0 := by
  simp [slot, h]

namespace FieldCtx

variable {F : FieldCtx}

theorem Ring.p_pos (h : F.Ring) : 0 < F.p := h.prime.pos

theorem Ring.one_lt_p (h : F.Ring) : 1 < F.p := h.prime.one_lt

theorem Ring.one_lt_q (h : F.Ring) : 1 < F.q :=
  h.order ▸ Nat.one_lt_pow (Nat.one_le_iff_ne_zero.1 h.degree) h.one_lt_p

/-! ### Coefficient-wise functions -/

theorem isVec_map_range {f : Nat → Nat} (h : ∀ i, f i < F.p) : F.IsVec ((List.range F.m).map f) :=
  ⟨by simp, by simpa using fun i _ => h i⟩

/-- A first coefficient followed by zeros. -/
theorem isVec_cons_zeros (h : F.Ring) {a : Nat} (ha : a < F.p) : F.IsVec (a :: List.replicate (F.m - 1) 0) := by
  have hm := h.degree
  refine ⟨by simp; omega, fun x hx => ?_⟩
  rcases List.mem_cons.1 hx with rfl | hx
  · exact ha
  · exact List.eq_of_mem_replicate hx ▸ h.p_pos

theorem isVec_zero (h : F.Ring) : F.IsVec F.zero :=
  ⟨by simp [zero], fun _ hx => List.eq_of_mem_replicate hx ▸ h.p_pos⟩

theorem isVec_one (h : F.Ring) : F.IsVec F.one := isVec_cons_zeros h h.one_lt_p

theorem isVec_promote (h : F.Ring) (v : Int) : F.IsVec (F.promote v) := isVec_cons_zeros h (fmod_lt v h.p_pos)

theorem isVec_unidx (h : F.Ring) (j : Nat) : F.IsVec (F.unidx j) := isVec_map_range fun _ => Nat.mod_lt _ h.p_pos

theorem isVec_add (h : F.Ring) (u v : Vec) : F.IsVec (F.add u v) := isVec_map_range fun _ => Nat.mod_lt _ h.p_pos

theorem isVec_sub (h : F.Ring) (u v : Vec) : F.IsVec (F.sub u v) := isVec_map_range fun _ => fmod_lt _ h.p_pos

theorem isVec_neg (h : F.Ring) (u : Vec) : F.IsVec (F.neg u) := isVec_map_range fun _ => fmod_lt _ h.p_pos

/-! ### The product under the direct rule (41_element.md R125) -/

theorem conv_lt (h : F.Ring) (u v : Vec) (k : Nat) : F.conv u v k < F.p := Nat.mod_lt _ h.p_pos

@[simp] theorem reduceAt_length (w : List Nat) (k : Nat) : (F.reduceAt w k).length = w.length := by
  simp [reduceAt]

theorem reduceAt_lt (h : F.Ring) {w : List Nat} (hw : ∀ x ∈ w, x < F.p) (k : Nat) :
    ∀ x ∈ F.reduceAt w k, x < F.p := by
  intro x hx
  obtain ⟨i, hi, rfl⟩ := List.mem_mapIdx.1 hx
  split
  · exact fmod_lt _ h.p_pos
  · exact hw _ (List.getElem_mem hi)

theorem foldl_reduceAt_length (ks : List Nat) (w : List Nat) : (ks.foldl F.reduceAt w).length = w.length := by
  induction ks generalizing w with
  | nil => rfl
  | cons k ks ih => simp [ih]

theorem foldl_reduceAt_lt (h : F.Ring) (ks : List Nat) {w : List Nat} (hw : ∀ x ∈ w, x < F.p) :
    ∀ x ∈ ks.foldl F.reduceAt w, x < F.p := by
  induction ks generalizing w with
  | nil => exact hw
  | cons k ks ih => exact ih (reduceAt_lt h hw k)

theorem isVec_dmul (h : F.Ring) (u v : Vec) : F.IsVec (F.dmul u v) := by
  have hm := h.degree
  refine ⟨?_, fun x hx => foldl_reduceAt_lt h _ ?_ x (List.mem_of_mem_take hx)⟩
  · simp only [dmul, List.length_take, foldl_reduceAt_length, List.length_map, List.length_range]
    omega
  · simpa using fun i _ => conv_lt h u v i

theorem isVec_power (h : F.Ring) (e : Vec) (n : Nat) : F.IsVec (F.power e n) := by
  cases n with
  | zero => exact isVec_one h
  | succ n => exact isVec_dmul h _ _

/-! ### The table path (41_element.md R126, R127) -/

/-- Every ALOG word that a lookup modulo `q - 1` can reach holds a vector. -/
theorem TablesOk.isVec_alogAt {T : Tables} (hT : F.TablesOk T) {i : Nat} (hi : i < F.q - 1) : F.IsVec (T.alogAt i) := by
  have hget := hT.powers i hi
  rw [Tables.alogAt, hget]
  exact hT.vecs _ (List.mem_of_getElem? hget)

theorem isVec_mul (h : F.Sound) (u v : Vec) : F.IsVec (F.mul u v) := by
  have hq := h.ring.one_lt_q
  unfold mul
  split
  · rename_i T hT
    split
    · exact isVec_zero h.ring
    · exact (h.tablesOk T hT).isVec_alogAt (Nat.mod_lt _ (by omega))
  · exact isVec_dmul h.ring u v

theorem isVec_quot (h : F.Sound) (u v : Vec) : F.IsVec (F.quot u v) := by
  have hq := h.ring.one_lt_q
  unfold quot
  split
  · rename_i T hT
    split
    · exact isVec_zero h.ring
    · exact (h.tablesOk T hT).isVec_alogAt (fmod_lt _ (by omega))
  · exact isVec_dmul h.ring _ _

theorem isVec_of_div (h : F.Sound) {u v w : Vec} (hw : F.div u v = .ok w) : F.IsVec w := by
  unfold div at hw
  split at hw
  · cases hw
  · obtain rfl := Except.ok.inj hw
    exact isVec_quot h u v

theorem isVec_horner (h : F.Sound) (L : List Vec) (x : Vec) : F.IsVec (F.horner L x) := by
  cases L with
  | nil => exact isVec_zero h.ring
  | cons c L => exact isVec_add h.ring _ _

/-! ### Lists of vectors: the elimination, the encoder, the decoder -/

theorem isVec_backSubstitute (h : F.Sound) (n : Nat) (M : List (List Vec)) (count : Nat) :
    ∀ x ∈ F.backSubstitute n M count, F.IsVec x := by
  induction count with
  | zero => simp [backSubstitute]
  | succ count ih =>
    intro x hx
    rcases List.mem_cons.1 hx with rfl | hx
    · exact isVec_quot h _ _
    · exact ih x hx

theorem isVec_solve (h : F.Sound) {n : Nat} {MA Mb xs : List Vec} (hxs : F.solve n MA Mb = some xs) :
    ∀ x ∈ xs, F.IsVec x := by
  obtain ⟨M, -, rfl⟩ := Option.map_eq_some_iff.1 hxs
  exact isVec_backSubstitute h n M n

theorem isVec_rsEncode (h : F.Sound) (R : Codec) (msg : List Vec) : ∀ x ∈ F.rsEncode R msg, F.IsVec x := by
  simpa [rsEncode] using fun i _ => isVec_horner h msg (R.point i)

/-- The two lists of the division's loop hold vectors, and the remainder keeps its length. -/
theorem isVec_foldl_divStep (h : F.Ring) (E : List Vec) (e : Nat) (ds : List Nat) (st : List Vec × List Vec)
    (hds : ∀ d ∈ ds, d < st.2.length) (hq : ∀ x ∈ st.1, F.IsVec x) (hr : ∀ x ∈ st.2, F.IsVec x) :
    ∀ x ∈ (ds.foldl (F.divStep E e) st).1, F.IsVec x := by
  induction ds generalizing st with
  | nil => exact hq
  | cons d ds ih =>
    have hd : d < st.2.length := hds d (by simp)
    refine ih _ ?_ ?_ ?_
    · simpa [divStep] using fun d' hd' => hds d' (List.mem_cons_of_mem _ hd')
    · intro x hx
      rcases List.mem_or_eq_of_mem_set hx with hx | rfl
      · exact hq x hx
      · simpa [hd] using hr _ (List.getElem_mem hd)
    · intro x hx
      obtain ⟨i, hi, rfl⟩ := List.mem_mapIdx.1 hx
      split
      · exact isVec_sub h _ _
      · exact hr _ (List.getElem_mem hi)

theorem isVec_polyDivMod (h : F.Ring) {k e : Nat} {Q E : List Vec} (hlen : k + e ≤ Q.length)
    (hQ : ∀ x ∈ Q, F.IsVec x) : ∀ x ∈ (F.polyDivMod k e Q E).1, F.IsVec x := by
  refine isVec_foldl_divStep h E e _ _ ?_ ?_ hQ
  · simp only [List.mem_map, List.mem_reverse, List.mem_range]
    rintro d ⟨i, hi, rfl⟩
    show i + e < Q.length
    omega
  · exact fun x hx => List.eq_of_mem_replicate hx ▸ isVec_zero h

theorem isVec_bwCandidate (h : F.Ring) {R : Codec} {r xs msg : List Vec} {e : Nat} (hlen : R.k + e ≤ xs.length)
    (hxs : ∀ x ∈ xs, F.IsVec x) (hmsg : F.bwCandidate R r e xs = .ok msg) : ∀ x ∈ msg, F.IsVec x := by
  simp only [bwCandidate, except_bind_eq_ok, except_pure, Except.ok.injEq] at hmsg
  obtain ⟨-, -, -, -, -, -, rfl⟩ := hmsg
  intro x hx
  rcases List.mem_append.1 hx with hx | hx
  · exact isVec_polyDivMod h (by simp; omega) (fun y hy => hxs y (List.mem_of_mem_take hy)) x
      (List.mem_of_mem_take hx)
  · exact List.eq_of_mem_replicate hx ▸ isVec_zero h

theorem isVec_bwTrials (h : F.Sound) {R : Codec} {r msg : List Vec} (e : Nat) (hmsg : F.bwTrials R r e = .ok msg) :
    ∀ x ∈ msg, F.IsVec x := by
  induction e with
  | zero =>
    rw [bwTrials] at hmsg
    split at hmsg
    · rename_i xs hxs
      exact isVec_bwCandidate h.ring (solve_length F _ _ _ xs hxs).ge (isVec_solve h hxs) hmsg
    · cases hmsg
  | succ e ih =>
    rw [bwTrials] at hmsg
    split at hmsg
    · rename_i xs hxs
      have hlen := solve_length F _ _ _ xs hxs
      exact isVec_bwCandidate h.ring (by omega) (isVec_solve h hxs) hmsg
    · exact ih hmsg

theorem isVec_bwDecode (h : F.Sound) {R : Codec} {r msg : List Vec} (hmsg : F.bwDecode R r = .ok msg) :
    ∀ x ∈ msg, F.IsVec x := isVec_bwTrials h R.emax hmsg

/-- A staged sequence that EMK accepts is a vector (40_field.md R98). -/
theorem isVec_elementOfSequence (h : F.Ring) {cbuf : List Int} {u : Vec} (hu : elementOfSequence F cbuf = .ok u) :
    F.IsVec u := by
  simp only [elementOfSequence, except_bind_eq_ok, require_eq_ok, except_pure, Except.ok.injEq,
    decide_eq_true_eq, List.all_eq_true, inRange, Bool.and_eq_true] at hu
  obtain ⟨-, hlen, -, hrange, rfl⟩ := hu
  refine ⟨by simp; omega, fun x hx => ?_⟩
  rcases List.mem_append.1 hx with hx | hx
  · obtain ⟨a, ha, rfl⟩ := List.mem_map.1 hx
    have := hrange a ha
    omega
  · exact List.eq_of_mem_replicate hx ▸ h.p_pos

end FieldCtx

end Sys2Proof.Machine
end

section
/-! The canonical index (41_element.md R121) as digits to the base `p`, and the products by the two identities under
the direct rule. -/

namespace Sys2Proof.Machine.FieldCtx

variable {F : FieldCtx}

/-! ### The canonical index -/

theorem idx_eq_ofDigits (F : FieldCtx) (u : Vec) : F.idx u = Nat.ofDigits F.p u := by
  rw [Nat.ofDigits_eq_foldr]
  rfl

theorem idx_lt (h : F.Ring) {u : Vec} (hu : F.IsVec u) : F.idx u < F.q := by
  rw [idx_eq_ofDigits, h.order, ← hu.1]
  exact Nat.ofDigits_lt_base_pow_length h.one_lt_p hu.2

theorem idx_injective (h : F.Ring) {u v : Vec} (hu : F.IsVec u) (hv : F.IsVec v) (huv : F.idx u = F.idx v) :
    u = v := by
  rw [idx_eq_ofDigits, idx_eq_ofDigits] at huv
  exact Nat.ofDigits_inj_of_len_eq h.one_lt_p (hu.1.trans hv.1.symm) hu.2 hv.2 huv

theorem ofDigits_of_coefficients (p m j : Nat) :
    Nat.ofDigits p ((List.range m).map (fun i => j / p ^ i % p)) = j % p ^ m := by
  induction m generalizing j with
  | zero => simp [Nat.mod_one]
  | succ m ih =>
    have hshift : ∀ i, j / p ^ (i + 1) % p = j / p / p ^ i % p := fun i => by
      rw [Nat.div_div_eq_div_mul, Nat.pow_succ']
    simp only [List.range_succ_eq_map, List.map_cons, List.map_map, Nat.ofDigits_cons, pow_zero, Nat.div_one,
      Function.comp_def, Nat.succ_eq_add_one, hshift, ih]
    rw [Nat.pow_succ', Nat.mod_mul]

theorem idx_unidx (h : F.Ring) {j : Nat} (hj : j < F.q) : F.idx (F.unidx j) = j := by
  rw [idx_eq_ofDigits, unidx, ofDigits_of_coefficients, ← h.order, Nat.mod_eq_of_lt hj]

theorem idx_zero (F : FieldCtx) : F.idx F.zero = 0 := by
  rw [idx_eq_ofDigits, zero, Nat.ofDigits_replicate_zero]

theorem idx_pos (h : F.Ring) {u : Vec} (hu : F.IsVec u) (hne : u ≠ F.zero) : 0 < F.idx u :=
  Nat.pos_of_ne_zero fun h0 => hne (idx_injective h hu (isVec_zero h) (h0.trans F.idx_zero.symm))

theorem unidx_ne_zero (h : F.Ring) {j : Nat} (h1 : 1 ≤ j) (hj : j < F.q) : F.unidx j ≠ F.zero := by
  intro h0
  have hj0 := idx_unidx h hj
  rw [h0, idx_zero] at hj0
  omega

theorem one_ne_zero (h : F.Ring) : F.one ≠ F.zero := by
  have hm := h.degree
  obtain ⟨m, hm⟩ : ∃ m, F.m = m + 1 := ⟨F.m - 1, by omega⟩
  simp [one, zero, hm, List.replicate_succ]

/-! ### The products by zero and by one -/

theorem reduceAt_of_slot_zero {w : List Nat} {k : Nat} (hw : ∀ x ∈ w, x < F.p) (hk : slot w k = 0) :
    F.reduceAt w k = w := by
  rw [reduceAt, hk]
  refine List.ext_getElem (by simp) fun i _ hi => ?_
  simp only [List.getElem_mapIdx, Nat.cast_zero, zero_mul, sub_zero]
  split
  · exact (fmod_natCast _ _).trans (Nat.mod_eq_of_lt (hw _ (List.getElem_mem hi)))
  · rfl

/-- Nothing is subtracted while the leading coefficients are zero. -/
theorem foldl_reduceAt_of_slots_zero {w : List Nat} {ks : List Nat} (hw : ∀ x ∈ w, x < F.p)
    (hks : ∀ k ∈ ks, slot w k = 0) : ks.foldl F.reduceAt w = w := by
  induction ks with
  | nil => rfl
  | cons k ks ih =>
    rw [List.foldl_cons, reduceAt_of_slot_zero hw (hks k (by simp))]
    exact ih fun k' hk' => hks k' (List.mem_cons_of_mem _ hk')

/-- A product that is of degree less than `m` before the reduction is the result. -/
theorem dmul_of_conv (h : F.Ring) {u v x : Vec} (hx : F.IsVec x) (hconv : ∀ k, F.conv u v k = slot x k) :
    F.dmul u v = x := by
  have hm := h.degree
  have hw : ∀ y ∈ (List.range (2 * F.m - 1)).map (F.conv u v), y < F.p := by simpa using fun i _ => conv_lt h u v i
  have hzero : ∀ k ∈ (List.range (F.m - 1)).reverse.map (fun i => i + F.m),
      slot ((List.range (2 * F.m - 1)).map (F.conv u v)) k = 0 := by
    simp only [List.mem_map, List.mem_reverse, List.mem_range]
    rintro k ⟨i, hi, rfl⟩
    rw [slot_of_lt (by simp; omega)]
    simp only [List.getElem_map, List.getElem_range, hconv]
    exact slot_of_le (by rw [hx.1]; omega)
  rw [dmul, foldl_reduceAt_of_slots_zero hw hzero]
  refine List.ext_getElem (by simp [hx.1]; omega) fun i _ hi => ?_
  simp only [List.getElem_take, List.getElem_map, List.getElem_range, hconv]
  exact slot_of_lt hi

theorem slot_zero (F : FieldCtx) (i : Nat) : slot F.zero i = 0 := by
  simp [slot, zero]

theorem slot_one (F : FieldCtx) (i : Nat) : slot F.one i = if i = 0 then 1 else 0 := by
  cases i <;> simp [slot, one]

theorem dmul_zero_left (h : F.Ring) (v : Vec) : F.dmul F.zero v = F.zero :=
  dmul_of_conv h (isVec_zero h) fun k => by simp [conv, slot_zero]

theorem dmul_one_left (h : F.Ring) {v : Vec} (hv : F.IsVec v) : F.dmul F.one v = v := by
  refine dmul_of_conv h hv fun k => ?_
  have hm := h.degree
  have hterm : ∀ i, (if i ≤ k ∧ k - i < F.m then slot F.one i * slot v (k - i) else 0) =
      if i = 0 then slot v k else 0 := by
    intro i
    rw [slot_one]
    rcases Nat.eq_zero_or_pos i with rfl | hi
    · by_cases hk : k < F.m
      · simp [hk]
      · simp [hk, slot_of_le (show v.length ≤ k by omega)]
    · simp [hi.ne']
  obtain ⟨m, hm⟩ : ∃ m, F.m = m + 1 := ⟨F.m - 1, by omega⟩
  have hlt : slot v k < F.p := by
    by_cases hk : k < v.length
    · exact slot_of_lt hk ▸ hv.2 _ (List.getElem_mem hk)
    · exact slot_of_le (not_lt.1 hk) ▸ h.p_pos
  rw [conv, List.map_congr_left fun i _ => hterm i, hm, List.range_succ_eq_map]
  simp [Function.comp_def, Nat.mod_eq_of_lt hlt]

end Sys2Proof.Machine.FieldCtx
end

section
/-! Field construction (40_field.md R92 to R97): which requests FCFG accepts, what the order test decides, and that
the tables it builds are the powers of a primitive element and their inverse. -/

namespace Sys2Proof.Machine

/-! ### The request (R93 to R95) -/

theorem capacity_eq_ok (P : Params) (p m : Nat) (u : Unit) :
    capacity P p m = .ok u ↔ p ≤ P.pMax ∧ m ≤ P.mMax ∧ p ^ m ≤ P.qMax := by
  simp [capacity, except_bind_eq_ok, require_eq_ok, and_assoc]

/-- Trial division from `d` on: the turns cover every candidate up to the root of `p`. -/
theorem noDivisorFrom_iff {p fuel d : Nat} (hfuel : p < (d + fuel) * (d + fuel)) :
    noDivisorFrom p fuel d = true ↔ ∀ e, d ≤ e → e * e ≤ p → ¬ e ∣ p := by
  induction fuel generalizing d with
  | zero =>
    refine iff_of_true rfl fun e hde he => ?_
    have := Nat.mul_self_le_mul_self hde
    simp only [Nat.add_zero] at hfuel
    omega
  | succ fuel ih =>
    rw [noDivisorFrom]
    split
    · refine iff_of_true rfl fun e hde he => ?_
      have := Nat.mul_self_le_mul_self hde
      omega
    · split
      · rename_i hle hmod
        exact iff_of_false (by simp) fun hall => hall d le_rfl (not_lt.1 hle) (Nat.dvd_of_mod_eq_zero hmod)
      · rename_i hle hmod
        rw [ih (by rwa [Nat.add_assoc, Nat.add_comm 1])]
        refine ⟨fun hall e hde => ?_, fun hall e hde => hall e (by omega)⟩
        rcases hde.eq_or_lt with rfl | hlt
        · exact fun _ hdvd => hmod (Nat.mod_eq_zero_of_dvd hdvd)
        · exact hall e hlt

/-- Trial division decides primality (R94). -/
theorem primeByTrial_iff (p : Nat) : primeByTrial p = true ↔ p.Prime := by
  have hfuel : p < (2 + p) * (2 + p) := by nlinarith
  simp only [primeByTrial, Bool.and_eq_true, decide_eq_true_eq, noDivisorFrom_iff hfuel, Nat.prime_def_le_sqrt,
    Nat.le_sqrt]

theorem cbuf_inRange_iff (p : Nat) (cbuf : List Int) :
    cbuf.all (inRange p) = true ↔ ∀ x ∈ cbuf, 0 ≤ x ∧ x < (p : Int) := by
  simp [inRange]

theorem validate_eq_ok (p m : Nat) (cbuf : List Int) (g : List Nat) :
    validate p m cbuf = .ok g ↔
      p.Prime ∧ 1 ≤ m ∧ (m = 1 ∨ StagedPoly p m cbuf) ∧ g = (plainField p m cbuf).g := by
  simp only [validate, except_bind_eq_ok, require_eq_ok, Bool.and_eq_true, decide_eq_true_eq, primeByTrial_iff,
    plainField]
  by_cases hm : m = 1
  · subst hm
    simp [eq_comm]
  · simp only [hm, if_false, except_bind_eq_ok, require_eq_ok, cbuf_inRange_iff, beq_iff_eq, decide_eq_true_eq,
      except_pure, Except.ok.injEq, false_or]
    constructor
    · rintro ⟨-, ⟨hm1, hp⟩, -, hlen, -, htop, -, hrange, rfl⟩
      exact ⟨hp, hm1, ⟨hlen, htop, hrange⟩, rfl⟩
    · rintro ⟨hp, hm1, ⟨hlen, htop, hrange⟩, rfl⟩
      exact ⟨(), ⟨hm1, hp⟩, (), hlen, (), htop, (), hrange, rfl⟩

/-- What FCFG constructs: from a valid request the plain context, and with `fp` the tables of the primitive element
that the search finds (R92). -/
theorem construct_eq_ok (P : Params) (p m : Nat) (cbuf : List Int) (fp : Bool) (F : FieldCtx) :
    construct P p m cbuf fp = .ok F ↔
      FcfgValid P p m cbuf ∧
        ((fp = false ∧ F = plainField p m cbuf) ∨
          (fp = true ∧ ∃ prim, findPrimitive (plainField p m cbuf) = some prim ∧
            F = { plainField p m cbuf with tables := some (buildTables (plainField p m cbuf) prim) })) := by
  simp only [construct, except_bind_eq_ok, capacity_eq_ok, validate_eq_ok]
  constructor
  · rintro ⟨-, ⟨hp, hm, hq⟩, g, ⟨hprime, hm1, hg, rfl⟩, hF⟩
    refine ⟨⟨hp, hm, hq, hprime, hm1, hg⟩, ?_⟩
    cases fp with
    | false => exact .inl ⟨rfl, (Except.ok.inj hF).symm⟩
    | true =>
      change (match findPrimitive (plainField p m cbuf) with
        | some prim => _
        | none => _) = _ at hF
      cases hprim : findPrimitive (plainField p m cbuf) with
      | none => rw [hprim] at hF; cases hF
      | some prim => rw [hprim] at hF; exact .inr ⟨rfl, prim, rfl, (Except.ok.inj hF).symm⟩
  · rintro ⟨⟨hp, hm, hq, hprime, hm1, hg⟩, hF⟩
    refine ⟨(), ⟨hp, hm, hq⟩, _, ⟨hprime, hm1, hg, rfl⟩, ?_⟩
    rcases hF with ⟨rfl, rfl⟩ | ⟨rfl, prim, hprim, rfl⟩
    · rfl
    · change (match findPrimitive (plainField p m cbuf) with
        | some prim => _
        | none => _) = _
      rw [hprim]
      rfl

theorem ring_plainField {P : Params} {p m : Nat} {cbuf : List Int} (h : FcfgValid P p m cbuf) :
    (plainField p m cbuf).Ring := by
  obtain ⟨-, -, -, hp, hm, hg⟩ := h
  by_cases hm1 : m = 1
  · subst hm1
    exact ⟨hp, hm, rfl, rfl, rfl, by simpa [plainField] using ⟨hp.pos, hp.one_lt⟩, fun _ => rfl⟩
  · obtain ⟨hlen, htop, hrange⟩ := hg.resolve_left hm1
    have hpg : (plainField p m cbuf).g = cbuf.map Int.toNat := by simp [plainField, hm1]
    refine ⟨hp, hm, rfl, by rw [hpg, List.length_map]; exact hlen, ?_, ?_, fun h => absurd h hm1⟩
    · show slot (plainField p m cbuf).g m = 1
      simp [hpg, slot, htop]
    · rw [hpg]
      intro x hx
      obtain ⟨a, ha, rfl⟩ := List.mem_map.1 hx
      have := hrange a ha
      show a.toNat < p
      omega

namespace FieldCtx

variable {F : FieldCtx}

/-! ### The order test (R96) -/

theorem power_one (h : F.Ring) {e : Vec} (he : F.IsVec e) : F.power e 1 = e := dmul_one_left h he

/-- The loop of the order test from exponent `i`: the identity is reached at `q - 1` and not before. -/
theorem orderTest_power_iff {e : Vec} {fuel i : Nat} (hi : i ≤ F.q - 1) (hfuel : F.q - 1 - i < fuel) :
    orderTest F e fuel (F.power e i) i = true ↔
      F.power e (F.q - 1) = F.one ∧ ∀ j, i ≤ j → j < F.q - 1 → F.power e j ≠ F.one := by
  induction fuel generalizing i with
  | zero => omega
  | succ fuel ih =>
    rw [orderTest]
    split
    · rename_i hstop
      simp only [Bool.and_eq_true, decide_eq_true_eq]
      constructor
      · rintro ⟨hone, rfl⟩
        exact ⟨hone, fun j _ _ => by omega⟩
      · rintro ⟨hone, hbefore⟩
        have hlast : i = F.q - 1 := by
          by_contra hne
          exact hbefore i le_rfl (by omega) (hstop.resolve_right (by omega))
        exact ⟨hlast ▸ hone, hlast⟩
    · rename_i hgo
      obtain ⟨hone, hlt⟩ := not_or.1 hgo
      rw [show F.dmul (F.power e i) e = F.power e (i + 1) from rfl, ih (by omega) (by omega)]
      refine and_congr_right fun _ => ⟨fun hall j hij hj => ?_, fun hall j hij => hall j (by omega)⟩
      rcases hij.eq_or_lt with rfl | hlt
      · exact hone
      · exact hall j hlt hj

/-- The order test decides primitivity. -/
theorem orderTest_iff (h : F.Ring) {e : Vec} (he : F.IsVec e) : orderTest F e F.q e 1 = true ↔ F.IsPrimitive e := by
  have hq := h.one_lt_q
  have hloop := orderTest_power_iff (F := F) (e := e) (i := 1) (fuel := F.q) (by omega) (by omega)
  rwa [power_one h he] at hloop

theorem findPrimitive_eq_some (h : F.Ring) {prim : Vec} (hprim : findPrimitive F = some prim) :
    F.IsVec prim ∧ F.IsPrimitive prim := by
  unfold findPrimitive at hprim
  have htest := List.find?_some hprim
  obtain ⟨j, -, rfl⟩ := List.mem_map.1 (List.mem_of_find?_eq_some hprim)
  exact ⟨isVec_unidx h _, (orderTest_iff h (isVec_unidx h _)).1 htest⟩

/-! ### The powers of a primitive element

Multiplying by `e` is a function of the vector, so equal powers stay equal: the orbit of the identity needs no law of
the product to be injective before it returns. -/

theorem power_add_congr {e : Vec} {i j : Nat} (h : F.power e i = F.power e j) (k : Nat) :
    F.power e (i + k) = F.power e (j + k) := by
  induction k with
  | zero => exact h
  | succ k ih => exact congrArg (F.dmul · e) ih

theorem power_ne_of_lt {e : Vec} (he : F.IsPrimitive e) {i j : Nat} (hij : i < j) (hj : j < F.q - 1) :
    F.power e i ≠ F.power e j := by
  intro heq
  have hreturn := power_add_congr heq (F.q - 1 - j)
  rw [show j + (F.q - 1 - j) = F.q - 1 by omega, he.1] at hreturn
  exact he.2 _ (by omega) (by omega) hreturn

theorem power_injective {e : Vec} (he : F.IsPrimitive e) {i j : Nat} (hi : i < F.q - 1) (hj : j < F.q - 1)
    (heq : F.power e i = F.power e j) : i = j := by
  rcases lt_trichotomy i j with hlt | rfl | hlt
  · exact absurd heq (power_ne_of_lt he hlt hj)
  · rfl
  · exact absurd heq.symm (power_ne_of_lt he hlt hi)

theorem power_zero_absorbs (h : F.Ring) {e : Vec} {i : Nat} (hi : F.power e i = F.zero) (k : Nat) :
    F.power e (i + k) = F.zero := by
  induction k with
  | zero => exact hi
  | succ k ih => exact (congrArg (F.dmul · e) ih).trans (dmul_zero_left h e)

theorem power_ne_zero (h : F.Ring) {e : Vec} (he : F.IsPrimitive e) {i : Nat} (hi : i ≤ F.q - 1) :
    F.power e i ≠ F.zero := by
  intro hzero
  have hlast := power_zero_absorbs h hzero (F.q - 1 - i)
  rw [Nat.add_sub_cancel' hi, he.1] at hlast
  exact one_ne_zero h hlast

theorem idx_power_injective (h : F.Ring) {e : Vec} (he : F.IsPrimitive e) {i j : Nat} (hi : i < F.q - 1)
    (hj : j < F.q - 1) (heq : F.idx (F.power e i) = F.idx (F.power e j)) : i = j :=
  power_injective he hi hj (idx_injective h (isVec_power h e i) (isVec_power h e j) heq)

/-- There are as many powers as nonzero indices, so every one is met. -/
theorem exists_power_of_idx (h : F.Ring) {e : Vec} (he : F.IsPrimitive e) {j : Nat} (h1 : 1 ≤ j) (hj : j < F.q) :
    ∃ i, i < F.q - 1 ∧ F.idx (F.power e i) = j := by
  have hmaps : Set.MapsTo (fun i => F.idx (F.power e i)) (Finset.range (F.q - 1)) (Finset.Ico 1 F.q) := by
    intro i hi
    have hi : i < F.q - 1 := by simpa using hi
    simpa using ⟨idx_pos h (isVec_power h e i) (power_ne_zero h he hi.le), idx_lt h (isVec_power h e i)⟩
  have hinj : Set.InjOn (fun i => F.idx (F.power e i)) (Finset.range (F.q - 1)) := by
    intro i hi k hk heq
    exact idx_power_injective h he (by simpa using hi) (by simpa using hk) heq
  obtain ⟨i, hi, heq⟩ := Finset.surjOn_of_injOn_of_card_le _ hmaps hinj (by simp) (by simpa using ⟨h1, hj⟩ : j ∈ _)
  exact ⟨i, by simpa using hi, heq⟩

/-! ### The tables (R97) -/

theorem powersFrom_power (e : Vec) (n k : Nat) :
    powersFrom F e n (F.power e k) = (List.range n).map (fun i => F.power e (k + i)) := by
  induction n generalizing k with
  | zero => rfl
  | succ n ih =>
    rw [powersFrom, show F.dmul (F.power e k) e = F.power e (k + 1) from rfl, ih, List.range_succ_eq_map]
    simp [Function.comp_def, Nat.add_assoc, Nat.add_comm 1]

theorem alog_buildTables (e : Vec) : (buildTables F e).alog = (List.range (F.q - 1)).map (F.power e) := by
  exact (powersFrom_power e (F.q - 1) 0).trans (by simp)

theorem fillLog_length (ts : List Vec) (i : Nat) (log : List (Option Nat)) :
    (fillLog F ts i log).length = log.length := by
  induction ts generalizing i log with
  | nil => rfl
  | cons t ts ih => simp [fillLog, ih]

theorem fillLog_other {ts : List Vec} {j : Nat} (h : ∀ t ∈ ts, F.idx t ≠ j) (i : Nat) (log : List (Option Nat)) :
    (fillLog F ts i log)[j]? = log[j]? := by
  induction ts generalizing i log with
  | nil => rfl
  | cons t ts ih =>
    rw [fillLog, ih (fun u hu => h u (List.mem_cons_of_mem _ hu)), List.getElem?_set_ne (h t (by simp))]

theorem fillLog_same {ts : List Vec} (hts : ts.Pairwise (fun t u => F.idx t ≠ F.idx u)) {k : Nat} {t : Vec}
    (hk : ts[k]? = some t) (i : Nat) {log : List (Option Nat)} (hlog : F.idx t < log.length) :
    (fillLog F ts i log)[F.idx t]? = some (some (i + k)) := by
  induction ts generalizing i k log with
  | nil => simp at hk
  | cons u ts ih =>
    obtain ⟨hu, hts⟩ := List.pairwise_cons.1 hts
    rw [fillLog]
    cases k with
    | zero =>
      obtain rfl : u = t := by simpa using hk
      rw [fillLog_other fun v hv => (hu v hv).symm, List.getElem?_set_self hlog]
      rfl
    | succ k =>
      rw [ih hts (by simpa using hk) (i + 1) (by simpa using hlog), Nat.add_assoc, Nat.add_comm 1]

theorem pairwise_idx_powers (h : F.Ring) {e : Vec} (he : F.IsPrimitive e) :
    ((List.range (F.q - 1)).map (F.power e)).Pairwise (fun t u => F.idx t ≠ F.idx u) := by
  rw [List.pairwise_map]
  refine List.pairwise_lt_range.imp_of_mem fun {i j} hi hj hij heq => ?_
  exact hij.ne (idx_power_injective h he (List.mem_range.1 hi) (List.mem_range.1 hj) heq)

/-- The tables of a primitive element are what R28 to R30 say. -/
theorem tablesOk_buildTables (h : F.Ring) {e : Vec} (hvec : F.IsVec e) (he : F.IsPrimitive e) :
    F.TablesOk (buildTables F e) := by
  have hq := h.one_lt_q
  have halog := alog_buildTables (F := F) e
  have hpowers : ∀ i, i < F.q - 1 → (buildTables F e).alog[i]? = some (F.power e i) := by
    intro i hi
    simp [halog, hi]
  have hlog : ∀ i u, (buildTables F e).alog[i]? = some u →
      i < F.q - 1 ∧ u = F.power e i ∧ (buildTables F e).log[F.idx u]? = some (some i) := by
    intro i u hu
    have hi : i < F.q - 1 := by
      simpa [halog] using (List.getElem?_eq_some_iff.1 hu).1
    obtain rfl : u = F.power e i := Option.some.inj (hu.symm.trans (hpowers i hi))
    have hlt : F.idx (F.power e i) < (List.replicate F.q (none : Option Nat)).length := by
      simpa using idx_lt h (isVec_power h e i)
    have hfill := fillLog_same (halog ▸ pairwise_idx_powers h he) hu 0 hlt
    rw [Nat.zero_add] at hfill
    exact ⟨hi, rfl, hfill⟩
  exact {
    primVec := hvec
    logSize := (fillLog_length _ _ _).trans List.length_replicate
    logZero := by
      have hpos : ∀ t ∈ (buildTables F e).alog, F.idx t ≠ 0 := by
        rw [halog]
        intro t ht
        obtain ⟨i, hi, rfl⟩ := List.mem_map.1 ht
        exact (idx_pos h (isVec_power h e i) (power_ne_zero h he (List.mem_range.1 hi).le)).ne'
      exact (fillLog_other hpos 0 _).trans (List.getElem?_replicate_of_lt (by omega))
    alogSize := by simp [halog]
    powers := hpowers
    vecs := by
      rw [halog]
      intro u hu
      obtain ⟨i, -, rfl⟩ := List.mem_map.1 hu
      exact isVec_power h e i
    alogOfLog := by
      intro j h1 hj
      obtain ⟨i, hi, rfl⟩ := exists_power_of_idx h he h1 hj
      exact ⟨i, _, (hlog i _ (hpowers i hi)).2.2, hi, hpowers i hi, rfl⟩
    logOfAlog := fun i u hu => (hlog i u hu).2.2
    alogZero := hpowers 0 (by omega)
    alogOne := fun h2 => (hpowers 1 (by omega)).trans (congrArg some (power_one h hvec)) }

end FieldCtx

/-- Whether a context has tables changes none of the arithmetic that the tables are stated in. -/
theorem FieldCtx.TablesOk.with_tables {F : FieldCtx} {T : Tables} (h : F.TablesOk T) :
    ({ F with tables := some T } : FieldCtx).TablesOk T := by
  have hpower : ∀ e n, ({ F with tables := some T } : FieldCtx).power e n = F.power e n := by
    intro e n
    induction n with
    | zero => rfl
    | succ n ih => exact congrArg (F.dmul · e) ih
  exact { h with powers := fun i hi => (h.powers i hi).trans (congrArg some (hpower _ _).symm) }

/-- Every context that FCFG constructs is one the invariant allows (R92 to R97). -/
theorem construct_sound {P : Params} {p m : Nat} {cbuf : List Int} {fp : Bool} {F : FieldCtx}
    (h : construct P p m cbuf fp = .ok F) : F.Sound ∧ F.Fits P := by
  obtain ⟨hvalid, hF⟩ := (construct_eq_ok P p m cbuf fp F).1 h
  have hring := ring_plainField hvalid
  obtain ⟨hp, hm, hq, -⟩ := hvalid
  rcases hF with ⟨-, rfl⟩ | ⟨-, prim, hprim, rfl⟩
  · exact ⟨⟨hring, fun T hT => by cases hT⟩, hp, hm, hq⟩
  · obtain ⟨hvec, hprimitive⟩ := FieldCtx.findPrimitive_eq_some hring hprim
    have htables := (FieldCtx.tablesOk_buildTables hring hvec hprimitive).with_tables
    exact ⟨⟨{ hring with }, fun T hT => by obtain rfl := Option.some.inj hT; exact htables⟩, hp, hm, hq⟩

end Sys2Proof.Machine
end

section
/-! What a command that completes has written, said once for all 35 commands (10_state.md R21 to R31, R34, R40), and
from it what every command and every step leave. -/

namespace Sys2Proof.Machine

/-! ### The kinds of writes -/

/-- `Effect s i t`: the command `i`, started in `s`, has made the writes that give `t`, but for `STATUS` and the
response. The values written are what the invariant asks, if the state before meets it. -/
inductive Effect (s : State) : Instr → State → Prop
  | nothing {i : Instr} (hi : i ≠ .clre) : Effect s i s
  | argument (ad : AReg) (imm : Nat) : Effect s (.seta ad imm) (writeA s ad (BitVec.ofNat 20 imm))
  | esrCleared : Effect s .clre { s with esr := 0 }
  | bufferCleared : Effect s .cclr { s with cbuf := [] }
  | pushed (v : Int) (hroom : s.cbuf.length ≠ s.params.mMax + 1) :
      Effect s (.cpush v) { s with cbuf := s.cbuf ++ [BitVec.ofInt 16 v] }
  | register {i : Instr} (ed : EReg) (x : Elem) (hi : destinationOf i = some ed) (hx : Inv s → ElemOk s x) :
      Effect s i (writeE s ed x)
  | made (ed : EReg) (c : Ctx) (x : Elem) (hx : Inv s → ElemOk s x) :
      Effect s (.emk ed c) { writeE s ed x with cbuf := [] }
  | stored {i : Instr} (base : Nat) (L : List Elem) (hi : i ≠ .clre)
      (hcells : destinationCells s i = (base, L.length))
      (hfits : L.length = 0 ∨ base + L.length ≤ s.params.emDepth) (hL : Inv s → ∀ x ∈ L, ElemOk s x) :
      Effect s i { s with emem := Memory.writeRange s.emem base L }
  | codec {i : Instr} (c : Ctx) (R : Codec)
      (hi : (∃ an ak ax, i = .rscfg c an ak ax) ∨ ∃ an ak, i = .rscfga c an ak) (hR : Inv s → CodecOk s c R) :
      Effect s i (writeCodec s c R)
  | field (c : Ctx) (ap : AReg) (m : Nat) (fp : Bool) (F : FieldCtx) (hF : F.Sound) (hfits : F.Fits s.params) :
      Effect s (.fcfg c ap m fp) (installField s c F)

/-- The outcome `o` of a command started in `s` is the end of some result, whose writes are of the kind `P`. -/
def EndsIn (s : State) (P : State → Prop) (o : Host.Outcome State Fault Refusal) : Prop :=
  ∃ r, o = complete s r ∧ ∀ t d, r = .ok (t, d) → P t

/-! ### Element values that a command may write -/

theorem elemOk_of_isVec {s : State} {c : Ctx} {F : FieldCtx} {u : Vec} (hF : s.fc.get c = some F)
    (hu : Inv s → F.IsVec u) (h : Inv s) : ElemOk s ⟨c, u⟩ := ⟨F, hF, hu h⟩

theorem elemOk_tagged {s : State} {c : Ctx} {F : FieldCtx} {us : List Vec} (hF : s.fc.get c = some F)
    (hus : Inv s → ∀ u ∈ us, F.IsVec u) (h : Inv s) : ∀ x ∈ tagged c us, ElemOk s x := by
  intro x hx
  obtain ⟨u, hu, rfl⟩ := List.mem_map.1 hx
  exact ⟨F, hF, hus h u hu⟩

/-- What a range of cells holds are values of their contexts. -/
theorem elemOk_of_cellsHold {s : State} (h : Inv s) {addr : Nat} {L : List Elem} (hL : CellsHold s.emem addr L) :
    ∀ x ∈ L, ElemOk s x := by
  intro x hx
  obtain ⟨i, hi, rfl⟩ := List.mem_iff_getElem.1 hx
  exact h.cells (addr + i) _ ((hL i hi).trans (List.getElem?_eq_getElem hi))

/-! ### The result of each command -/

section
variable {s : State}

/-- The common end of the element commands writes one register. -/
theorem endsIn_storeResult {i : Instr} {ed : EReg} {ops : Except Err Operands}
    {f : FieldCtx → Vec → Vec → Except Err Vec} (hi : destinationOf i = some ed)
    (hops : ∀ P, ops = .ok P → s.fc.get P.ctx = some P.field)
    (hf : ∀ F u v r, F.Sound → f F u v = .ok r → F.IsVec r) : EndsIn s (Effect s i) (storeResult s ed ops f) := by
  refine ⟨_, rfl, fun t d hr => ?_⟩
  simp only [except_bind_eq_ok, except_pure, Except.ok.injEq, Prod.mk.injEq] at hr
  obtain ⟨P, hP, u, hu, rfl, -⟩ := hr
  exact .register ed _ hi (elemOk_of_isVec (hops P hP) fun h => hf _ _ _ _ (h.sound (hops P hP)) hu)

theorem endsIn_pair {i : Instr} {ed es1 es2 : EReg} {f : FieldCtx → Vec → Vec → Except Err Vec}
    (hi : destinationOf i = some ed) (hf : ∀ F u v r, F.Sound → f F u v = .ok r → F.IsVec r) :
    EndsIn s (Effect s i) (storeResult s ed (pair s es1 es2) f) :=
  endsIn_storeResult hi (fun P hP => ((pair_eq_ok s es1 es2 P).1 hP).2.2) hf

theorem endsIn_withInt {i : Instr} {ed es1 : EReg} {v : Int} {f : FieldCtx → Vec → Vec → Except Err Vec}
    (hi : destinationOf i = some ed) (hf : ∀ F u v r, F.Sound → f F u v = .ok r → F.IsVec r) :
    EndsIn s (Effect s i) (storeResult s ed (withInt s es1 v) f) :=
  endsIn_storeResult hi (fun P hP => ((withInt_eq_ok s es1 v P).1 hP).2.1) hf

theorem endsIn_csrr (csr : Nat) : EndsIn s (Effect s (.csrr csr)) (execCsrr csr s) := by
  refine ⟨_, rfl, fun t d hr => ?_⟩
  split at hr
  · obtain ⟨rfl, -⟩ := Prod.mk.inj (Except.ok.inj hr)
    exact .nothing (by simp)
  · cases hr

theorem endsIn_cpush (v : Int) : EndsIn s (Effect s (.cpush v)) (execCpush v s) := by
  refine ⟨_, rfl, fun t d hr => ?_⟩
  simp only [except_bind_eq_ok, require_eq_ok, decide_eq_true_eq, except_pure, Except.ok.injEq, Prod.mk.injEq] at hr
  obtain ⟨-, hroom, rfl, -⟩ := hr
  exact .pushed v hroom

theorem endsIn_fcfg (c : Ctx) (ap : AReg) (m : Nat) (fp : Bool) :
    EndsIn s (Effect s (.fcfg c ap m fp)) (execFcfg c ap m fp s) := by
  refine ⟨_, rfl, fun t d hr => ?_⟩
  simp only [except_bind_eq_ok, except_pure, Except.ok.injEq, Prod.mk.injEq] at hr
  obtain ⟨F, hF, rfl, -⟩ := hr
  obtain ⟨hsound, hfits⟩ := construct_sound hF
  exact .field c ap m fp F hsound hfits

theorem endsIn_emk (ed : EReg) (c : Ctx) : EndsIn s (Effect s (.emk ed c)) (execEmk ed c s) := by
  refine ⟨_, rfl, fun t d hr => ?_⟩
  simp only [except_bind_eq_ok, fieldOf_eq_ok, except_pure, Except.ok.injEq, Prod.mk.injEq] at hr
  obtain ⟨F, hF, u, hu, rfl, -⟩ := hr
  exact .made ed c _ (elemOk_of_isVec hF fun h => FieldCtx.isVec_elementOfSequence (h.sound hF).ring hu)

theorem endsIn_emki (ed : EReg) (c : Ctx) (v : Int) : EndsIn s (Effect s (.emki ed c v)) (execEmki ed c v s) := by
  refine ⟨_, rfl, fun t d hr => ?_⟩
  simp only [except_bind_eq_ok, fieldOf_eq_ok, except_pure, Except.ok.injEq, Prod.mk.injEq] at hr
  obtain ⟨F, hF, rfl, -⟩ := hr
  exact .register ed _ rfl (elemOk_of_isVec hF fun h => FieldCtx.isVec_promote (h.sound hF).ring v)

theorem endsIn_erdc (es : EReg) (index : Nat) : EndsIn s (Effect s (.erdc es index)) (execErdc es index s) := by
  refine ⟨_, rfl, fun t d hr => ?_⟩
  simp only [except_bind_eq_ok, except_pure, Except.ok.injEq, Prod.mk.injEq] at hr
  obtain ⟨-, -, -, -, -, -, rfl, -⟩ := hr
  exact .nothing (by simp)

theorem endsIn_emov (ed es : EReg) : EndsIn s (Effect s (.emov ed es)) (execEmov ed es s) := by
  refine ⟨_, rfl, fun t d hr => ?_⟩
  simp only [except_bind_eq_ok, readE_eq_ok, except_pure, Except.ok.injEq, Prod.mk.injEq] at hr
  obtain ⟨x, hx, rfl, -⟩ := hr
  exact .register ed x rfl fun h => h.registers es x hx

theorem endsIn_eld (ed : EReg) (offset : Nat) (ab : AReg) :
    EndsIn s (Effect s (.eld ed offset ab)) (execEld ed offset ab s) := by
  refine ⟨_, rfl, fun t d hr => ?_⟩
  simp only [except_bind_eq_ok, held_eq_ok, except_pure, Except.ok.injEq, Prod.mk.injEq] at hr
  obtain ⟨-, -, x, hx, rfl, -⟩ := hr
  exact .register ed x rfl fun h => h.cells _ x hx

theorem endsIn_est (es : EReg) (offset : Nat) (ab : AReg) :
    EndsIn s (Effect s (.est es offset ab)) (execEst es offset ab s) := by
  refine ⟨_, rfl, fun t d hr => ?_⟩
  simp only [except_bind_eq_ok, readE_eq_ok, memWrite_eq_ok, except_pure, Except.ok.injEq, Prod.mk.injEq] at hr
  obtain ⟨x, hx, -, ⟨hfits, rfl⟩, rfl, -⟩ := hr
  exact .stored _ [x] (by simp) rfl hfits fun h => by simpa using h.registers es x hx

theorem endsIn_logrd (es : EReg) : EndsIn s (Effect s (.logrd es)) (execLogrd es s) := by
  refine ⟨_, rfl, fun t d hr => ?_⟩
  simp only [except_bind_eq_ok, except_pure, Except.ok.injEq, Prod.mk.injEq] at hr
  obtain ⟨-, -, -, -, -, -, -, -, rfl, -⟩ := hr
  exact .nothing (by simp)

theorem endsIn_alogrd (ed : EReg) (c : Ctx) (ai : AReg) :
    EndsIn s (Effect s (.alogrd ed c ai)) (execAlogrd ed c ai s) := by
  refine ⟨_, rfl, fun t d hr => ?_⟩
  simp only [except_bind_eq_ok, fieldOf_eq_ok, held_eq_ok, require_eq_ok, decide_eq_true_eq, except_pure,
    Except.ok.injEq, Prod.mk.injEq] at hr
  obtain ⟨F, hF, T, hT, -, hi, rfl, -⟩ := hr
  refine .register ed _ rfl (elemOk_of_isVec hF fun h => ?_)
  have hq := (h.sound hF).ring.one_lt_q
  exact ((h.sound hF).tablesOk T hT).isVec_alogAt (by omega)

theorem endsIn_feq (es1 es2 : EReg) : EndsIn s (Effect s (.feq es1 es2)) (execFeq es1 es2 s) := by
  refine ⟨_, rfl, fun t d hr => ?_⟩
  simp only [except_bind_eq_ok, except_pure, Except.ok.injEq, Prod.mk.injEq] at hr
  obtain ⟨-, -, -, -, rfl, -⟩ := hr
  exact .nothing (by simp)

theorem endsIn_fneg (ed es1 : EReg) : EndsIn s (Effect s (.fneg ed es1)) (execFneg ed es1 s) := by
  refine ⟨_, rfl, fun t d hr => ?_⟩
  simp only [except_bind_eq_ok, fieldOf_eq_ok, except_pure, Except.ok.injEq, Prod.mk.injEq] at hr
  obtain ⟨x, -, F, hF, rfl, -⟩ := hr
  exact .register ed _ rfl (elemOk_of_isVec hF fun h => FieldCtx.isVec_neg (h.sound hF).ring _)

theorem endsIn_gsolve (ax aA ab an : AReg) : EndsIn s (Effect s (.gsolve ax aA ab an)) (execGsolve ax aA ab an s) := by
  refine ⟨_, rfl, fun t d hr => ?_⟩
  simp only [except_bind_eq_ok] at hr
  obtain ⟨-, -, -, -, -, -, -, -, MA, -, Mb, -, hr⟩ := hr
  cases MA with
  | nil =>
    obtain ⟨rfl, -⟩ := Prod.mk.inj (Except.ok.inj hr)
    exact .nothing (by simp)
  | cons x0 MA =>
    simp only [except_bind_eq_ok, fieldOf_eq_ok] at hr
    obtain ⟨-, -, F, hF, hr⟩ := hr
    split at hr
    · cases hr
    · rename_i xs hxs
      simp only [except_bind_eq_ok, memWrite_eq_ok, except_pure, Except.ok.injEq, Prod.mk.injEq] at hr
      obtain ⟨-, ⟨hfits, rfl⟩, rfl, -⟩ := hr
      have hcount : readA s an = (tagged x0.ctx xs).length := by rw [tagged_length, solve_length F _ _ _ _ hxs]
      exact .stored _ _ (by simp) (congrArg (readA s ax, ·) hcount) hfits
        (elemOk_tagged hF fun h => FieldCtx.isVec_solve (h.sound hF) hxs)

theorem endsIn_peval (ed es : EReg) (ac al : AReg) :
    EndsIn s (Effect s (.peval ed es ac al)) (execPeval ed es ac al s) := by
  refine ⟨_, rfl, fun t d hr => ?_⟩
  simp only [except_bind_eq_ok, fieldOf_eq_ok, except_pure, Except.ok.injEq, Prod.mk.injEq] at hr
  obtain ⟨x, -, L, -, -, -, F, hF, rfl, -⟩ := hr
  exact .register ed _ rfl (elemOk_of_isVec hF fun h => FieldCtx.isVec_horner (h.sound hF) _ _)

theorem codecSizes_eq_ok (P : Params) (F : FieldCtx) (n k : Nat) (u : Unit) :
    codecSizes P F n k = .ok u ↔ (1 ≤ k ∧ k < n ∧ n ≤ F.q - 1) ∧ n ≤ P.nMax := by
  simp [codecSizes, except_bind_eq_ok, require_eq_ok, and_assoc]

theorem endsIn_rscfg (c : Ctx) (an ak ax : AReg) :
    EndsIn s (Effect s (.rscfg c an ak ax)) (execRscfg c an ak ax s) := by
  refine ⟨_, rfl, fun t d hr => ?_⟩
  simp only [except_bind_eq_ok, fieldOf_eq_ok, codecSizes_eq_ok, memRead_eq_ok, require_eq_ok,
    Bool.and_eq_true, List.all_eq_true, bne_iff_ne, decide_eq_true_eq, except_pure, Except.ok.injEq,
    Prod.mk.injEq] at hr
  obtain ⟨F, hF, -, ⟨⟨hk, hkn, hnq⟩, hnmax⟩, L, ⟨-, hlen, hcells⟩, ⟨⟩, hsame, -, ⟨hne, hnodup⟩, rfl, -⟩ := hr
  refine .codec c _ (.inl ⟨an, ak, ax, rfl⟩) fun h =>
    ⟨F, hF, hk, hkn, hnq, hnmax, rfl, by simpa [vectors] using hlen, fun u hu => ⟨?_, hne u hu⟩, hnodup⟩
  obtain ⟨x, hx, rfl⟩ := List.mem_map.1 hu
  obtain ⟨F', hF', hvec⟩ := elemOk_of_cellsHold h hcells x hx
  rw [(sameCtx_eq_ok L c).1 hsame x hx, hF] at hF'
  exact Option.some.inj hF' ▸ hvec

/-- The points that RSCFGA takes are distinct, because their indices are. -/
theorem nodup_unidx {F : FieldCtx} (h : F.Ring) {n : Nat} (hn : n ≤ F.q - 1) :
    ((List.range n).map (fun i => F.unidx (i + 1))).Nodup := by
  have hq := h.one_lt_q
  refine List.Nodup.map_on (fun i hi j hj heq => ?_) List.nodup_range
  have hi := List.mem_range.1 hi
  have hj := List.mem_range.1 hj
  have hidx := congrArg F.idx heq
  rw [FieldCtx.idx_unidx h (by omega), FieldCtx.idx_unidx h (by omega)] at hidx
  omega

theorem endsIn_rscfga (c : Ctx) (an ak : AReg) : EndsIn s (Effect s (.rscfga c an ak)) (execRscfga c an ak s) := by
  refine ⟨_, rfl, fun t d hr => ?_⟩
  simp only [except_bind_eq_ok, fieldOf_eq_ok, codecSizes_eq_ok, except_pure, Except.ok.injEq, Prod.mk.injEq] at hr
  obtain ⟨F, hF, -, ⟨⟨hk, hkn, hnq⟩, hnmax⟩, rfl, -⟩ := hr
  refine .codec c _ (.inr ⟨an, ak, rfl⟩) fun h => ?_
  have hring := (h.sound hF).ring
  have hq := hring.one_lt_q
  refine ⟨F, hF, hk, hkn, hnq, hnmax, rfl, by simp, fun u hu => ?_, nodup_unidx hring hnq⟩
  obtain ⟨i, hi, rfl⟩ := List.mem_map.1 hu
  have hi := List.mem_range.1 hi
  exact ⟨FieldCtx.isVec_unidx hring _, FieldCtx.unidx_ne_zero hring (by omega) (by omega)⟩

theorem endsIn_rsenc (c : Ctx) (ad am : AReg) : EndsIn s (Effect s (.rsenc c ad am)) (execRsenc c ad am s) := by
  refine ⟨_, rfl, fun t d hr => ?_⟩
  simp only [except_bind_eq_ok, codecOf_eq_ok, fieldOf_eq_ok, memWrite_eq_ok, except_pure, Except.ok.injEq,
    Prod.mk.injEq] at hr
  obtain ⟨R, hR, -, -, -, -, M, -, -, -, F, hF, -, ⟨hfits, rfl⟩, rfl, -⟩ := hr
  have hcount : destinationCells s (.rsenc c ad am) =
      (readA s ad, (tagged c (F.rsEncode R (vectors M))).length) := by
    simp [destinationCells, guarded, hR]
  exact .stored _ _ (by simp) hcount hfits (elemOk_tagged hF fun h => FieldCtx.isVec_rsEncode (h.sound hF) R _)

theorem endsIn_rsdec (c : Ctx) (ad ar : AReg) : EndsIn s (Effect s (.rsdec c ad ar)) (execRsdec c ad ar s) := by
  refine ⟨_, rfl, fun t d hr => ?_⟩
  simp only [except_bind_eq_ok, codecOf_eq_ok, fieldOf_eq_ok, memWrite_eq_ok, except_pure, Except.ok.injEq,
    Prod.mk.injEq] at hr
  obtain ⟨R, hR, -, -, -, -, rcv, -, -, -, F, hF, msg, hmsg, -, ⟨hfits, rfl⟩, rfl, -⟩ := hr
  have hcount : destinationCells s (.rsdec c ad ar) = (readA s ad, (tagged c msg).length) := by
    simp [destinationCells, guarded, hR, bwDecode_length F R _ msg hmsg]
  exact .stored _ _ (by simp) hcount hfits (elemOk_tagged hF fun h => FieldCtx.isVec_bwDecode (h.sound hF) hmsg)

theorem endsIn_rspt (ed : EReg) (c : Ctx) (ai : AReg) : EndsIn s (Effect s (.rspt ed c ai)) (execRspt ed c ai s) := by
  refine ⟨_, rfl, fun t d hr => ?_⟩
  simp only [except_bind_eq_ok, codecOf_eq_ok, require_eq_ok, decide_eq_true_eq, except_pure, Except.ok.injEq,
    Prod.mk.injEq] at hr
  obtain ⟨R, hR, -, hi, rfl, -⟩ := hr
  refine .register ed _ rfl fun h => ?_
  obtain ⟨F, hF, -, -, -, -, -, hlen, hpoints, -⟩ := h.codecs c R hR
  have hi' : readA s ai < R.x.length := hlen ▸ hi
  refine ⟨F, hF, (hpoints _ ?_).1⟩
  simp [Codec.point, hi']

end

/-- Every command ends in one of the kinds of writes. -/
theorem exec_endsIn (i : Instr) (s : State) : EndsIn s (Effect s i) (exec i s) := by
  cases i with
  | nop => exact ⟨.ok (s, 0), rfl, by rintro t d ⟨⟩; exact .nothing (by simp)⟩
  | seta ad imm => exact ⟨.ok (writeA s ad _, 0), rfl, by rintro t d ⟨⟩; exact .argument ad imm⟩
  | csrr csr => exact endsIn_csrr csr
  | clre => exact ⟨.ok ({ s with esr := 0 }, 0), rfl, by rintro t d ⟨⟩; exact .esrCleared⟩
  | cclr => exact ⟨.ok ({ s with cbuf := [] }, 0), rfl, by rintro t d ⟨⟩; exact .bufferCleared⟩
  | cpush v => exact endsIn_cpush v
  | emk ed c => exact endsIn_emk ed c
  | emki ed c v => exact endsIn_emki ed c v
  | erdc es index => exact endsIn_erdc es index
  | emov ed es => exact endsIn_emov ed es
  | eld ed offset ab => exact endsIn_eld ed offset ab
  | est es offset ab => exact endsIn_est es offset ab
  | fcfg c ap m fp => exact endsIn_fcfg c ap m fp
  | logrd es => exact endsIn_logrd es
  | alogrd ed c ai => exact endsIn_alogrd ed c ai
  | fadd ed es1 es2 => exact endsIn_pair rfl fun F u v r h hr => Except.ok.inj hr ▸ F.isVec_add h.ring u v
  | fsub ed es1 es2 => exact endsIn_pair rfl fun F u v r h hr => Except.ok.inj hr ▸ F.isVec_sub h.ring u v
  | fneg ed es1 => exact endsIn_fneg ed es1
  | fmul ed es1 es2 => exact endsIn_pair rfl fun F u v r h hr => Except.ok.inj hr ▸ F.isVec_mul h u v
  | fdiv ed es1 es2 => exact endsIn_pair rfl fun F u v r h hr => F.isVec_of_div h hr
  | pmulg ed es1 es2 => exact endsIn_pair rfl fun F u v r h hr => Except.ok.inj hr ▸ F.isVec_dmul h.ring u v
  | feq es1 es2 => exact endsIn_feq es1 es2
  | faddi ed es1 v => exact endsIn_withInt rfl fun F u v r h hr => Except.ok.inj hr ▸ F.isVec_add h.ring u v
  | fsubi ed es1 v => exact endsIn_withInt rfl fun F u v r h hr => Except.ok.inj hr ▸ F.isVec_sub h.ring u v
  | frsubi ed es1 v => exact endsIn_withInt rfl fun F u v r h hr => Except.ok.inj hr ▸ F.isVec_sub h.ring v u
  | fmuli ed es1 v => exact endsIn_withInt rfl fun F u v r h hr => Except.ok.inj hr ▸ F.isVec_mul h u v
  | fdivi ed es1 v => exact endsIn_withInt rfl fun F u v r h hr => F.isVec_of_div h hr
  | frdivi ed es1 v => exact endsIn_withInt (f := fun F u k => F.div k u) rfl fun F u v r h hr => F.isVec_of_div h hr
  | gsolve ax aA ab an => exact endsIn_gsolve ax aA ab an
  | peval ed es ac al => exact endsIn_peval ed es ac al
  | rscfg c an ak ax => exact endsIn_rscfg c an ak ax
  | rscfga c an ak => exact endsIn_rscfga c an ak
  | rsenc c ad am => exact endsIn_rsenc c ad am
  | rsdec c ad ar => exact endsIn_rsdec c ad ar
  | rspt ed c ai => exact endsIn_rspt ed c ai

/-- The inversion of `exec`: a command fails with nothing written, or its writes are one of the kinds and a success
is answered (60_exceptions.md R203). -/
theorem exec_cases {i : Instr} {s t : State} (h : exec i s = .next t) :
    (∃ x, t = s.raise x) ∨ ∃ u d, t = u.respond d ∧ Effect s i u := by
  obtain ⟨r, hr, heffect⟩ := exec_endsIn i s
  rw [hr] at h
  cases r with
  | error x => exact .inl ⟨x, (Host.Outcome.next.inj h).symm⟩
  | ok ud => exact .inr ⟨ud.1, ud.2, (Host.Outcome.next.inj h).symm, heffect _ _ rfl⟩

end Sys2Proof.Machine
end

section
/-! Invariants of a step (10_state.md R22 to R34, R40): the layout, and the values in the stores. -/

namespace Sys2Proof.Machine

/-! ### The step, and induction over what it can do -/

/-- The state in which a step executes the word it has taken. -/
def State.accepted (s : State) (rest : List Word) : State := { s with cmds := rest }

/-- The inversion of `step`: the block waits, executes the next word's command, or refuses the word. -/
theorem step_cases {s t : State} (h : step s = .next t) :
    (s.cmds = [] ∧ t = s) ∨
      ∃ w rest, s.cmds = w :: rest ∧
        ((∃ i, decode w = .ok i ∧ exec i (s.accepted rest) = .next t) ∨
          (∃ x, decode w = .error x) ∧ t = (s.accepted rest).raise .illegalCommand) := by
  cases hcmds : s.cmds with
  | nil =>
    simp only [step, acceptCommand, hcmds, wait, Host.Outcome.next.injEq] at h
    exact .inl ⟨rfl, h.symm⟩
  | cons w rest =>
    refine .inr ⟨w, rest, rfl, ?_⟩
    simp only [step, acceptCommand_of_cons hcmds] at h
    cases hdecode : decode w with
    | ok i => exact .inl ⟨i, rfl, by rwa [hdecode] at h⟩
    | error x =>
      rw [hdecode] at h
      exact .inr ⟨⟨x, rfl⟩, (Host.Outcome.next.inj h).symm⟩

/-- What is kept when a word is taken, when a command answers, and by every kind of write, is kept by every step. -/
theorem step_keeps {P : State → Prop} (haccept : ∀ s rest, P s → P (s.accepted rest))
    (hraise : ∀ s x, P s → P (s.raise x)) (hrespond : ∀ s d, P s → P (s.respond d))
    (heffect : ∀ s i t, P s → Effect s i t → P t) {s t : State} (hs : P s) (h : step s = .next t) : P t := by
  obtain ⟨-, rfl⟩ | ⟨w, rest, -, ⟨i, -, hexec⟩ | ⟨-, rfl⟩⟩ := step_cases h
  · exact hs
  · obtain ⟨x, rfl⟩ | ⟨u, d, rfl, hu⟩ := exec_cases hexec
    · exact hraise _ x (haccept s rest hs)
    · exact hrespond u d (heffect _ i u (haccept s rest hs) hu)
  · exact hraise _ _ (haccept s rest hs)

/-! ### The layout -/

/-- No command writes the parameters (70_reset_and_hazards.md R221). -/
theorem Effect.params {s t : State} {i : Instr} (h : Effect s i t) : t.params = s.params := by
  cases h <;> rfl

theorem LayoutOk.accepted {s : State} (h : LayoutOk s) (rest : List Word) : LayoutOk (s.accepted rest) := { h with }

theorem statusByte_toNat (x : Err) : x.statusByte.toNat = x.code := by cases x <;> rfl

/-- Recording an error sets its own bit (10_state.md R34). -/
theorem getLsbD_stick (x : Err) (esr : BitVec 16) (n : Nat) :
    (x.stick esr).getLsbD n = (esr.getLsbD n || decide (n = x.code)) := by
  have hcode := code_le_twelve x
  simp only [Err.stick, BitVec.getLsbD_or, BitVec.getLsbD_twoPow]
  congr 1
  simp only [eq_comm (a := x.code), Bool.and_eq_right_iff_imp, decide_eq_true_eq]
  omega

theorem LayoutOk.raise {s : State} (h : LayoutOk s) (x : Err) : LayoutOk (s.raise x) where
  params := h.params
  memory := h.memory
  cells := h.cells
  buffer := h.buffer
  status := (statusByte_toNat x).trans_le (code_le_twelve x).2
  esr := by
    obtain ⟨h0, h13, h14, h15⟩ := h.esr
    have hcode := code_le_twelve x
    simp only [raise_esr, getLsbD_stick, h0, h13, h14, h15, Bool.false_or, decide_eq_false_iff_not]
    omega

theorem LayoutOk.respond {s : State} (h : LayoutOk s) (d : Nat) : LayoutOk (s.respond d) :=
  { h with status := Nat.zero_le 12 }

theorem LayoutOk.stored {s : State} (h : LayoutOk s) {base : Nat} {L : List Elem}
    (hfits : L.length = 0 ∨ base + L.length ≤ s.params.emDepth) :
    LayoutOk { s with emem := Memory.writeRange s.emem base L } :=
  { h with
    memory := writeRange_keeps_wf L s.emem base h.memory
    cells := by
      intro a v hv
      show a < s.params.emDepth
      rw [stores_writeRange L s.emem base a] at hv
      split at hv
      · omega
      · exact h.cells a v hv }

theorem survives_eq_some {c : Ctx} {o : Option Elem} {v : Elem} : survives c o = some v ↔ o = some v ∧ v.ctx ≠ c := by
  cases o with
  | none => simp [survives]
  | some u =>
    by_cases hu : u.ctx = c
    · simp only [survives, hu, if_true, reduceCtorEq, Option.some.injEq, false_iff]
      rintro ⟨rfl, hne⟩
      exact hne hu
    · simp only [survives, hu, if_false, Option.some.injEq]
      exact ⟨fun h => ⟨h, h ▸ hu⟩, And.left⟩

theorem LayoutOk.installField {s : State} (h : LayoutOk s) (c : Ctx) (F : FieldCtx) :
    LayoutOk (installField s c F) :=
  { h with
    memory := sweep_keeps_wf s.emem c h.memory
    cells := by
      intro a v hv
      rw [installField_emem, read_sweep s.emem c a h.memory, survives_eq_some] at hv
      exact h.cells a v hv.1
    buffer := Nat.zero_le _ }

theorem LayoutOk.effect {s t : State} {i : Instr} (h : LayoutOk s) (ht : Effect s i t) : LayoutOk t := by
  cases ht with
  | nothing => exact h
  | argument ad imm => exact { h with }
  | esrCleared => exact { h with esr := by simp }
  | bufferCleared => exact { h with buffer := Nat.zero_le _ }
  | pushed v hroom =>
    have hle := h.buffer
    exact { h with buffer := by simp; omega }
  | register ed x => exact { h with }
  | made ed c x => exact { h with buffer := Nat.zero_le _ }
  | stored base L _ _ hfits => exact h.stored hfits
  | codec c R => exact { h with }
  | field c _ _ _ F => exact h.installField c F

/-- Settles O18: taking a word and answering it keep the layout, and so does every kind of write. -/
theorem stepKeepsTheLayout : Obligations.StepKeepsTheLayout := by
  intro s t hs h
  exact step_keeps (P := fun u => LayoutOk u ∧ u.params = s.params)
    (fun u rest hu => ⟨hu.1.accepted rest, hu.2⟩) (fun u x hu => ⟨hu.1.raise x, hu.2⟩)
    (fun u d hu => ⟨hu.1.respond d, hu.2⟩) (fun u i v hu hv => ⟨hu.1.effect hv, hv.params.trans hu.2⟩)
    ⟨hs, rfl⟩ h

/-! ### The values in the stores -/

/-- The invariant is about the parameters, registers, cells and contexts, beside the layout. -/
theorem Inv.of_same_stores {s t : State} (h : Inv s) (hlayout : LayoutOk t) (hparams : t.params = s.params)
    (he : t.e = s.e) (hemem : t.emem = s.emem) (hfc : t.fc = s.fc) (hrs : t.rs = s.rs) : Inv t := by
  have helem : ∀ v, ElemOk s v → ElemOk t v := by
    unfold ElemOk
    rw [hfc]
    exact fun _ hv => hv
  have hcodec : ∀ c R, CodecOk s c R → CodecOk t c R := by
    unfold CodecOk
    rw [hfc, hparams]
    exact fun _ _ hR => hR
  exact {
    layout := hlayout
    registers := fun r v hv => helem v (h.registers r v (he ▸ hv))
    cells := fun a v hv => helem v (h.cells a v (hemem ▸ hv))
    fields := fun c F hF => hparams ▸ h.fields c F (hfc ▸ hF)
    codecs := fun c R hR => hcodec c R (h.codecs c R (hrs ▸ hR)) }

theorem Inv.writeE {s : State} (h : Inv s) (ed : EReg) {x : Elem} (hx : ElemOk s x) : Inv (writeE s ed x) :=
  { h with
    layout := { h.layout with }
    registers := by
      intro r v hv
      rw [writeE_e] at hv
      by_cases hr : r = ed
      · subst hr
        rw [get_set_same] at hv
        exact Option.some.inj hv ▸ hx
      · rw [get_set_other _ _ _ _ hr] at hv
        exact h.registers r v hv }

theorem Inv.stored {s : State} (h : Inv s) {base : Nat} {L : List Elem}
    (hfits : L.length = 0 ∨ base + L.length ≤ s.params.emDepth) (hL : ∀ x ∈ L, ElemOk s x) :
    Inv { s with emem := Memory.writeRange s.emem base L } :=
  { h with
    layout := h.layout.stored hfits
    cells := by
      intro a v hv
      rw [stores_writeRange L s.emem base a] at hv
      split at hv
      · exact hL v (List.mem_of_getElem? hv)
      · exact h.cells a v hv }

theorem Inv.writeCodec {s : State} (h : Inv s) {c : Ctx} {R : Codec} (hR : CodecOk s c R) : Inv (writeCodec s c R) :=
  { h with
    layout := { h.layout with }
    codecs := by
      intro c' R' hR'
      rw [writeCodec_rs] at hR'
      by_cases hc : c' = c
      · subst hc
        rw [get_set_same] at hR'
        exact Option.some.inj hR' ▸ hR
      · rw [get_set_other _ _ _ _ hc] at hR'
        exact h.codecs c' R' hR' }

/-- A register of the state that FCFG leaves (10_state.md R40). -/
theorem installField_e_get (s : State) (c : Ctx) (F : FieldCtx) (r : EReg) :
    (installField s c F).e.get r = survives c (s.e.get r) := by
  rw [installField_e, get_map]
  cases s.e.get r with
  | none => rfl
  | some v => by_cases hv : v.ctx = c <;> simp [survives, hv, Option.filter]

theorem Inv.installField {s : State} (h : Inv s) {c : Ctx} {F : FieldCtx} (hF : F.Sound) (hfits : F.Fits s.params) :
    Inv (installField s c F) := by
  have hother : ∀ c', c' ≠ c → (Machine.installField s c F).fc.get c' = s.fc.get c' := fun c' hc =>
    get_set_other _ _ _ _ hc
  have helem : ∀ v, v.ctx ≠ c → ElemOk s v → ElemOk (Machine.installField s c F) v := by
    rintro v hv ⟨F', hF', hvec⟩
    exact ⟨F', (hother _ hv).trans hF', hvec⟩
  exact {
    layout := h.layout.installField c F
    registers := by
      intro r v hv
      obtain ⟨hv, hne⟩ := survives_eq_some.1 (installField_e_get s c F r ▸ hv)
      exact helem v hne (h.registers r v hv)
    cells := by
      intro a v hv
      rw [installField_emem, read_sweep s.emem c a h.layout.memory, survives_eq_some] at hv
      exact helem v hv.2 (h.cells a v hv.1)
    fields := by
      intro c' F' hF'
      by_cases hc : c' = c
      · subst hc
        rw [installField_fc, get_set_same] at hF'
        obtain rfl := Option.some.inj hF'
        exact ⟨hF.ring, hfits, hF.tablesOk⟩
      · exact h.fields c' F' ((hother c' hc).symm.trans hF')
    codecs := by
      intro c' R hR
      rw [installField_rs] at hR
      by_cases hc : c' = c
      · subst hc
        rw [get_set_same] at hR
        cases hR
      · rw [get_set_other _ _ _ _ hc] at hR
        obtain ⟨F', hF', hR⟩ := h.codecs c' R hR
        exact ⟨F', (hother c' hc).trans hF', hR⟩ }

theorem Inv.effect {s t : State} {i : Instr} (h : Inv s) (ht : Effect s i t) : Inv t := by
  have hlayout := h.layout.effect ht
  cases ht with
  | nothing => exact h
  | argument => exact h.of_same_stores hlayout rfl rfl rfl rfl rfl
  | esrCleared => exact h.of_same_stores hlayout rfl rfl rfl rfl rfl
  | bufferCleared => exact h.of_same_stores hlayout rfl rfl rfl rfl rfl
  | pushed => exact h.of_same_stores hlayout rfl rfl rfl rfl rfl
  | register ed x _ hx => exact h.writeE ed (hx h)
  | made ed c x hx => exact (h.writeE ed (hx h)).of_same_stores hlayout rfl rfl rfl rfl rfl
  | stored base L _ _ hfits hL => exact h.stored hfits (hL h)
  | codec c R _ hR => exact h.writeCodec (hR h)
  | field c _ _ _ F hF hfits => exact h.installField hF hfits

/-- Settles O17: taking a word and answering it touch no store, and every kind of write keeps the invariant. -/
theorem stepKeepsTheInvariant : Obligations.StepKeepsTheInvariant := by
  intro s t hs h
  exact step_keeps (P := Inv)
    (fun u rest hu => hu.of_same_stores (hu.layout.accepted rest) rfl rfl rfl rfl rfl)
    (fun u x hu => hu.of_same_stores (hu.layout.raise x) rfl rfl rfl rfl rfl)
    (fun u d hu => hu.of_same_stores (hu.layout.respond d) rfl rfl rfl rfl rfl)
    (fun u i v hu hv => hu.effect hv) hs h

end Sys2Proof.Machine
end

section
/-! Who writes what (10_state.md R21 to R34): the frame of every command, and what `STATUS` and `ESR` hold after it. -/

namespace Sys2Proof.Machine

/-! ### The frame of each kind of write -/

section
variable {s t : State} {i : Instr}

theorem Effect.responses (h : Effect s i t) : t.responses = s.responses := by cases h <;> rfl

theorem Effect.argument_writer (h : Effect s i t) {r : AReg} (hne : t.a.get r ≠ s.a.get r) :
    ∃ imm, i = .seta r imm := by
  cases h with
  | argument ad imm =>
    by_cases hr : r = ad
    · exact ⟨imm, hr ▸ rfl⟩
    · exact absurd (get_set_other _ _ _ _ hr) hne
  | _ => exact absurd rfl hne

theorem Effect.field_writer (h : Effect s i t) {c : Ctx} (hne : t.fc.get c ≠ s.fc.get c) :
    ∃ ap m fp, i = .fcfg c ap m fp := by
  cases h with
  | field c' ap m fp F =>
    by_cases hc : c = c'
    · exact ⟨ap, m, fp, hc ▸ rfl⟩
    · exact absurd (get_set_other _ _ _ _ hc) hne
  | _ => exact absurd rfl hne

theorem Effect.codec_writer (h : Effect s i t) {c : Ctx} (hne : t.rs.get c ≠ s.rs.get c) :
    (∃ an ak ax, i = .rscfg c an ak ax) ∨ (∃ an ak, i = .rscfga c an ak) ∨
      (∃ ap m fp, i = .fcfg c ap m fp) ∧ t.rs.get c = none := by
  cases h with
  | codec c' R hi =>
    by_cases hc : c = c'
    · subst hc
      exact hi.imp_right .inl
    · exact absurd (get_set_other _ _ _ _ hc) hne
  | field c' ap m fp F =>
    by_cases hc : c = c'
    · subst hc
      exact .inr (.inr ⟨⟨ap, m, fp, rfl⟩, get_set_same _ _ _⟩)
    · exact absurd (get_set_other _ _ _ _ hc) hne
  | _ => exact absurd rfl hne

theorem Effect.buffer_writer (h : Effect s i t) (hne : t.cbuf ≠ s.cbuf) :
    i = .cclr ∨ (∃ v, i = .cpush v) ∨ (∃ ed c, i = .emk ed c) ∨ ∃ c ap m fp, i = .fcfg c ap m fp := by
  cases h with
  | bufferCleared => exact .inl rfl
  | pushed v => exact .inr (.inl ⟨v, rfl⟩)
  | made ed c => exact .inr (.inr (.inl ⟨ed, c, rfl⟩))
  | field c ap m fp => exact .inr (.inr (.inr ⟨c, ap, m, fp, rfl⟩))
  | _ => exact absurd rfl hne

/-- A register that is not the destination, under a command other than FCFG. -/
theorem Effect.register_frame (h : Effect s i t) (hi : ∀ c ap m fp, i ≠ .fcfg c ap m fp) {r : EReg}
    (hr : destinationOf i ≠ some r) : t.e.get r = s.e.get r := by
  cases h with
  | register ed x hed => exact get_set_other _ _ _ _ fun hre => hr (hre ▸ hed)
  | made ed c x => exact get_set_other _ _ _ _ fun hre => hr (hre ▸ rfl)
  | field c ap m fp => exact absurd rfl (hi c ap m fp)
  | _ => rfl

/-- A cell outside those the command stores to, under a command other than FCFG. -/
theorem Effect.cell_frame (h : Effect s i t) (hi : ∀ c ap m fp, i ≠ .fcfg c ap m fp) {a : Nat}
    (ha : ¬ ((destinationCells s i).1 ≤ a ∧ a < (destinationCells s i).1 + (destinationCells s i).2)) :
    Memory.read t.emem a = Memory.read s.emem a := by
  cases h with
  | stored base L _ hcells =>
    rw [hcells] at ha
    exact (stores_writeRange L s.emem base a).trans (if_neg ha)
  | field c ap m fp => exact absurd rfl (hi c ap m fp)
  | _ => rfl

theorem Effect.esr_eq (h : Effect s i t) : t.esr = if i = .clre then 0 else s.esr := by
  cases h with
  | nothing hi => exact (if_neg hi).symm
  | register ed x hed => exact (if_neg (by rintro rfl; cases hed)).symm
  | stored base L hi => exact (if_neg hi).symm
  | codec c R hi => exact (if_neg (by rintro rfl; simp at hi)).symm
  | _ => rfl

end

/-- FCFG empties what belongs to its context, or leaves everything (10_state.md R40). -/
theorem Effect.fcfg_frame {s t : State} {c : Ctx} {ap : AReg} {m : Nat} {fp : Bool}
    (h : Effect s (.fcfg c ap m fp) t) (hwf : Memory.wf s.emem = true) :
    (∀ r, t.e.get r = s.e.get r ∨ t.e.get r = survives c (s.e.get r)) ∧
      ∀ a, Memory.read t.emem a = Memory.read s.emem a ∨
        Memory.read t.emem a = survives c (Memory.read s.emem a) := by
  cases h with
  | nothing => exact ⟨fun _ => .inl rfl, fun _ => .inl rfl⟩
  | register ed x hed => cases hed
  | stored base L _ hcells =>
    have hnil : L = [] := List.length_eq_zero_iff.1 (Prod.mk.inj hcells).2.symm
    subst hnil
    exact ⟨fun _ => .inl rfl, fun _ => .inl rfl⟩
  | codec c R hi => simp at hi
  | field => exact ⟨fun r => .inr (installField_e_get s c _ r), fun a => .inr (read_sweep s.emem c a hwf)⟩

/-! ### The writers -/

/-- Settles O19: a failure writes none of them, and each kind of write at most its own. -/
theorem writersOfArgumentsAndContexts : Obligations.WritersOfArgumentsAndContexts := by
  intro i s t h
  obtain ⟨x, rfl⟩ | ⟨u, d, rfl, hu⟩ := exec_cases h
  · exact ⟨fun _ hne => absurd rfl hne, fun _ hne => absurd rfl hne, fun _ hne => absurd rfl hne,
      fun hne => absurd rfl hne, rfl⟩
  · exact ⟨fun _ => hu.argument_writer, fun _ => hu.field_writer, fun _ => hu.codec_writer, hu.buffer_writer,
      hu.params⟩

/-- Settles O20: a failure writes no element, and each kind of write at most the destination. -/
theorem writersOfElements : Obligations.WritersOfElements := by
  intro i s t h hwf
  obtain ⟨x, rfl⟩ | ⟨u, d, rfl, hu⟩ := exec_cases h
  · exact ⟨fun _ => ⟨fun _ _ => rfl, fun _ _ => rfl⟩, fun _ _ _ _ _ => ⟨fun _ => .inl rfl, fun _ => .inl rfl⟩⟩
  · refine ⟨fun hi => ⟨fun r hr => hu.register_frame hi hr, fun a ha => hu.cell_frame hi ha⟩, ?_⟩
    rintro c ap m fp rfl
    exact hu.fcfg_frame hwf

/-! ### `STATUS` and `ESR` -/

/-- How a step answers a word: with an error, or with the success of the word's command. -/
theorem step_answers {s t : State} {w : Word} {rest : List Word} (hcmds : s.cmds = w :: rest)
    (h : step s = .next t) :
    (∃ x, t = (s.accepted rest).raise x) ∨
      ∃ i u d, decode w = .ok i ∧ t = u.respond d ∧ Effect (s.accepted rest) i u := by
  obtain ⟨hnil, -⟩ | ⟨w', rest', hcons, hstep⟩ := step_cases h
  · rw [hnil] at hcmds
    cases hcmds
  · obtain ⟨rfl, rfl⟩ := List.cons.inj (hcmds.symm.trans hcons)
    obtain ⟨i, hdecode, hexec⟩ | ⟨-, rfl⟩ := hstep
    · obtain hx | ⟨u, d, ht, hu⟩ := exec_cases hexec
      · exact .inl hx
      · exact .inr ⟨i, u, d, hdecode, ht, hu⟩
    · exact .inl ⟨_, rfl⟩

/-- Settles O21: `raise` and `respond` write the code they return. -/
theorem statusIsTheLastCode : Obligations.StatusIsTheLastCode := by
  refine ⟨fun s w rest t hcmds h => ?_, fun s => rfl, fun s => rfl⟩
  obtain ⟨x, rfl⟩ | ⟨i, u, d, -, rfl, hu⟩ := step_answers hcmds h
  · exact ⟨_, rfl, rfl⟩
  · exact ⟨_, congrArg (_ :: ·) hu.responses, rfl⟩

/-- No error has a code that is one of the hardwired bits. -/
theorem stick_hardwired (x : Err) (esr : BitVec 16) : x.stick esr &&& 0xE001 = esr &&& 0xE001 := by
  have hbit : BitVec.twoPow 16 x.code &&& 0xE001 = 0#16 := by cases x <;> decide
  rw [Err.stick, BitVec.and_comm, BitVec.and_or_distrib_left, BitVec.and_comm, BitVec.and_comm (y := BitVec.twoPow _ _),
    hbit, BitVec.or_zero]

/-- Settles O22: an error sets its own bit, and of the writes only CLRE's is to `ESR`. -/
theorem esrIsSticky : Obligations.EsrIsSticky := by
  refine ⟨fun s => rfl, fun s w rest t hcmds h => ?_⟩
  obtain ⟨x, rfl⟩ | ⟨i, u, d, hdecode, rfl, hu⟩ := step_answers hcmds h
  · have hstatus : ((s.accepted rest).raise x).status ≠ 0 := code_ne_zero x
    have hcode : ((s.accepted rest).raise x).status.toNat = x.code := statusByte_toNat x
    rw [hcode]
    refine ⟨fun n _ => ?_, fun _ => code_le_twelve x, fun h0 => (stick_hardwired x s.esr).trans h0⟩
    rw [if_pos hstatus]
    exact getLsbD_stick x s.esr n
  · have hesr : (u.respond d).esr = if decode w = .ok .clre then 0 else s.esr := by
      simp only [hdecode, Except.ok.injEq]
      exact hu.esr_eq
    refine ⟨fun n _ => ?_, fun hne => absurd rfl hne, fun h0 => ?_⟩
    · rw [if_neg (by simp), hesr]
      split <;> simp
    · rw [hesr]
      split
      · rfl
      · exact h0

/-- Settles O15: reset empties every store and leaves the parameters. -/
theorem resetState : Obligations.ResetState := by
  intro s
  exact ⟨fun r => resetWith_e_get s.params r, fun i => get_replicate _ _, rfl, fun a => rfl,
    fun c => resetWith_fc_get s.params c, fun c => resetWith_rs_get s.params c, rfl, rfl, rfl⟩

end Sys2Proof.Machine
end

section
/-! The ports (70_reset_and_hazards.md R227): every command computes the same result whatever words are to come and
whatever responses were given. -/

namespace Sys2Proof.Machine

/-- `s` with other pending words and other responses. -/
def State.withPorts (s : State) (q : List Word) (old : List Response) : State :=
  { s with cmds := q, responses := old }

/-- The result `f` of a command is computed without a look at the ports, and leaves them alone. -/
def PortBlind (f : State → Except Err (State × Nat)) : Prop :=
  ∀ s q old, f (s.withPorts q old) = (f s).map (fun x => (x.1.withPorts q old, x.2))

/-- The command `i` is the end of a result that is blind to the ports. -/
def EndsBlind (exec : State → Host.Outcome State Fault Refusal) : Prop :=
  ∃ f, PortBlind f ∧ ∀ s, exec s = complete s (f s)

/-! ### Chains of checks -/

theorem portBlind_ok {t : State → State} {d : State → Nat}
    (ht : ∀ s q old, t (s.withPorts q old) = (t s).withPorts q old) (hd : ∀ s q old, d (s.withPorts q old) = d s) :
    PortBlind (fun s => .ok (t s, d s)) := by
  intro s q old
  simp only [ht, hd]
  rfl

/-- A check that reads no port, followed by a chain that reads none. -/
theorem portBlind_bind {α : Type} {g : State → Except Err α} {f : α → State → Except Err (State × Nat)}
    (hg : ∀ s q old, g (s.withPorts q old) = g s) (hf : ∀ a, PortBlind (f a)) :
    PortBlind (fun s => g s >>= fun a => f a s) := by
  intro s q old
  simp only [hg]
  cases g s with
  | error x => rfl
  | ok a => exact hf a s q old

/-- A store to memory, whose check of the range reads no port. -/
theorem portBlind_memWrite {addr : State → Nat} (haddr : ∀ s q old, addr (s.withPorts q old) = addr s)
    (L : List Elem) : PortBlind (fun s => memWrite s (addr s) L >>= fun t => pure (t, 0)) := by
  intro s q old
  have hrange : checkRange (s.withPorts q old) (addr s) L.length = checkRange s (addr s) L.length := rfl
  simp only [haddr, memWrite, hrange]
  cases checkRange s (addr s) L.length <;> rfl

/-- A blind result leaves the ports alone: it is the same when they are replaced by themselves. -/
theorem PortBlind.keeps_ports {f : State → Except Err (State × Nat)} (hf : PortBlind f) {s u : State} {d : Nat}
    (hu : f s = .ok (u, d)) : u.responses = s.responses ∧ u.cmds = s.cmds := by
  have hself : f s = (f s).map fun x => (x.1.withPorts s.cmds s.responses, x.2) := hf s s.cmds s.responses
  rw [hu] at hself
  have hsame : u = u.withPorts s.cmds s.responses := (Prod.mk.inj (Except.ok.inj hself)).1
  have hresponses := congrArg State.responses hsame
  have hcmds := congrArg State.cmds hsame
  exact ⟨hresponses, hcmds⟩

/-! ### Every command -/

/-- A command that makes no check. -/
theorem endsBlind_write {t : State → State} (ht : ∀ s q old, t (s.withPorts q old) = (t s).withPorts q old) :
    EndsBlind (fun s => complete s (.ok (t s, 0))) :=
  ⟨fun s => .ok (t s, 0), portBlind_ok ht fun _ _ _ => rfl, fun _ => rfl⟩

theorem contextCsr_withPorts (s : State) (q : List Word) (old : List Response) (c : Ctx) (offset : Nat) :
    contextCsr (s.withPorts q old) c offset = contextCsr s c offset := by
  unfold contextCsr
  split <;> rfl

theorem csrRead_withPorts (s : State) (q : List Word) (old : List Response) (addr : Nat) :
    csrRead (s.withPorts q old) addr = csrRead s addr := by
  unfold csrRead
  simp only [contextCsr_withPorts]
  split <;> rfl

theorem endsBlind_csrr (csr : Nat) : EndsBlind (execCsrr csr) := by
  refine ⟨_, fun s q old => ?_, fun _ => rfl⟩
  simp only [csrRead_withPorts]
  cases csrRead s csr <;> rfl

theorem endsBlind_gsolve (ax aA ab an : AReg) : EndsBlind (execGsolve ax aA ab an) := by
  refine ⟨_, ?_, fun _ => rfl⟩
  refine portBlind_bind (fun _ _ _ => rfl) fun _ => portBlind_bind (fun _ _ _ => rfl) fun _ =>
    portBlind_bind (fun _ _ _ => rfl) fun _ => portBlind_bind (fun _ _ _ => rfl) fun _ =>
    portBlind_bind (fun _ _ _ => rfl) fun MA => portBlind_bind (fun _ _ _ => rfl) fun Mb => ?_
  cases MA with
  | nil => exact portBlind_ok (fun _ _ _ => rfl) fun _ _ _ => rfl
  | cons x0 MA =>
    refine portBlind_bind (fun _ _ _ => rfl) fun _ => portBlind_bind (fun _ _ _ => rfl) fun F => fun s q old => ?_
    have hsize : readA (s.withPorts q old) an = readA s an := rfl
    simp only [hsize]
    cases F.solve (readA s an) (vectors (x0 :: MA)) (vectors Mb) with
    | none => rfl
    | some xs => exact portBlind_memWrite (addr := fun s => readA s ax) (fun _ _ _ => rfl) _ s q old

/-- Every command computes its result without a look at the ports. Where no case stands below, the result is a chain
of checks, none of which reads a port, that ends in the command's writes. -/
theorem exec_endsBlind (i : Instr) : EndsBlind (exec i) := by
  cases i with
  | csrr csr => exact endsBlind_csrr csr
  | gsolve ax aA ab an => exact endsBlind_gsolve ax aA ab an
  | nop => exact endsBlind_write (t := fun s => s) fun _ _ _ => rfl
  | seta ad imm => exact endsBlind_write (t := fun s => writeA s ad (BitVec.ofNat 20 imm)) fun _ _ _ => rfl
  | clre => exact endsBlind_write (t := fun s => { s with esr := 0 }) fun _ _ _ => rfl
  | cclr => exact endsBlind_write (t := fun s => { s with cbuf := [] }) fun _ _ _ => rfl
  | est es offset ab =>
    refine ⟨_, ?_, fun _ => rfl⟩
    refine portBlind_bind (fun _ _ _ => rfl) fun _ => ?_
    exact portBlind_memWrite (addr := fun s => effectiveAddress s ab offset) (fun _ _ _ => rfl) _
  | rsenc c ad am =>
    refine ⟨_, ?_, fun _ => rfl⟩
    repeat refine portBlind_bind (fun _ _ _ => rfl) fun _ => ?_
    exact portBlind_memWrite (addr := fun s => readA s ad) (fun _ _ _ => rfl) _
  | rsdec c ad ar =>
    refine ⟨_, ?_, fun _ => rfl⟩
    repeat refine portBlind_bind (fun _ _ _ => rfl) fun _ => ?_
    exact portBlind_memWrite (addr := fun s => readA s ad) (fun _ _ _ => rfl) _
  | _ =>
    refine ⟨_, ?_, fun _ => rfl⟩
    repeat refine portBlind_bind (fun _ _ _ => rfl) fun _ => ?_
    exact portBlind_ok (fun _ _ _ => rfl) fun _ _ _ => rfl

/-- Settles O11: the result is the same but for the ports, and either end of a command adds its one response. -/
theorem portsDoNotInfluenceCommands : Obligations.PortsDoNotInfluenceCommands := by
  intro i s t q old h
  obtain ⟨f, hblind, hf⟩ := exec_endsBlind i
  have hports : exec i { s with cmds := q, responses := old } =
      complete (s.withPorts q old) ((f s).map fun x => (x.1.withPorts q old, x.2)) :=
    (hf _).trans (congrArg _ (hblind s q old))
  rw [hports]
  rw [hf] at h
  cases hfs : f s with
  | error x =>
    rw [hfs] at h
    obtain rfl := Host.Outcome.next.inj h
    exact ⟨_, rfl, rfl, rfl⟩
  | ok ud =>
    rw [hfs] at h
    obtain rfl := Host.Outcome.next.inj h
    obtain ⟨hresponses, hpending⟩ := hblind.keeps_ports hfs
    exact ⟨_, congrArg (_ :: ·) hresponses, hpending, rfl⟩

end Sys2Proof.Machine
end

section
/-! The CSR map (10_state.md R35 to R39): what each address reads, in every state. -/

namespace Sys2Proof.Machine

/-! ### CSRR over the map -/

theorem csrr_succeeds {s : State} {addr v : Nat} (h : csrRead s addr = some v) : Succeeds (.csrr addr) s s v := by
  refine succeeds_of_respond _ s s v rfl ?_
  show complete s _ = _
  rw [h]
  rfl

theorem csrr_fails {s : State} {addr : Nat} (h : csrRead s addr = none) : Fails (.csrr addr) s .badAddress := by
  rw [fails_iff]
  show complete s _ = _
  rw [h]
  rfl

/-! ### The map -/

/-- Above the parameters the map is the argument window and the four context windows. -/
theorem csrRead_of_le {s : State} {addr : Nat} (h : 0x10 ≤ addr) :
    csrRead s addr =
      if addr < 0x20 then some (readA s (Fin.ofNat 16 (addr - 0x10)))
      else if 0x0100 ≤ addr ∧ addr < 0x0200 then
        contextCsr s (Fin.ofNat 4 ((addr - 0x0100) / 0x40)) ((addr - 0x0100) % 0x40)
      else none := by
  unfold csrRead
  split
  case h_9 => simp only [h, true_and]
  all_goals omega

theorem csrRead_argument (s : State) (i : AReg) : csrRead s (0x10 + i.val) = some (s.a.get i).toNat := by
  have hlt : 0x10 + i.val < 0x20 := by omega
  rw [csrRead_of_le (Nat.le_add_right _ _), if_pos hlt, Nat.add_sub_cancel_left, Fin.ofNat_val_eq_self]
  rfl

/-- The window of context `c` (R39). -/
theorem csrRead_context (s : State) (c : Ctx) {k : Nat} (hk : k < 0x40) :
    csrRead s (0x0100 + 0x40 * c.val + k) = contextCsr s c k := by
  have hc := c.isLt
  have hwindow : 0x0100 ≤ 0x0100 + 0x40 * c.val + k ∧ 0x0100 + 0x40 * c.val + k < 0x0200 := by omega
  have hctx : (0x0100 + 0x40 * c.val + k - 0x0100) / 0x40 = c.val := by omega
  have hoffset : (0x0100 + 0x40 * c.val + k - 0x0100) % 0x40 = k := by omega
  rw [csrRead_of_le (by omega), if_neg (by omega), if_pos hwindow, hctx, hoffset, Fin.ofNat_val_eq_self]

/-- Above the codec's registers the window is the coefficients of `g`. -/
theorem contextCsr_of_le {s : State} {c : Ctx} {k : Nat} (h : 0x09 ≤ k) :
    contextCsr s c k =
      if 0x20 ≤ k ∧ k ≤ 0x20 + s.params.mMax then
        some (guarded (s.fc.get c) (fun F => if k - 0x20 ≤ F.m then slot F.g (k - 0x20) else 0))
      else none := by
  unfold contextCsr
  split
  case h_10 => rfl
  all_goals omega

theorem contextCsr_coefficient {s : State} {c : Ctx} {i : Nat} (hi : i ≤ s.params.mMax) :
    contextCsr s c (0x20 + i) = some (guarded (s.fc.get c) (fun F => if i ≤ F.m then slot F.g i else 0)) := by
  have hrange : 0x20 ≤ 0x20 + i ∧ 0x20 + i ≤ 0x20 + s.params.mMax := by omega
  rw [contextCsr_of_le (by omega), if_pos hrange, Nat.add_sub_cancel_left]

/-- CSRR in the window of context `c`. -/
theorem csrr_context {s : State} {c : Ctx} {k v : Nat} (hk : k < 0x40) (h : contextCsr s c k = some v) :
    Succeeds (.csrr (0x0100 + 0x40 * c.val + k)) s s v := csrr_succeeds ((csrRead_context s c hk).trans h)

theorem csrr_coefficient {s : State} {c : Ctx} {i : Nat} (hlegal : s.params.legal) (hi : i ≤ s.params.mMax) :
    Succeeds (.csrr (0x0100 + 0x40 * c.val + 0x20 + i)) s s
      (guarded (s.fc.get c) (fun F => if i ≤ F.m then slot F.g i else 0)) := by
  obtain ⟨-, ⟨-, hm⟩, -⟩ := hlegal
  rw [Nat.add_assoc]
  exact csrr_context (by omega) (contextCsr_coefficient hi)

/-! ### The statements -/

/-- The global registers, the argument registers and the staging buffer's length are 0 after reset. -/
theorem csrRead_applyReset (s : State) {addr : Nat} (h : addr ≤ 0x02 ∨ 0x10 ≤ addr ∧ addr ≤ 0x1F) :
    csrRead s.applyReset addr = some 0 := by
  rcases h with h | ⟨hlo, hhi⟩
  · interval_cases addr <;> rfl
  · obtain ⟨i, rfl⟩ := Nat.exists_eq_add_of_le hlo
    rw [csrRead_argument s.applyReset ⟨i, by omega⟩, applyReset_a, get_replicate]
    rfl

/-- Settles O24: the addresses of the first three tables, one by one. -/
theorem csrrGlobalRegisters : Obligations.CsrrGlobalRegisters := by
  intro s
  exact ⟨csrr_succeeds rfl, csrr_succeeds rfl, csrr_succeeds rfl, fun i => csrr_succeeds (csrRead_argument s i),
    csrr_succeeds rfl, csrr_succeeds rfl, csrr_succeeds rfl, csrr_succeeds rfl, csrr_succeeds rfl,
    fun addr h => csrr_succeeds (csrRead_applyReset s h)⟩

/-- Settles O25: each row of the context table in a context that is constructed and in one that is not, then the gaps
between the rows. -/
theorem csrrContextRegisters : Obligations.CsrrContextRegisters := by
  intro s c hlegal
  refine ⟨fun F hF => ?_, fun hnone => ?_, fun R hR => ?_, fun hnone k h5 h8 => ?_, fun k hk => ?_⟩
  · refine ⟨csrr_context (by decide) ?_, csrr_context (by decide) ?_, csrr_context (by decide) ?_,
      csrr_context (by decide) ?_, fun hT => csrr_context (by decide) ?_, fun T hT => csrr_context (by decide) ?_,
      fun i hi => ?_⟩
    · simp [contextCsr, hF, guarded]
    · simp [contextCsr, hF, guarded]
    · simp [contextCsr, hF, guarded]
    · cases hT : F.tables <;> simp [contextCsr, hF, guarded, FieldCtx.t, hT]
    · simp [contextCsr, hF, guarded, hT]
    · simp [contextCsr, hF, guarded, hT]
    · have hread := csrr_coefficient (c := c) hlegal hi
      rwa [hF] at hread
  · refine ⟨fun k hk => csrr_context (by omega) ?_, fun i hi => ?_⟩
    · interval_cases k <;> simp [contextCsr, hnone, guarded]
    · have hread := csrr_coefficient (c := c) hlegal hi
      rwa [hnone] at hread
  · refine ⟨csrr_context (by decide) ?_, csrr_context (by decide) ?_, csrr_context (by decide) ?_,
      csrr_context (by decide) ?_⟩ <;> simp [contextCsr, hR, guarded]
  · refine csrr_context (by omega) ?_
    interval_cases k <;> simp [contextCsr, hnone, guarded]
  · have hk : 0x09 ≤ k ∧ k < 0x40 ∧ ¬ (0x20 ≤ k ∧ k ≤ 0x20 + s.params.mMax) := by omega
    obtain ⟨hlo, hhi, hgap⟩ := hk
    refine csrr_fails ((csrRead_context s c hhi).trans ?_)
    rw [contextCsr_of_le hlo, if_neg hgap]

/-- Settles O26: below the argument window each address is one of the first two tables; above it the address is in no
window, or at an offset that the context table leaves out. -/
theorem csrrUnassignedAddress : Obligations.CsrrUnassignedAddress := by
  intro s addr hlegal hglobal hparams hargs hctx
  refine csrr_fails ?_
  by_cases hlow : addr < 0x10
  · unfold csrRead
    split
    case h_9 => rw [if_neg (by omega), if_neg (by omega)]
    all_goals omega
  · rw [csrRead_of_le (by omega), if_neg (by omega)]
    split
    · have h := hctx ((addr - 0x0100) / 0x40) (by omega)
      rw [contextCsr_of_le (by omega), if_neg (by omega)]
    · rfl

end Sys2Proof.Machine
end

section
/-! Empty sources (60_exceptions.md R200): every command reads its source registers before anything that can fail
otherwise. -/

namespace Sys2Proof.Machine

section
variable {s : State} {r : EReg}

theorem readE_empty (h : s.e.get r = none) : readE s r = .error .uninitialised := by
  rw [readE, h]
  rfl

/-- A command whose result starts with the read of an empty register. -/
theorem complete_of_empty (h : s.e.get r = none) (f : Elem → Except Err (State × Nat)) :
    complete s (readE s r >>= f) = .next (s.raise .uninitialised) := by
  rw [readE_empty h]
  rfl

/-- Two source registers, read one after the other: the first is empty, or holds something and the second is. -/
theorem read_both_empty {α : Type} {i j : EReg} (h : s.e.get i = none ∨ s.e.get j = none)
    (f : Elem → Elem → Except Err α) :
    (readE s i >>= fun x => readE s j >>= f x) = .error .uninitialised := by
  cases hi : s.e.get i with
  | none =>
    rw [readE_empty hi]
    rfl
  | some x =>
    have hj := h.resolve_left (by simp [hi])
    rw [(readE_eq_ok s i x).2 hi, except_bind_ok, readE_empty hj]
    rfl

theorem storeResult_of_error {ed : EReg} {ops : Except Err Operands} {x : Err}
    (f : FieldCtx → Vec → Vec → Except Err Vec) (h : ops = .error x) : storeResult s ed ops f = .next (s.raise x) := by
  rw [h]
  rfl

theorem pair_empty {i j : EReg} (h : s.e.get i = none ∨ s.e.get j = none) : pair s i j = .error .uninitialised :=
  read_both_empty h _

theorem withInt_empty (h : s.e.get r = none) (v : Int) : withInt s r v = .error .uninitialised := by
  rw [withInt, readE_empty h]
  rfl

theorem mem_pair_empty {i j : EReg} (hr : r ∈ [i, j]) (h : s.e.get r = none) : s.e.get i = none ∨ s.e.get j = none := by
  rcases List.mem_pair.1 hr with rfl | rfl
  · exact .inl h
  · exact .inr h

end

/-- Settles O49: by the three operand forms, and the commands that read one register by themselves. -/
theorem emptySourceRaisesUninitialised : Obligations.EmptySourceRaisesUninitialised := by
  intro i s r hr h
  rw [fails_iff]
  cases i with
  | emov ed es => exact complete_of_empty (List.mem_singleton.1 hr ▸ h) _
  | est es offset ab => exact complete_of_empty (List.mem_singleton.1 hr ▸ h) _
  | erdc es index => exact complete_of_empty (List.mem_singleton.1 hr ▸ h) _
  | logrd es => exact complete_of_empty (List.mem_singleton.1 hr ▸ h) _
  | fneg ed es1 => exact complete_of_empty (List.mem_singleton.1 hr ▸ h) _
  | peval ed es ac al => exact complete_of_empty (List.mem_singleton.1 hr ▸ h) _
  | fadd ed es1 es2 => rw [exec, execFadd, storeResult_of_error _ (pair_empty (mem_pair_empty hr h))]
  | fsub ed es1 es2 => rw [exec, execFsub, storeResult_of_error _ (pair_empty (mem_pair_empty hr h))]
  | fmul ed es1 es2 => rw [exec, execFmul, storeResult_of_error _ (pair_empty (mem_pair_empty hr h))]
  | fdiv ed es1 es2 => rw [exec, execFdiv, storeResult_of_error _ (pair_empty (mem_pair_empty hr h))]
  | pmulg ed es1 es2 => rw [exec, execPmulg, storeResult_of_error _ (pair_empty (mem_pair_empty hr h))]
  | feq es1 es2 => exact congrArg (complete s) (read_both_empty (mem_pair_empty hr h) _)
  | faddi ed es1 v => rw [exec, execFaddi, storeResult_of_error _ (withInt_empty (List.mem_singleton.1 hr ▸ h) v)]
  | fsubi ed es1 v => rw [exec, execFsubi, storeResult_of_error _ (withInt_empty (List.mem_singleton.1 hr ▸ h) v)]
  | frsubi ed es1 v => rw [exec, execFrsubi, storeResult_of_error _ (withInt_empty (List.mem_singleton.1 hr ▸ h) v)]
  | fmuli ed es1 v => rw [exec, execFmuli, storeResult_of_error _ (withInt_empty (List.mem_singleton.1 hr ▸ h) v)]
  | fdivi ed es1 v => rw [exec, execFdivi, storeResult_of_error _ (withInt_empty (List.mem_singleton.1 hr ▸ h) v)]
  | frdivi ed es1 v => rw [exec, execFrdivi, storeResult_of_error _ (withInt_empty (List.mem_singleton.1 hr ▸ h) v)]
  | _ => cases hr

end Sys2Proof.Machine
end

section
/-! The encoding (30_encoding.md R70 to R78): which words a packed format is, field by field, and from it that decoder
and encoder are inverse to each other. -/

namespace Sys2Proof

/-! ### The fields of a word as numbers -/

theorem opcodeOf_eq (w : Word) : opcodeOf w = w.toNat / 2 ^ 24 % 2 ^ 8 := field_toNat w 24 8

theorem nibA_val (w : Word) : (nibA w).val = w.toNat / 2 ^ 20 % 2 ^ 4 := field_toNat w 20 4

theorem nibB_val (w : Word) : (nibB w).val = w.toNat / 2 ^ 16 % 2 ^ 4 := field_toNat w 16 4

theorem nibC_val (w : Word) : (nibC w).val = w.toNat / 2 ^ 12 % 2 ^ 4 := field_toNat w 12 4

theorem nibD_val (w : Word) : (nibD w).val = w.toNat / 2 ^ 8 % 2 ^ 4 := field_toNat w 8 4

theorem ctxX_val (w : Word) : (ctxX w).val = w.toNat / 2 ^ 0 % 2 ^ 2 := field_toNat w 0 2

/-- The context of EMKI and FCFG is the low half of the nibble `b` (R72). -/
theorem ctxB_val (w : Word) : (ctxB w).val = (nibB w).val % 4 := by
  rw [nibB_val, show (ctxB w).val = _ from field_toNat w 16 2]
  omega

/-- The flag of FCFG is bit 2 of the nibble `b` (R72). -/
theorem flagFp_toNat (w : Word) : (flagFp w).toNat = (nibB w).val / 4 % 2 := by
  rw [nibB_val, flagFp, BitVec.getLsbD, Nat.toNat_testBit]
  omega

@[simp] theorem WordField.get_a (w : Word) : WordField.a.get w = (nibA w).val := rfl

@[simp] theorem WordField.get_b (w : Word) : WordField.b.get w = (nibB w).val := rfl

@[simp] theorem WordField.get_c (w : Word) : WordField.c.get w = (nibC w).val := rfl

@[simp] theorem WordField.get_d (w : Word) : WordField.d.get w = (nibD w).val := rfl

@[simp] theorem WordField.get_x (w : Word) : WordField.x.get w = (ctxX w).val := rfl

theorem WordField.get_z (w : Word) : WordField.z.get w = w.toNat / 2 ^ 2 % 2 ^ 6 := field_toNat w 2 6

theorem WordField.get_bTop (w : Word) : WordField.bTop.get w = (nibB w).val / 8 := by
  rw [nibB_val, show WordField.bTop.get w = _ from field_toNat w 19 1]
  omega

theorem WordField.get_bHigh (w : Word) : WordField.bHigh.get w = (nibB w).val / 4 := by
  rw [nibB_val, show WordField.bHigh.get w = _ from field_toNat w 18 2]
  omega

/-! ### The three formats (R71 to R73) -/

/-- The word of a format N command is the one with these fields and `z` zero. -/
theorem packN_eq_iff {op : Nat} (hop : op < 256) (a b c d : Fin 16) (x : Ctx) (w : Word) :
    packN op a b c d x = w ↔ opcodeOf w = op ∧ nibA w = a ∧ nibB w = b ∧ nibC w = c ∧ nibD w = d ∧
      WordField.z.get w = 0 ∧ ctxX w = x := by
  rw [← BitVec.toNat_inj, packN_toNat op a b c d x hop, opcodeOf_eq, WordField.get_z]
  simp only [Fin.ext_iff, nibA_val, nibB_val, nibC_val, nibD_val, ctxX_val]
  have hw := w.isLt
  omega

theorem packI_eq_iff {op : Nat} (hop : op < 256) (a : Fin 16) {b : Nat} (hb : b < 16) (imm : BitVec 16) (w : Word) :
    packI op a b imm = w ↔ opcodeOf w = op ∧ nibA w = a ∧ (nibB w).val = b ∧ w.field 0 16 = imm := by
  rw [← BitVec.toNat_inj, packI_toNat op a b imm hop hb, opcodeOf_eq, ← BitVec.toNat_inj, field_toNat]
  simp only [Fin.ext_iff, nibA_val, nibB_val]
  have hw := w.isLt
  omega

theorem packL_eq_iff {op : Nat} (hop : op < 256) (a : Fin 16) (imm : BitVec 20) (w : Word) :
    packL op a imm = w ↔ opcodeOf w = op ∧ nibA w = a ∧ w.field 0 20 = imm := by
  rw [← BitVec.toNat_inj, packL_toNat op a imm hop, opcodeOf_eq, ← BitVec.toNat_inj, field_toNat]
  simp only [Fin.ext_iff, nibA_val]
  have hw := w.isLt
  omega

/-- The nibble `b` of EMKI: its high half is zero, its low half the context (R72). -/
theorem nibB_eq_context_iff (w : Word) (c : Ctx) :
    (nibB w).val = c.val ↔ WordField.bHigh.get w = 0 ∧ ctxB w = c := by
  rw [WordField.get_bHigh, Fin.ext_iff, ctxB_val]
  omega

/-- The nibble `b` of FCFG: its top bit is zero, then come the flag and the context (R72). -/
theorem nibB_eq_flag_context_iff (w : Word) (fp : Bool) (c : Ctx) :
    (nibB w).val = fp.toNat * 4 + c.val ↔ WordField.bTop.get w = 0 ∧ flagFp w = fp ∧ ctxB w = c := by
  have hflag : flagFp w = fp ↔ (flagFp w).toNat = fp.toNat := by
    cases flagFp w <;> cases fp <;> decide
  have hfp := fp.toNat_lt
  rw [hflag, WordField.get_bTop, flagFp_toNat, Fin.ext_iff, ctxB_val]
  omega

theorem context_lt_sixteen (c : Ctx) : c.val < 16 := by omega

theorem flag_context_lt_sixteen (fp : Bool) (c : Ctx) : fp.toNat * 4 + c.val < 16 := by
  have hfp := fp.toNat_lt
  omega

/-! ### The immediates (R75) -/

theorem imm16Ok_iff (v : Nat) : imm16Ok v = true ↔ v < 2 ^ 16 := by
  rw [imm16Ok, decide_eq_true_iff]
  omega

theorem simm16Ok_iff (v : Int) : simm16Ok v = true ↔ -2 ^ 15 ≤ v ∧ v < 2 ^ 15 := by
  rw [simm16Ok, Bool.and_eq_true, decide_eq_true_iff, decide_eq_true_iff]
  omega

theorem imm20Ok_iff (v : Nat) : imm20Ok v = true ↔ v < 2 ^ 20 := by
  rw [imm20Ok, decide_eq_true_iff]
  omega

@[simp] theorem imm16Ok_imm16Of (w : Word) : imm16Ok (imm16Of w) = true := (imm16Ok_iff _).2 (w.field 0 16).isLt

@[simp] theorem simm16Ok_simm16Of (w : Word) : simm16Ok (simm16Of w) = true :=
  (simm16Ok_iff _).2 ⟨(w.field 0 16).le_toInt, (w.field 0 16).toInt_lt⟩

@[simp] theorem imm20Ok_imm20Of (w : Word) : imm20Ok (imm20Of w) = true := (imm20Ok_iff _).2 (w.field 0 20).isLt

/-- A field holds an immediate in range exactly when the decoder reads that immediate from it. -/
theorem field_eq_imm16_iff {v : Nat} (hv : imm16Ok v = true) (w : Word) :
    w.field 0 16 = BitVec.ofNat 16 v ↔ imm16Of w = v := by
  rw [← BitVec.toNat_inj, BitVec.toNat_ofNat, Nat.mod_eq_of_lt ((imm16Ok_iff v).1 hv), imm16Of]

theorem field_eq_simm16_iff {v : Int} (hv : simm16Ok v = true) (w : Word) :
    w.field 0 16 = BitVec.ofInt 16 v ↔ simm16Of w = v := by
  obtain ⟨hlo, hhi⟩ := (simm16Ok_iff v).1 hv
  rw [← BitVec.toInt_inj, BitVec.toInt_ofInt_eq_self (by decide) hlo hhi, simm16Of]

theorem field_eq_imm20_iff {v : Nat} (hv : imm20Ok v = true) (w : Word) :
    w.field 0 20 = BitVec.ofNat 20 v ↔ imm20Of w = v := by
  rw [← BitVec.toNat_inj, BitVec.toNat_ofNat, Nat.mod_eq_of_lt ((imm20Ok_iff v).1 hv), imm20Of]

/-! ### Decoder and encoder -/

theorem ifZero_of_zeros {w : Word} {zeros : List WordField} (h : ∀ f ∈ zeros, f.get w = 0) (i : Instr) :
    ifZero w zeros i = .ok i := by
  have hnone : zeros.find? (fun f => f.get w != 0) = none := by simpa using h
  rw [ifZero, hnone]

theorem ifZero_of_nonzero {w : Word} {zeros : List WordField} (h : ¬ ∀ f ∈ zeros, f.get w = 0) (i : Instr) :
    ∃ x, ifZero w zeros i = .error x := by
  have hsome : zeros.find? (fun f => f.get w != 0) ≠ none := by simpa using h
  obtain ⟨f, hf⟩ := Option.ne_none_iff_exists'.1 hsome
  exact ⟨.mustBeZero f, by rw [ifZero, hf]⟩

theorem ifZero_eq_ok_iff {w : Word} {zeros : List WordField} {i j : Instr} :
    ifZero w zeros i = .ok j ↔ (∀ f ∈ zeros, f.get w = 0) ∧ i = j := by
  by_cases h : ∀ f ∈ zeros, f.get w = 0
  · rw [ifZero_of_zeros h i, Except.ok.injEq, and_iff_right h]
  · obtain ⟨x, hx⟩ := ifZero_of_nonzero h i
    simp [hx, h]

/-- The word of a well-formed command has the fields of its format, and from these the decoder reads the command. -/
theorem decode_of_encode {i : Instr} {w : Word} (hwf : i.wf = true) (hw : encode i = w) : decode w = .ok i := by
  cases i
  case seta =>
    simp only [encode, packL_eq_iff, Nat.reduceLT, field_eq_imm20_iff hwf] at hw
    simp [decode, ifZero_eq_ok_iff, hw]
  case csrr | erdc =>
    simp only [encode, packI_eq_iff, Nat.reduceLT, Fin.val_eq_zero_iff, field_eq_imm16_iff hwf] at hw
    simp [decode, ifZero_eq_ok_iff, hw]
  case cpush =>
    simp only [encode, packI_eq_iff, Nat.reduceLT, Fin.val_eq_zero_iff, field_eq_simm16_iff hwf] at hw
    simp [decode, ifZero_eq_ok_iff, hw]
  case eld | est =>
    simp only [encode, packI_eq_iff, Nat.reduceLT, Fin.is_lt, Fin.val_inj, field_eq_imm16_iff hwf] at hw
    simp [decode, ifZero_eq_ok_iff, hw]
  case faddi | fsubi | frsubi | fmuli | fdivi | frdivi =>
    simp only [encode, packI_eq_iff, Nat.reduceLT, Fin.is_lt, Fin.val_inj, field_eq_simm16_iff hwf] at hw
    simp [decode, ifZero_eq_ok_iff, hw]
  case emki =>
    simp only [encode, packI_eq_iff, Nat.reduceLT, context_lt_sixteen, nibB_eq_context_iff,
      field_eq_simm16_iff hwf] at hw
    simp [decode, ifZero_eq_ok_iff, hw]
  case fcfg =>
    simp only [encode, packI_eq_iff, Nat.reduceLT, flag_context_lt_sixteen, nibB_eq_flag_context_iff,
      field_eq_imm16_iff hwf] at hw
    simp [decode, ifZero_eq_ok_iff, hw]
  all_goals
    simp only [encode, packN_eq_iff, Nat.reduceLT] at hw
    simp [decode, ifZero_eq_ok_iff, hw]

/-- The row by which a word was read fixes every field of the word: as zero, or as an operand of the command. -/
theorem encode_of_decode {w : Word} {i : Instr} (h : decode w = .ok i) : i.wf = true ∧ encode i = w := by
  unfold decode at h
  split at h
  case h_36 => cases h
  all_goals
    rename_i hop
    obtain ⟨hzeros, rfl⟩ := ifZero_eq_ok_iff.1 h
    simp only [List.forall_mem_cons, List.not_mem_nil, false_imp_iff, implies_true, and_true, WordField.get_a,
      WordField.get_b, WordField.get_c, WordField.get_d, WordField.get_x, Fin.val_eq_zero_iff] at hzeros
    refine ⟨by simp [Instr.wf], ?_⟩
    simp [encode, packN_eq_iff, packI_eq_iff, packL_eq_iff, hop, hzeros, context_lt_sixteen, flag_context_lt_sixteen,
      nibB_eq_context_iff, nibB_eq_flag_context_iff, field_eq_imm16_iff, field_eq_simm16_iff, field_eq_imm20_iff]

/-! ### The statements -/

/-- Settles O1: the encoder's word has the fields that the decoder reads. -/
theorem decodeOfEncodeIsTheCommand : Obligations.DecodeOfEncodeIsTheCommand :=
  fun _ hwf => decode_of_encode hwf rfl

/-- Settles O2: the decoder reads every field that is not zero. -/
theorem encodeOfDecodeIsTheWord : Obligations.EncodeOfDecodeIsTheWord :=
  fun _ _ h => encode_of_decode h

theorem decode_and_encode {i : Instr} {w : Word} (hwf : i.wf = true) (hw : encode i = w) :
    decode w = .ok i ∧ encode i = w := ⟨decode_of_encode hwf hw, hw⟩

/-- Settles O4: the five words are the encoder's, and O1 gives the other direction. -/
theorem workedEncodings : Obligations.WorkedEncodings :=
  ⟨decode_and_encode (by decide) (by decide), decode_and_encode (by decide) (by decide),
    decode_and_encode (by decide) (by decide), decode_and_encode (by decide) (by decide),
    decode_and_encode (by decide) (by decide)⟩

end Sys2Proof
end

section
/-! The opcode table (30_encoding.md R76, R77): which words a row matches, that the decoder refuses the others, and
what the block answers to them. -/

namespace Sys2Proof.Machine

/-! ### Masks -/

/-- The bits of `w[lo+len-1 : lo]`. -/
def fieldMask (lo len : Nat) : Word := (BitVec.allOnes len).setWidth 32 <<< lo

/-- A field has the value `v` exactly when the word under the field's mask is `v` in the field's place. -/
theorem field_eq_iff {lo len : Nat} (h : lo + len ≤ 32) (w : Word) (v : BitVec len) :
    w.field lo len = v ↔ w &&& fieldMask lo len = v.setWidth 32 <<< lo := by
  rw [Word.field, fieldMask]
  constructor
  · rintro rfl
    ext i hi
    by_cases hlo : lo ≤ i
    · obtain ⟨j, rfl⟩ := Nat.exists_eq_add_of_le hlo
      simp [Bool.and_comm, BitVec.getLsbD_eq_getElem hi]
    · simp [Nat.lt_of_not_le hlo]
  · intro hw
    ext i hi
    have hbit : (w &&& (BitVec.allOnes len).setWidth 32 <<< lo).getLsbD (lo + i) =
        (v.setWidth 32 <<< lo).getLsbD (lo + i) := by rw [hw]
    have hlt : lo + i < 32 ∧ i < 32 := by omega
    simpa [hi, hlt, BitVec.getLsbD_eq_getElem hi] using hbit

theorem field_toNat_eq_iff {lo len n : Nat} (h : lo + len ≤ 32) (hn : n < 2 ^ len) (w : Word) :
    (w.field lo len).toNat = n ↔ w &&& fieldMask lo len = BitVec.ofNat 32 n <<< lo := by
  have hv : (BitVec.ofNat len n).toNat = n := by rw [BitVec.toNat_ofNat, Nat.mod_eq_of_lt hn]
  have hwidth : (BitVec.ofNat len n).setWidth 32 = BitVec.ofNat 32 n := by
    rw [← BitVec.toNat_inj, BitVec.toNat_setWidth, hv, BitVec.toNat_ofNat]
  rw [← hwidth, ← field_eq_iff h, ← BitVec.toNat_inj, hv]

/-- The bits of a must-be-zero field. -/
def zeroMask : WordField → Word
  | .a => fieldMask 20 4
  | .b => fieldMask 16 4
  | .c => fieldMask 12 4
  | .d => fieldMask 8 4
  | .z => fieldMask 2 6
  | .x => fieldMask 0 2
  | .bTop => fieldMask 19 1
  | .bHigh => fieldMask 18 2

theorem get_eq_zero_iff (f : WordField) (w : Word) : f.get w = 0 ↔ w &&& zeroMask f = 0 := by
  cases f <;> exact field_toNat_eq_iff (by decide) (by decide) w

/-- A pattern under two masks, of which the second lies outside the pattern. -/
theorem and_or_eq_iff {w m n p : Word} (h : p &&& n = 0) : w &&& (m ||| n) = p ↔ w &&& m = p ∧ w &&& n = 0 := by
  have hzero : w &&& m ||| 0 = w &&& m := BitVec.or_zero
  constructor
  · rintro rfl
    have hn : w &&& n = 0 := by
      have habsorb : w &&& (m ||| n) &&& n = w &&& n := by grind
      rw [← habsorb, h]
    refine ⟨?_, hn⟩
    rw [BitVec.and_or_distrib_left, hn, hzero]
  · rintro ⟨rfl, hn⟩
    rw [BitVec.and_or_distrib_left, hn, hzero]

/-- The bits of all the must-be-zero fields of a row. -/
def zerosMask (zeros : List WordField) : Word := zeros.foldr (fun f mask => zeroMask f ||| mask) 0

theorem forall_get_eq_zero_iff (zeros : List WordField) (w : Word) :
    (∀ f ∈ zeros, f.get w = 0) ↔ w &&& zerosMask zeros = 0 := by
  induction zeros with
  | nil => simp [zerosMask]
  | cons f zeros ih =>
    rw [List.forall_mem_cons, ih, get_eq_zero_iff]
    exact (and_or_eq_iff BitVec.zero_and).symm

/-! ### The rows -/

/-- The rows of R76 as the decoder has them: the opcode and the must-be-zero fields. -/
def decoderRows : List (Nat × List WordField) :=
  [(0x00, [.a, .b, .c, .d, .z, .x]), (0x01, []), (0x02, [.a, .b]), (0x03, [.a, .b, .c, .d, .z, .x]),
    (0x08, [.a, .b, .c, .d, .z, .x]), (0x09, [.a, .b]), (0x0A, [.b, .c, .d, .z]), (0x0B, [.bHigh]), (0x0C, [.b]),
    (0x0D, [.c, .d, .z, .x]), (0x0E, []), (0x0F, []), (0x10, [.bTop]), (0x11, [.a, .c, .d, .z, .x]),
    (0x12, [.c, .d, .z]), (0x20, [.d, .z, .x]), (0x21, [.d, .z, .x]), (0x22, [.c, .d, .z, .x]),
    (0x23, [.d, .z, .x]), (0x24, [.d, .z, .x]), (0x25, [.d, .z, .x]), (0x26, [.a, .d, .z, .x]), (0x28, []),
    (0x29, []), (0x2A, []), (0x2B, []), (0x2C, []), (0x2D, []), (0x30, [.z, .x]), (0x31, [.z, .x]),
    (0x38, [.d, .z]), (0x39, [.c, .d, .z]), (0x3A, [.c, .d, .z]), (0x3B, [.c, .d, .z]), (0x3C, [.c, .d, .z])]

/-- The pattern and the mask of a row of the decoder. -/
def patternAndMask (row : Nat × List WordField) : Word × Word :=
  (BitVec.ofNat 32 row.1 <<< 24, fieldMask 24 8 ||| zerosMask row.2)

theorem opcodeRows_eq_decoderRows :
    opcodeRows.map (fun row => (row.pattern, row.mask)) = decoderRows.map patternAndMask := by
  decide

/-- The fields `zeros` of `w` are zero (R77). -/
def fieldsZero (w : Word) (zeros : List WordField) : Bool := zeros.all (fun f => f.get w == 0)

theorem fieldsZero_iff (w : Word) (zeros : List WordField) :
    fieldsZero w zeros = true ↔ ∀ f ∈ zeros, f.get w = 0 := by
  simp [fieldsZero]

/-- A word is of a row exactly when it has the row's opcode and zeros in the row's must-be-zero fields. -/
theorem and_mask_beq_pattern {row : Nat × List WordField} (hrow : row ∈ decoderRows) (w : Word) :
    (w &&& (patternAndMask row).2 == (patternAndMask row).1) = (opcodeOf w == row.1 && fieldsZero w row.2) := by
  have hrows : ∀ row ∈ decoderRows, row.1 < 256 ∧ BitVec.ofNat 32 row.1 <<< 24 &&& zerosMask row.2 = 0 := by
    decide
  obtain ⟨hop, hdisjoint⟩ := hrows row hrow
  rw [Bool.eq_iff_iff, beq_iff_eq, Bool.and_eq_true, beq_iff_eq, fieldsZero_iff, forall_get_eq_zero_iff]
  exact (and_or_eq_iff hdisjoint).trans (and_congr_left' (field_toNat_eq_iff (by decide) hop w).symm)

/-- When the keys are distinct, the rows with the key `k` are the one that `lookup` finds, or none. -/
theorem countP_key {α : Type} (l : List (Nat × α)) (hl : (l.map Prod.fst).Nodup) (k : Nat) (q : α → Bool) :
    l.countP (fun row => k == row.1 && q row.2) = if (l.lookup k).any q then 1 else 0 := by
  induction l with
  | nil => rfl
  | cons row l ih =>
    obtain ⟨hnew, hl⟩ := List.nodup_cons.1 hl
    rw [List.countP_cons, ih hl, List.lookup_cons]
    cases hk : k == row.1 with
    | false => simp
    | true =>
      obtain rfl := beq_iff_eq.1 hk
      have hnone : l.lookup row.1 = none := by
        rw [List.lookup_eq_none_iff]
        intro p hp
        rw [bne_iff_ne]
        exact fun h => hnew (h ▸ List.mem_map_of_mem hp)
      simp [hnone]

/-- How many rows of the opcode table a word matches, in terms of the decoder's rows. -/
theorem countP_opcodeRows (w : Word) :
    opcodeRows.countP (fun row => row.holds w) =
      if (decoderRows.lookup (opcodeOf w)).any (fieldsZero w) then 1 else 0 := by
  have hdistinct : (decoderRows.map Prod.fst).Nodup := by decide
  calc opcodeRows.countP (fun row => row.holds w)
    _ = (opcodeRows.map (fun row => (row.pattern, row.mask))).countP (fun pm => w &&& pm.2 == pm.1) := by
      rw [List.countP_map]
      rfl
    _ = decoderRows.countP (fun row => w &&& (patternAndMask row).2 == (patternAndMask row).1) := by
      rw [opcodeRows_eq_decoderRows, List.countP_map]
      rfl
    _ = decoderRows.countP (fun row => opcodeOf w == row.1 && fieldsZero w row.2) :=
      List.countP_congr fun row hrow => by rw [and_mask_beq_pattern hrow]
    _ = if (decoderRows.lookup (opcodeOf w)).any (fieldsZero w) then 1 else 0 :=
      countP_key decoderRows hdistinct (opcodeOf w) (fieldsZero w)

theorem ifZero_isOk (w : Word) (zeros : List WordField) (i : Instr) :
    (ifZero w zeros i).isOk = fieldsZero w zeros := by
  rw [Bool.eq_iff_iff, fieldsZero_iff]
  by_cases h : ∀ f ∈ zeros, f.get w = 0
  · rw [ifZero_of_zeros h i]
    exact iff_of_true rfl h
  · obtain ⟨x, hx⟩ := ifZero_of_nonzero h i
    rw [hx]
    exact iff_of_false Bool.false_ne_true h

/-- The decoder reads a command exactly from the words of its rows. -/
theorem decode_isOk (w : Word) : (decode w).isOk = (decoderRows.lookup (opcodeOf w)).any (fieldsZero w) := by
  unfold decode
  split
  case h_36 =>
    have hnone : decoderRows.lookup (opcodeOf w) = none := by
      rw [List.lookup_eq_none_iff]
      simp only [decoderRows, List.forall_mem_cons, List.not_mem_nil, bne_iff_ne, false_imp_iff, implies_true,
        and_true]
      and_intros <;> assumption
    rw [hnone]
    rfl
  all_goals
    rename_i hop
    rw [hop]
    exact ifZero_isOk w _ _

/-- Settles O3: the rows of the opcode table are the decoder's, and no two of them have one opcode. -/
theorem legalWordsAreTheTableRows : Obligations.LegalWordsAreTheTableRows := by
  intro w
  rw [countP_opcodeRows, ← decode_isOk]
  cases decode w <;> rfl

/-! ### Illegal words -/

/-- The decoder refuses a word of no row. -/
theorem decode_of_no_row {w : Word} (h : ∀ row ∈ opcodeRows, row.holds w = false) : ∃ x, decode w = .error x := by
  have hnone : opcodeRows.countP (fun row => row.holds w) = 0 := by simpa [List.countP_eq_zero] using h
  have hcount := legalWordsAreTheTableRows w
  cases hdecode : decode w with
  | error x => exact ⟨x, rfl⟩
  | ok i =>
    rw [hnone, hdecode] at hcount
    cases hcount

theorem step_of_illegal {s : State} {w : Word} {rest : List Word} {x : DecodeError} (hcmds : s.cmds = w :: rest)
    (hdecode : decode w = .error x) : step s = .next ((s.accepted rest).raise .illegalCommand) := by
  simp only [step, acceptCommand_of_cons hcmds, hdecode]
  rfl

/-- Settles O5: the decoder refuses the word, and what the step does is the error entry. -/
theorem illegalWordRaisesIllegalCommand : Obligations.IllegalWordRaisesIllegalCommand := by
  intro s w rest hcmds hrows
  obtain ⟨x, hx⟩ := decode_of_no_row hrows
  exact step_of_illegal hcmds hx

end Sys2Proof.Machine
end

section
/-! The response of a step (30_encoding.md R79): there is one, and which commands return data in it. -/

namespace Sys2Proof.Machine

/-- A result whose data is 0. -/
def WithoutData (r : Except Err (State × Nat)) : Prop := ∀ t d, r = .ok (t, d) → d = 0

theorem withoutData_ok (t : State) : WithoutData (.ok (t, 0)) := by
  rintro _ _ ⟨⟩
  rfl

theorem withoutData_error (x : Err) : WithoutData (.error x) := by
  rintro _ _ ⟨⟩

theorem withoutData_bind {α : Type} (r : Except Err α) {f : α → Except Err (State × Nat)}
    (hf : ∀ a, WithoutData (f a)) : WithoutData (r >>= f) := by
  cases r with
  | error x => exact withoutData_error x
  | ok a => exact hf a

/-- The commands that R79 does not name. -/
def ReturnsNoData (i : Instr) : Prop :=
  (∀ csr, i ≠ .csrr csr) ∧ (∀ es index, i ≠ .erdc es index) ∧ (∀ es, i ≠ .logrd es) ∧ ∀ es1 es2, i ≠ .feq es1 es2

/-- The result of a command that R79 does not name is a chain of checks whose end has no data. -/
theorem exec_withoutData {i : Instr} (hi : ReturnsNoData i) (s : State) :
    ∃ r, exec i s = complete s r ∧ WithoutData r := by
  obtain ⟨hcsrr, herdc, hlogrd, hfeq⟩ := hi
  cases i with
  | csrr csr => exact absurd rfl (hcsrr csr)
  | erdc es index => exact absurd rfl (herdc es index)
  | logrd es => exact absurd rfl (hlogrd es)
  | feq es1 es2 => exact absurd rfl (hfeq es1 es2)
  | nop => exact ⟨_, rfl, withoutData_ok s⟩
  | seta ad imm => exact ⟨.ok (_, 0), rfl, withoutData_ok _⟩
  | clre => exact ⟨.ok (_, 0), rfl, withoutData_ok _⟩
  | cclr => exact ⟨.ok (_, 0), rfl, withoutData_ok _⟩
  | gsolve ax aA ab an =>
    refine ⟨_, rfl, ?_⟩
    refine withoutData_bind _ fun _ => withoutData_bind _ fun _ => withoutData_bind _ fun _ =>
      withoutData_bind _ fun _ => withoutData_bind _ fun MA => withoutData_bind _ fun Mb => ?_
    cases MA with
    | nil => exact withoutData_ok s
    | cons x0 MA =>
      refine withoutData_bind _ fun _ => withoutData_bind _ fun F => ?_
      cases F.solve (readA s an) (vectors (x0 :: MA)) (vectors Mb) with
      | none => exact withoutData_error _
      | some xs => exact withoutData_bind _ fun t => withoutData_ok t
  | _ =>
    refine ⟨_, rfl, ?_⟩
    repeat refine withoutData_bind _ fun _ => ?_
    exact withoutData_ok _

/-- The data of a command's response: 0 on a failure, and for the commands that R79 does not name. -/
theorem data_of_exec {i : Instr} {s t : State} {r : Response} (h : exec i s = .next t)
    (hr : t.responses = r :: s.responses) :
    (r.code ≠ 0 → r.data = 0) ∧ (ReturnsNoData i → r.data = 0) := by
  constructor
  · intro hcode
    obtain ⟨x, rfl⟩ | ⟨u, d, rfl, -⟩ := exec_cases h
    · obtain ⟨rfl, -⟩ := List.cons.inj hr
      rfl
    · obtain ⟨rfl, -⟩ := List.cons.inj hr
      exact absurd rfl hcode
  · intro hi
    obtain ⟨result, hexec, hdata⟩ := exec_withoutData hi s
    rw [hexec] at h
    cases result with
    | error x =>
      obtain rfl := Host.Outcome.next.inj h
      obtain ⟨rfl, -⟩ := List.cons.inj hr
      rfl
    | ok ud =>
      obtain rfl := Host.Outcome.next.inj h
      obtain ⟨rfl, -⟩ := List.cons.inj hr
      rw [hdata ud.1 ud.2 rfl]
      rfl

/-- Every command answers, with one response and the pending words as they were. -/
theorem exec_answers (i : Instr) (s : State) :
    ∃ t r, exec i s = .next t ∧ t.cmds = s.cmds ∧ t.responses = r :: s.responses := by
  obtain ⟨t, ht⟩ : ∃ t, exec i s = .next t := by
    obtain ⟨result, hresult⟩ := exec_is_complete i s
    cases result with
    | error x => exact ⟨_, hresult⟩
    | ok ud => exact ⟨_, hresult⟩
  obtain ⟨r, hr, hcmds, -⟩ := portsDoNotInfluenceCommands i s t s.cmds s.responses ht
  exact ⟨t, r, ht, hcmds, hr⟩

/-- Settles O9: a refused word gets the error entry's response, a command's word the command's. -/
theorem oneResponsePerCommand : Obligations.OneResponsePerCommand := by
  intro s w rest hcmds
  cases hdecode : decode w with
  | error x => exact ⟨_, _, step_of_illegal hcmds hdecode, rfl, rfl, fun _ => rfl, fun _ _ _ _ _ _ => rfl⟩
  | ok i =>
    obtain ⟨t, r, hexec, hpending, hresponse⟩ := exec_answers i (s.accepted rest)
    obtain ⟨hfailure, hsuccess⟩ := data_of_exec hexec hresponse
    have hstep : step s = exec i (s.accepted rest) := stepRunsTheDecodedCommand s w rest i hcmds hdecode
    refine ⟨t, r, hstep.trans hexec, hpending, hresponse, hfailure, ?_⟩
    rintro _ ⟨⟩ hcsrr herdc hlogrd hfeq
    exact hsuccess ⟨hcsrr, herdc, hlogrd, hfeq⟩

end Sys2Proof.Machine
end

section
/-! The staging buffer and FCFG (40_field.md R91 to R97): how CPUSH ends, how FCFG ends for each request, and that with
`fp = 1` the search takes the first primitive element. -/

namespace Sys2Proof.Machine

/-! ### Ending a command -/

theorem succeeds_of_eq_ok {i : Instr} {s t : State} {d : Nat} {r : Except Err (State × Nat)}
    (hexec : exec i s = complete s r) (hr : r = .ok (t, d)) (ht : t.responses = s.responses) : Succeeds i s t d :=
  succeeds_of_respond i s t d ht (by rw [hexec, hr, complete_ok])

theorem fails_of_eq_error {i : Instr} {s : State} {x : Err} {r : Except Err (State × Nat)}
    (hexec : exec i s = complete s r) (hr : r = .error x) : Fails i s x := by
  rw [fails_iff, hexec, hr, complete_error]

/-! ### CPUSH (R91) -/

/-- Settles O27: a 16-bit word stores each integer of the range as it is. -/
theorem cpushAppendsOrIsFull : Obligations.CpushAppendsOrIsFull := by
  intro s v hlow hhigh
  constructor
  · intro hroom
    have hvalue : (BitVec.ofInt 16 v).toInt = v :=
      BitVec.toInt_ofInt_eq_self (by decide) (by omega) (by omega)
    refine ⟨_, hvalue, succeeds_of_eq_ok rfl ?_ rfl⟩
    simp [hroom]
  · intro hfull
    exact fails_of_eq_error rfl (by simp [hfull])

/-! ### How FCFG ends (R92) -/

section
variable {s : State} {c : Ctx} {ap : AReg} {m : Nat} {fp : Bool}

theorem exec_fcfg : exec (.fcfg c ap m fp) s =
    complete s (construct s.params (s.a.get ap).toNat m (s.cbuf.map BitVec.toInt) fp >>= fun F =>
      pure (installField s c F, 0)) := rfl

theorem fcfg_succeeds {F : FieldCtx}
    (h : construct s.params (s.a.get ap).toNat m (s.cbuf.map BitVec.toInt) fp = .ok F) :
    Succeeds (.fcfg c ap m fp) s (installField s c F) 0 := by
  refine succeeds_of_eq_ok exec_fcfg ?_ rfl
  rw [h]
  rfl

theorem fcfg_fails {x : Err}
    (h : construct s.params (s.a.get ap).toNat m (s.cbuf.map BitVec.toInt) fp = .error x) :
    Fails (.fcfg c ap m fp) s x := fails_of_eq_error exec_fcfg (by rw [h, except_bind_error])

end

/-- The commit is the one that R92 and R40 describe. -/
theorem installs_installField {s : State} (h : Memory.wf s.emem = true) (c : Ctx) (F : FieldCtx) :
    Installs s (installField s c F) c F where
  installed := get_set_same _ _ _
  otherFields _ hc := get_set_other _ _ _ _ hc
  registers := installField_e_get s c F
  cells a := read_sweep s.emem c a h
  codec := get_set_same _ _ _
  otherCodecs _ hc := get_set_other _ _ _ _ hc
  buffer := rfl
  arguments := rfl
  esr := rfl
  params := rfl
  pending := rfl

/-- Settles O28: without tables `construct` answers the plain context of every valid request. -/
theorem fcfgWithoutTables : Obligations.FcfgWithoutTables := by
  intro s c ap m hwf hvalid
  exact ⟨_, installs_installField hwf c _,
    fcfg_succeeds ((construct_eq_ok _ _ _ _ _ _).2 ⟨hvalid, .inl ⟨rfl, rfl⟩⟩)⟩

/-! ### The refusals (R93 to R95) -/

theorem capacity_eq_error {P : Params} {p m : Nat} (h : P.pMax < p ∨ P.mMax < m ∨ P.qMax < p ^ m) :
    capacity P p m = .error .capacityExceeded := by
  cases hc : capacity P p m with
  | ok u =>
    have hfits := (capacity_eq_ok P p m u).1 hc
    omega
  | error x =>
    simp only [capacity, except_bind_eq_error, require_eq_error] at hc
    rcases hc with ⟨-, rfl⟩ | ⟨-, -, -, rfl⟩ <;> rfl

/-- Whatever is wrong with the parameters is reported with the same code (60_exceptions.md R191). -/
theorem eq_of_validate_eq_error {p m : Nat} {cbuf : List Int} {x : Err} (h : validate p m cbuf = .error x) :
    x = .invalidFieldParameters := by
  simp only [validate, except_bind_eq_error, require_eq_error] at h
  rcases h with ⟨-, rfl⟩ | ⟨-, -, h⟩
  · rfl
  · split at h
    · cases h
    · simp only [except_bind_eq_error, require_eq_error, except_pure, reduceCtorEq, and_false, exists_false,
        or_false] at h
      rcases h with ⟨-, rfl⟩ | ⟨-, -, ⟨-, rfl⟩ | ⟨-, -, -, rfl⟩⟩ <;> rfl

theorem validate_eq_error {p m : Nat} {cbuf : List Int}
    (h : ¬ (p.Prime ∧ 1 ≤ m ∧ (m = 1 ∨ StagedPoly p m cbuf))) :
    validate p m cbuf = .error .invalidFieldParameters := by
  cases hv : validate p m cbuf with
  | ok g =>
    obtain ⟨hp, hm, hg, -⟩ := (validate_eq_ok p m cbuf g).1 hv
    exact absurd ⟨hp, hm, hg⟩ h
  | error x => rw [eq_of_validate_eq_error hv]

/-- What R191 lists are the requests that are not valid. -/
theorem not_valid_of_cause {p m : Nat} {cbuf : List Int}
    (h : m < 1 ∨ p < 2 ∨ (∃ d, 2 ≤ d ∧ d * d ≤ p ∧ d ∣ p) ∨ (1 < m ∧ ¬ StagedPoly p m cbuf)) :
    ¬ (p.Prime ∧ 1 ≤ m ∧ (m = 1 ∨ StagedPoly p m cbuf)) := by
  rintro ⟨hp, hm, hg⟩
  rcases h with hm0 | hp2 | ⟨d, hd2, hdd, hdvd⟩ | ⟨hm1, hpoly⟩
  · omega
  · exact absurd hp.two_le (by omega)
  · exact (Nat.prime_def_le_sqrt.1 hp).2 d hd2 (Nat.le_sqrt.2 hdd) hdvd
  · exact hpoly (hg.resolve_left hm1.ne')

/-- Settles O29: the capacity test comes first, and every other cause fails the validation. -/
theorem fcfgRefusesInvalidParameters : Obligations.FcfgRefusesInvalidParameters := by
  rintro s c ap m fp p rfl
  constructor
  · intro hcapacity
    apply fcfg_fails
    rw [construct, capacity_eq_error hcapacity]
    rfl
  · intro hp hm hq hcause
    apply fcfg_fails
    rw [construct, (capacity_eq_ok _ _ _ ()).2 ⟨hp, hm, hq⟩, validate_eq_error (not_valid_of_cause hcause)]
    rfl

/-! ### The search for a primitive element (R96) -/

namespace FieldCtx

variable {F : FieldCtx}

theorem findPrimitive_eq_none_iff (h : F.Ring) :
    findPrimitive F = none ↔ ∀ j, 1 ≤ j → j < F.q → ¬ F.IsPrimitive (F.unidx j) := by
  simp only [findPrimitive, List.find?_eq_none, List.forall_mem_map, List.mem_range,
    orderTest_iff h (isVec_unidx h _)]
  constructor
  · intro hall j h1 hj
    have := hall (j - 1) (by omega)
    rwa [Nat.sub_add_cancel h1] at this
  · exact fun hall j hj => hall (j + 1) (by omega) (by omega)

theorem findPrimitive_of_first (h : F.Ring) {j : Nat} (h1 : 1 ≤ j) (hj : j < F.q) (hprim : F.IsPrimitive (F.unidx j))
    (hfirst : ∀ j', 1 ≤ j' → j' < j → ¬ F.IsPrimitive (F.unidx j')) : findPrimitive F = some (F.unidx j) := by
  have htest : ∀ i, orderTest F (F.unidx i) F.q (F.unidx i) 1 = true ↔ F.IsPrimitive (F.unidx i) := fun i =>
    orderTest_iff h (isVec_unidx h i)
  rw [findPrimitive, List.find?_map, Option.map_eq_some_iff]
  refine ⟨j - 1, List.find?_range_eq_some.2 ⟨?_, List.mem_range.2 (by omega), fun i hi => ?_⟩, ?_⟩
  · rw [Function.comp_apply, Nat.sub_add_cancel h1, htest]
    exact hprim
  · rw [Bool.not_eq_true', Bool.eq_false_iff, Function.comp_apply, ne_eq, htest]
    exact hfirst (i + 1) (by omega) (by omega)
  · rw [Nat.sub_add_cancel h1]

end FieldCtx

/-! ### Construction with tables (R96, R97) -/

theorem construct_of_no_primitive {P : Params} {p m : Nat} {cbuf : List Int} (hvalid : FcfgValid P p m cbuf)
    (hnone : findPrimitive (plainField p m cbuf) = none) :
    construct P p m cbuf true = .error .noPrimitiveElementFound := by
  obtain ⟨hp, hm, hq, hprime, hm1, hg⟩ := hvalid
  rw [construct, (capacity_eq_ok P p m ()).2 ⟨hp, hm, hq⟩, (validate_eq_ok p m cbuf _).2 ⟨hprime, hm1, hg, rfl⟩]
  show (match findPrimitive (plainField p m cbuf) with
    | some prim => _
    | none => _) = _
  rw [hnone]
  rfl

/-- FCFG with `fp = 1` on a valid request, by what the search answers. -/
theorem fcfg_of_findPrimitive {s : State} {c : Ctx} {ap : AReg} {m : Nat} {F : FieldCtx}
    (hwf : Memory.wf s.emem = true)
    (hvalid : FcfgValid s.params (s.a.get ap).toNat m (s.cbuf.map BitVec.toInt))
    (hF : F = plainField (s.a.get ap).toNat m (s.cbuf.map BitVec.toInt)) :
    (findPrimitive F = none → Fails (.fcfg c ap m true) s .noPrimitiveElementFound) ∧
      ∀ prim, findPrimitive F = some prim → ∃ t, Installs s t c { F with tables := some (buildTables F prim) } ∧
        Succeeds (.fcfg c ap m true) s t 0 := by
  subst hF
  exact ⟨fun hnone => fcfg_fails (construct_of_no_primitive hvalid hnone), fun prim hprim =>
    ⟨_, installs_installField hwf c _,
      fcfg_succeeds ((construct_eq_ok _ _ _ _ _ _).2 ⟨hvalid, .inr ⟨rfl, prim, hprim, rfl⟩⟩)⟩⟩

/-- Settles O30: the search takes the first candidate that the order test accepts, and its powers are the tables. -/
theorem fcfgBuildsTheTables : Obligations.FcfgBuildsTheTables := by
  intro s c ap m F hwf hvalid hF
  have hring : F.Ring := hF ▸ ring_plainField hvalid
  obtain ⟨hfails, hsucceeds⟩ := fcfg_of_findPrimitive (c := c) hwf hvalid hF
  refine ⟨fun hnone => hfails ((FieldCtx.findPrimitive_eq_none_iff hring).2 hnone), fun j h1 hj hprim hfirst => ?_⟩
  obtain ⟨t, hinstalls, ht⟩ := hsucceeds _ (FieldCtx.findPrimitive_of_first hring h1 hj hprim hfirst)
  exact ⟨t, _, rfl, FieldCtx.tablesOk_buildTables hring (FieldCtx.isVec_unidx hring j) hprim, hinstalls, ht⟩

end Sys2Proof.Machine
end

section
/-! The commands of 40_field.md that make, move and read element values (R98 to R105), and RSPT (43_reed_solomon.md
R162): how each of them ends, case by case. -/

namespace Sys2Proof.Machine

/-! ### Reading a register or a context -/

section
variable {s : State} {c : Ctx}

theorem readE_held {r : EReg} {x : Elem} (h : s.e.get r = some x) : readE s r = .ok x := (readE_eq_ok s r x).2 h

theorem fieldOf_held {F : FieldCtx} (h : s.fc.get c = some F) : fieldOf s c = .ok F := (fieldOf_eq_ok s c F).2 h

theorem fieldOf_empty (h : s.fc.get c = none) : fieldOf s c = .error .uninitialised := by
  rw [fieldOf, h, held_none]

theorem codecOf_held {R : Codec} (h : s.rs.get c = some R) : codecOf s c = .ok R := (codecOf_eq_ok s c R).2 h

theorem codecOf_empty (h : s.rs.get c = none) : codecOf s c = .error .uninitialised := by
  rw [codecOf, h, held_none]

end

/-! ### The element constructors (R98, R99) -/

theorem elementOfSequence_eq_ok (F : FieldCtx) (cb : List Int) (u : Vec) :
    elementOfSequence F cb = .ok u ↔
      cb.length ≤ F.m ∧ (∀ x ∈ cb, 0 ≤ x ∧ x < (F.p : Int)) ∧
        u = cb.map Int.toNat ++ List.replicate (F.m - cb.length) 0 := by
  simp only [elementOfSequence, except_bind_eq_ok, require_eq_ok, decide_eq_true_eq, cbuf_inRange_iff, except_pure,
    Except.ok.injEq, exists_and_left, exists_const, eq_comm (b := u)]

theorem elementOfSequence_eq_error {F : FieldCtx} {cb : List Int}
    (h : F.m < cb.length ∨ ∃ x ∈ cb, x < 0 ∨ (F.p : Int) ≤ x) :
    elementOfSequence F cb = .error .outOfRangeCoefficient := by
  cases hu : elementOfSequence F cb with
  | ok u =>
    obtain ⟨hlen, hrange, -⟩ := (elementOfSequence_eq_ok F cb u).1 hu
    rcases h with hlong | ⟨x, hx, hout⟩
    · omega
    · have := hrange x hx
      omega
  | error x =>
    simp only [elementOfSequence, except_bind_eq_error, require_eq_error, except_pure, reduceCtorEq, and_false,
      exists_false, or_false] at hu
    rcases hu with ⟨-, rfl⟩ | ⟨-, -, -, rfl⟩ <;> rfl

/-- The slots of a zero-padded sequence are its coefficients. -/
theorem slot_padded {cb : List Int} (h : ∀ x ∈ cb, 0 ≤ x) (n i : Nat) :
    (slot (cb.map Int.toNat ++ List.replicate n 0) i : Int) = cb.getD i 0 := by
  by_cases hi : i < cb.length
  · have hx := h _ (List.getElem_mem hi)
    simp [slot, List.getElem?_append_left, hi, hx]
  · have hi : cb.length ≤ i := not_lt.1 hi
    rw [slot, List.getD_append_right _ _ _ _ (by rwa [List.length_map]), List.getD_eq_getElem?_getD,
      List.getElem?_getD_replicate_default_eq, List.getD_eq_default _ _ hi, Nat.cast_zero]

theorem emk_succeeds {s : State} {ed : EReg} {c : Ctx} {F : FieldCtx} {u : Vec} (hF : s.fc.get c = some F)
    (hu : elementOfSequence F (s.cbuf.map BitVec.toInt) = .ok u) :
    Succeeds (.emk ed c) s { writeE s ed ⟨c, u⟩ with cbuf := [] } 0 := by
  refine succeeds_of_eq_ok rfl ?_ rfl
  rw [fieldOf_held hF, except_bind_ok, cbufInts, hu]
  rfl

theorem emk_out_of_range {s : State} {ed : EReg} {c : Ctx} {F : FieldCtx} (hF : s.fc.get c = some F)
    (hbad : F.m < (s.cbuf.map BitVec.toInt).length ∨ ∃ x ∈ s.cbuf.map BitVec.toInt, x < 0 ∨ (F.p : Int) ≤ x) :
    Fails (.emk ed c) s .outOfRangeCoefficient := by
  refine fails_of_eq_error rfl ?_
  rw [fieldOf_held hF, except_bind_ok, cbufInts, elementOfSequence_eq_error hbad, except_bind_error]

/-- Settles O32: the constructor accepts exactly the sequences that fit, and only then the buffer is emptied. -/
theorem emkValidatesTheSequence : Obligations.EmkValidatesTheSequence := by
  rintro s ed c F cb hF rfl
  refine ⟨fun hlen hrange => ⟨_, ?_, fun i _ => slot_padded (fun x hx => (hrange x hx).1) _ i,
    emk_succeeds hF ((elementOfSequence_eq_ok F _ _).2 ⟨hlen, hrange, rfl⟩)⟩, emk_out_of_range hF⟩
  rw [List.length_append, List.length_map, List.length_replicate, Nat.add_sub_cancel' hlen]

/-- The floored remainder is the one with a nonnegative rest below the divisor (00_scope.md R12). -/
theorem exists_quotient_fmod (v : Int) {b : Nat} (hb : 0 < b) : ∃ z : Int, v = z * (b : Int) + (fmod v b : Int) := by
  refine ⟨v / b, ?_⟩
  rw [fmod, Int.toNat_of_nonneg (Int.emod_nonneg v (by omega)), Int.ediv_mul_add_emod]

/-- Settles O33: the stored coefficient is the floored remainder, and both constructors read the context first. -/
theorem emkiReducesTheInteger : Obligations.EmkiReducesTheInteger := by
  intro s ed c v
  constructor
  · intro F hF hring
    obtain ⟨z, hz⟩ := exists_quotient_fmod v hring.p_pos
    refine ⟨_, z, fmod_lt v hring.p_pos, hz, succeeds_of_eq_ok (t := writeE s ed ⟨c, F.promote v⟩) rfl ?_ rfl⟩
    rw [fieldOf_held hF]
    rfl
  · intro hnone
    constructor <;> exact fails_of_eq_error rfl (by rw [fieldOf_empty hnone, except_bind_error])

/-! ### Moves, loads and stores (R100 to R103) -/

/-- Settles O34: both read the source first, ERDC then its context. -/
theorem erdcAndEmov : Obligations.ErdcAndEmov := by
  intro s es x hx
  constructor
  · intro ed
    refine succeeds_of_eq_ok (t := writeE s ed x) rfl ?_ rfl
    rw [readE_held hx]
    rfl
  · intro F index hF
    constructor
    · intro hlt
      refine succeeds_of_eq_ok rfl ?_ rfl
      simp [readE_held hx, fieldOf_held hF, hlt]
    · intro hle
      refine fails_of_eq_error rfl ?_
      simp [readE_held hx, fieldOf_held hF, hle.not_gt]

section
variable {s : State} {r : EReg} {ab : AReg} {offset : Nat}

theorem exec_eld : exec (.eld r offset ab) s =
    complete s (checkRange s ((s.a.get ab).toNat + offset) 1 >>= fun _ =>
      held (Memory.read s.emem ((s.a.get ab).toNat + offset)) >>= fun x => pure (writeE s r x, 0)) := rfl

theorem exec_est : exec (.est r offset ab) s =
    complete s (readE s r >>= fun x => memWrite s ((s.a.get ab).toNat + offset) [x] >>= fun t => pure (t, 0)) := rfl

/-- A cell beyond EMEM (20_memory.md R51). -/
theorem checkRange_beyond {ea : Nat} (hea : s.params.emDepth ≤ ea) : checkRange s ea 1 = .error .badAddress :=
  (checkRange_eq_error s ea 1 _).2 ⟨⟨by decide, Nat.lt_succ_of_le hea⟩, rfl⟩

theorem eld_succeeds {x : Elem} (hea : (s.a.get ab).toNat + offset < s.params.emDepth)
    (hx : Memory.read s.emem ((s.a.get ab).toNat + offset) = some x) :
    Succeeds (.eld r offset ab) s (writeE s r x) 0 := by
  refine succeeds_of_eq_ok exec_eld ?_ rfl
  rw [(checkRange_eq_ok s _ 1).2 (.inr hea), hx]
  rfl

theorem eld_empty (hea : (s.a.get ab).toNat + offset < s.params.emDepth)
    (hx : Memory.read s.emem ((s.a.get ab).toNat + offset) = none) : Fails (.eld r offset ab) s .uninitialised := by
  refine fails_of_eq_error exec_eld ?_
  rw [(checkRange_eq_ok s _ 1).2 (.inr hea), hx]
  rfl

theorem eld_beyond (hea : s.params.emDepth ≤ (s.a.get ab).toNat + offset) : Fails (.eld r offset ab) s .badAddress :=
  fails_of_eq_error exec_eld (by rw [checkRange_beyond hea, except_bind_error])

theorem est_succeeds {x : Elem} (hx : s.e.get r = some x) (hea : (s.a.get ab).toNat + offset < s.params.emDepth) :
    Succeeds (.est r offset ab) s
      { s with emem := Memory.writeRange s.emem ((s.a.get ab).toNat + offset) [x] } 0 := by
  refine succeeds_of_eq_ok exec_est ?_ rfl
  rw [readE_held hx, except_bind_ok, (memWrite_eq_ok s _ _ [x]).2 ⟨.inr hea, rfl⟩]
  rfl

theorem est_beyond {x : Elem} (hx : s.e.get r = some x) (hea : s.params.emDepth ≤ (s.a.get ab).toNat + offset) :
    Fails (.est r offset ab) s .badAddress := by
  refine fails_of_eq_error exec_est ?_
  rw [readE_held hx, except_bind_ok, memWrite, List.length_singleton, checkRange_beyond hea]
  rfl

end

/-- Settles O35: ELD tests the range, then the cell; EST the register, then the range. -/
theorem eldAndEst : Obligations.EldAndEst := by
  rintro s r ab offset ea rfl
  refine ⟨fun hin => ⟨fun x hx => eld_succeeds hin hx, fun hx => eld_empty hin hx, fun x hx => ?_⟩,
    fun hout => ⟨eld_beyond hout, fun x hx => est_beyond hx hout⟩,
    fun hx => emptySourceRaisesUninitialised _ s r (by simp [sourcesOf]) hx⟩
  exact ⟨_, stores_writeRange [x] s.emem _, est_succeeds hx hin⟩

/-! ### Reading the tables and the points (R104, R105, 43_reed_solomon.md R162) -/

theorem Tables.logAt_of_get {T : Tables} {i j : Nat} (h : T.log[j]? = some (some i)) : T.logAt j = i := by
  rw [logAt, h]

theorem Tables.alogAt_of_get {T : Tables} {i : Nat} {u : Vec} (h : T.alog[i]? = some u) : T.alogAt i = u := by
  rw [alogAt, h]

/-- The LOG word of a nonzero vector is the exponent whose power of the primitive element it is. -/
theorem FieldCtx.TablesOk.log_of_isVec {F : FieldCtx} {T : Tables} (hT : F.TablesOk T) (h : F.Ring) {u : Vec}
    (hu : F.IsVec u) (hne : u ≠ F.zero) :
    ∃ i, i < F.q - 1 ∧ T.log[F.idx u]? = some (some i) ∧ F.power T.prim i = u := by
  obtain ⟨i, w, hlog, hi, hw, hidx⟩ := hT.alogOfLog (F.idx u) (idx_pos h hu hne) (idx_lt h hu)
  obtain rfl : w = u := idx_injective h (hT.vecs w (List.mem_of_getElem? hw)) hu hidx
  exact ⟨i, hi, hlog, Option.some.inj ((hT.powers i hi).symm.trans hw)⟩

theorem FieldCtx.TablesOk.alogAt_eq_power {F : FieldCtx} {T : Tables} (hT : F.TablesOk T) {i : Nat}
    (hi : i < F.q - 1) : T.alogAt i = F.power T.prim i := Tables.alogAt_of_get (hT.powers i hi)

theorem Inv.isVec_register {s : State} (h : Inv s) {r : EReg} {c : Ctx} {u : Vec} {F : FieldCtx}
    (hu : s.e.get r = some ⟨c, u⟩) (hF : s.fc.get c = some F) : F.IsVec u := by
  obtain ⟨F', hF', hvec⟩ := h.registers r _ hu
  obtain rfl : F = F' := Option.some.inj (hF.symm.trans hF')
  exact hvec

section
variable {s : State} {c : Ctx} {F : FieldCtx} {T : Tables} {es ed : EReg} {ai : AReg} {u : Vec}

theorem logrd_succeeds {i : Nat} (hu : s.e.get es = some ⟨c, u⟩) (hF : s.fc.get c = some F) (hT : F.tables = some T)
    (hne : u ≠ F.zero) (hi : T.log[F.idx u]? = some (some i)) : Succeeds (.logrd es) s s i := by
  refine succeeds_of_eq_ok rfl ?_ rfl
  simp [readE_held hu, fieldOf_held hF, hT, bne_iff_ne.2 hne, Tables.logAt_of_get hi]

theorem logrd_zero (hu : s.e.get es = some ⟨c, F.zero⟩) (hF : s.fc.get c = some F) (hT : F.tables = some T) :
    Fails (.logrd es) s .badAddress := by
  refine fails_of_eq_error rfl ?_
  simp [readE_held hu, fieldOf_held hF, hT]

theorem logrd_without_tables (hu : s.e.get es = some ⟨c, u⟩) (hF : s.fc.get c = some F) (hT : F.tables = none) :
    Fails (.logrd es) s .uninitialised := by
  refine fails_of_eq_error rfl ?_
  simp [readE_held hu, fieldOf_held hF, hT]

theorem alogrd_succeeds (hF : s.fc.get c = some F) (hT : F.tables = some T) (hi : (s.a.get ai).toNat ≤ F.q - 2) :
    Succeeds (.alogrd ed c ai) s (writeE s ed ⟨c, T.alogAt (s.a.get ai).toNat⟩) 0 := by
  refine succeeds_of_eq_ok rfl ?_ rfl
  simp [fieldOf_held hF, hT, readA, hi]

theorem alogrd_beyond (hF : s.fc.get c = some F) (hT : F.tables = some T) (hi : F.q - 2 < (s.a.get ai).toNat) :
    Fails (.alogrd ed c ai) s .badAddress := by
  refine fails_of_eq_error rfl ?_
  simp [fieldOf_held hF, hT, readA, hi.not_ge]

theorem alogrd_without_tables (hF : s.fc.get c = some F) (hT : F.tables = none) :
    Fails (.alogrd ed c ai) s .uninitialised := by
  refine fails_of_eq_error rfl ?_
  simp [fieldOf_held hF, hT]

theorem alogrd_without_field (hF : s.fc.get c = none) : Fails (.alogrd ed c ai) s .uninitialised :=
  fails_of_eq_error rfl (by rw [fieldOf_empty hF, except_bind_error])

theorem rspt_without_codec (hR : s.rs.get c = none) : Fails (.rspt ed c ai) s .uninitialised :=
  fails_of_eq_error rfl (by rw [codecOf_empty hR, except_bind_error])

theorem rspt_beyond {R : Codec} (hR : s.rs.get c = some R) (hi : R.n ≤ (s.a.get ai).toNat) :
    Fails (.rspt ed c ai) s .badAddress := by
  refine fails_of_eq_error rfl ?_
  simp [codecOf_held hR, readA, hi.not_gt]

theorem rspt_succeeds {R : Codec} (hR : s.rs.get c = some R) (hi : (s.a.get ai).toNat < R.n)
    (hu : R.x[(s.a.get ai).toNat]? = some u) : Succeeds (.rspt ed c ai) s (writeE s ed ⟨c, u⟩) 0 := by
  refine succeeds_of_eq_ok rfl ?_ rfl
  simp [codecOf_held hR, readA, hi, Codec.point, hu]

end

/-- Settles O36: the tables of the invariant are the powers of the primitive element and their inverse. -/
theorem logrdAlogrdRspt : Obligations.LogrdAlogrdRspt := by
  intro s c hs
  refine ⟨fun F T hF hT => ?_, fun F hF hT => ?_, fun hF ed ai => alogrd_without_field hF, fun ed ai => ?_⟩
  · have hring := (hs.sound hF).ring
    have htables := (hs.sound hF).tablesOk T hT
    refine ⟨fun es u hu => ⟨fun hne => ?_, fun hzero => logrd_zero (hzero ▸ hu) hF hT⟩, fun ed ai =>
      ⟨fun hi => ?_, alogrd_beyond hF hT⟩⟩
    · obtain ⟨i, -, hlog, hpower⟩ := htables.log_of_isVec hring (hs.isVec_register hu hF) hne
      exact ⟨i, hlog, hpower, logrd_succeeds hu hF hT hne hlog⟩
    · have hq := hring.one_lt_q
      rw [← htables.alogAt_eq_power (by omega)]
      exact alogrd_succeeds hF hT hi
  · exact ⟨fun es u hu => logrd_without_tables hu hF hT, fun ed ai => alogrd_without_tables hF hT⟩
  · exact ⟨rspt_without_codec, fun R hR => ⟨rspt_beyond hR, fun u hi hu => rspt_succeeds hR hi hu⟩⟩

end Sys2Proof.Machine
end

section
/-! Coefficient vectors as polynomials over `Z_p` (00_scope.md R13), and the direct product (41_element.md R125) as the
remainder of the polynomial product modulo `g`. -/

namespace Sys2Proof.Machine

open Polynomial

/-! ### The polynomial of a list of coefficients -/

theorem coeff_polyOf (p : Nat) (u : List Nat) (i : Nat) : (polyOf p u).coeff i = (slot u i : ZMod p) := by
  simp only [polyOf, finsetSum_coeff, coeff_monomial, Finset.sum_ite_eq', Finset.mem_range]
  split
  · rfl
  · rename_i hi
    rw [slot_of_le (not_lt.1 hi), Nat.cast_zero]

theorem degree_polyOf_lt (p : Nat) (u : List Nat) : (polyOf p u).degree < u.length :=
  (degree_lt_iff_coeff_zero _ _).2 fun i hi => by rw [coeff_polyOf, slot_of_le hi, Nat.cast_zero]

theorem natCast_fmod (a : Int) {b : Nat} (hb : 0 < b) : (fmod a b : ZMod b) = (a : ZMod b) := by
  rw [← ZMod.intCast_mod a b, ← Int.cast_natCast, fmod, Int.toNat_of_nonneg (Int.emod_nonneg a (by omega))]

namespace FieldCtx

variable {F : FieldCtx}

theorem slot_lt (h : F.Ring) {u : Vec} (hu : ∀ x ∈ u, x < F.p) (i : Nat) : slot u i < F.p := by
  by_cases hi : i < u.length
  · exact slot_of_lt hi ▸ hu _ (List.getElem_mem hi)
  · exact slot_of_le (not_lt.1 hi) ▸ h.p_pos

theorem polyOf_injective (h : F.Ring) {u v : Vec} (hu : F.IsVec u) (hv : F.IsVec v)
    (huv : polyOf F.p u = polyOf F.p v) : u = v := by
  refine List.ext_getElem (hu.1.trans hv.1.symm) fun i hiu hiv => ?_
  have hcast : (slot u i : ZMod F.p) = (slot v i : ZMod F.p) := by
    rw [← coeff_polyOf, ← coeff_polyOf, huv]
  rw [ZMod.natCast_eq_natCast_iff', Nat.mod_eq_of_lt (slot_lt h hu.2 i), Nat.mod_eq_of_lt (slot_lt h hv.2 i)] at hcast
  rwa [slot_of_lt hiu, slot_of_lt hiv] at hcast

/-- The vector of the coefficients below `m` of a polynomial. -/
def vecOf (F : FieldCtx) (P : (ZMod F.p)[X]) : Vec := (List.range F.m).map (fun i => (P.coeff i).val)

theorem isVec_vecOf (h : F.Ring) (P : (ZMod F.p)[X]) : F.IsVec (F.vecOf P) :=
  have : NeZero F.p := ⟨h.p_pos.ne'⟩
  isVec_map_range fun _ => ZMod.val_lt _

theorem polyOf_vecOf (h : F.Ring) {P : (ZMod F.p)[X]} (hP : P.degree < F.m) : polyOf F.p (F.vecOf P) = P := by
  have : NeZero F.p := ⟨h.p_pos.ne'⟩
  ext i
  rw [coeff_polyOf]
  by_cases hi : i < F.m
  · rw [slot_of_lt (by simpa [vecOf] using hi)]
    simp [vecOf]
  · rw [slot_of_le (by simpa [vecOf] using hi), (degree_lt_iff_coeff_zero _ _).1 hP i (not_lt.1 hi), Nat.cast_zero]

theorem polyOf_zero (F : FieldCtx) : polyOf F.p F.zero = 0 := by
  ext i
  rw [coeff_polyOf, slot_zero, Nat.cast_zero, coeff_zero]

theorem polyOf_one (F : FieldCtx) : polyOf F.p F.one = 1 := by
  ext i
  rw [coeff_polyOf, slot_one, coeff_one]
  split <;> simp

/-! ### The reduction polynomial -/

theorem slot_g_of_gt (h : F.Ring) {i : Nat} (hi : F.m < i) : slot F.g i = 0 :=
  slot_of_le (by rw [h.gLength]; exact hi)

theorem monic_g (h : F.Ring) : (polyOf F.p F.g).Monic := by
  refine monic_of_degree_le F.m ((degree_le_iff_coeff_zero _ _).2 fun i hi => ?_) ?_
  · rw [coeff_polyOf, slot_g_of_gt h (by exact_mod_cast hi), Nat.cast_zero]
  · rw [coeff_polyOf, h.gMonic, Nat.cast_one]

theorem degree_g (h : F.Ring) : (polyOf F.p F.g).degree = F.m := by
  have : Fact F.p.Prime := ⟨h.prime⟩
  refine le_antisymm ((degree_le_iff_coeff_zero _ _).2 fun i hi => ?_) (le_degree_of_ne_zero ?_)
  · rw [coeff_polyOf, slot_g_of_gt h (by exact_mod_cast hi), Nat.cast_zero]
  · rw [coeff_polyOf, h.gMonic, Nat.cast_one]
    exact NeZero.ne 1

/-! ### The long division -/

/-- One step of the long division subtracts a multiple of `g`. -/
theorem polyOf_reduceAt (h : F.Ring) {w : List Nat} {k : Nat} (hk : k < w.length) (hmk : F.m ≤ k) :
    polyOf F.p (F.reduceAt w k) =
      polyOf F.p w - C (slot w k : ZMod F.p) * (X ^ (k - F.m) * polyOf F.p F.g) := by
  ext i
  rw [coeff_sub, coeff_C_mul, coeff_X_pow_mul', coeff_polyOf, coeff_polyOf, coeff_polyOf]
  by_cases hi : i < w.length
  · rw [slot_of_lt (by simpa using hi), slot_of_lt hi]
    simp only [reduceAt, List.getElem_mapIdx]
    by_cases hlow : k - F.m ≤ i
    · by_cases hhigh : i ≤ k
      · simp [hlow, hhigh, natCast_fmod _ h.p_pos]
      · simp [hlow, hhigh, slot_g_of_gt h (show F.m < i - (k - F.m) by omega)]
    · simp [hlow]
  · rw [slot_of_le (by simpa using hi), slot_of_le (not_lt.1 hi), slot_g_of_gt h (by omega)]
    simp

/-- The long division from the coefficient `m + n - 1` down leaves the remainder modulo `g`. -/
theorem polyOf_foldl_reduceAt (h : F.Ring) (n : Nat) {w : List Nat} (hlen : F.m + n ≤ w.length)
    (hdeg : (polyOf F.p w).degree < (F.m + n : Nat)) :
    polyOf F.p (((List.range n).reverse.map (fun i => i + F.m)).foldl F.reduceAt w) =
      polyOf F.p w %ₘ polyOf F.p F.g := by
  have : Fact F.p.Prime := ⟨h.prime⟩
  induction n generalizing w with
  | zero => exact ((modByMonic_eq_self_iff (monic_g h)).2 (by rwa [degree_g h])).symm
  | succ n ih =>
    have hstep := polyOf_reduceAt h (w := w) (k := n + F.m) (by omega) (by omega)
    have hdeg' : (polyOf F.p (F.reduceAt w (n + F.m))).degree < (F.m + n : Nat) := by
      refine (degree_lt_iff_coeff_zero _ _).2 fun i hi => ?_
      rw [hstep, coeff_sub, coeff_C_mul, coeff_X_pow_mul', if_pos (by omega), coeff_polyOf F.p F.g]
      rcases hi.eq_or_lt with rfl | hlt
      · rw [show F.m + n - (n + F.m - F.m) = F.m by omega, h.gMonic, coeff_polyOf, Nat.add_comm n]
        simp
      · rw [slot_g_of_gt h (by omega), (degree_lt_iff_coeff_zero _ _).1 hdeg i (by omega)]
        simp
    rw [List.range_succ, List.reverse_append, List.reverse_singleton, List.singleton_append, List.map_cons,
      List.foldl_cons, ih (by rw [reduceAt_length]; omega) hdeg', hstep, sub_modByMonic, ← mul_assoc,
      mul_self_modByMonic (monic_g h), sub_zero]

/-! ### The product -/

/-- The terms of the product's sum, taken from the two vectors, are those of the convolution of all slots. -/
theorem sum_conv_terms {u v : Vec} (hu : F.IsVec u) (hv : F.IsVec v) (k : Nat) :
    (∑ i ∈ Finset.range F.m, if i ≤ k ∧ k - i < F.m then slot u i * slot v (k - i) else 0) =
      ∑ i ∈ Finset.range (k + 1), slot u i * slot v (k - i) := by
  have hu0 : ∀ i ≥ F.m, slot u i = 0 := fun i hi => slot_of_le (hu.1.trans_le hi)
  have hv0 : ∀ i ≥ F.m, slot v i = 0 := fun i hi => slot_of_le (hv.1.trans_le hi)
  have hterm : ∀ i, (if i ≤ k ∧ k - i < F.m then slot u i * slot v (k - i) else 0) =
      if i ≤ k then slot u i * slot v (k - i) else 0 := by
    intro i
    by_cases hki : k - i < F.m
    · simp [hki]
    · simp [hki, hv0 _ (not_lt.1 hki)]
  rw [Finset.sum_congr rfl fun i _ => hterm i,
    ← Finset.eventually_constant_sum (fun i hi => by simp [hu0 i hi]) (Nat.le_add_right F.m (k + 1)),
    Finset.eventually_constant_sum (fun i hi => if_neg (by omega)) (Nat.le_add_left (k + 1) F.m)]
  exact Finset.sum_congr rfl fun i hi => if_pos (Nat.lt_succ_iff.1 (Finset.mem_range.1 hi))

theorem conv_eq_coeff {u v : Vec} (hu : F.IsVec u) (hv : F.IsVec v) (k : Nat) :
    (F.conv u v k : ZMod F.p) = (polyOf F.p u * polyOf F.p v).coeff k := by
  have hsum : F.conv u v k = (∑ i ∈ Finset.range (k + 1), slot u i * slot v (k - i)) % F.p :=
    congrArg (· % F.p) (sum_conv_terms hu hv k)
  rw [hsum, ZMod.natCast_mod, coeff_mul, Finset.Nat.sum_antidiagonal_eq_sum_range_succ_mk, Nat.cast_sum]
  simp only [coeff_polyOf, Nat.cast_mul]

theorem degree_product_lt (h : F.Ring) {u v : Vec} (hu : F.IsVec u) (hv : F.IsVec v) :
    (polyOf F.p u * polyOf F.p v).degree < (2 * F.m - 1 : Nat) := by
  have hm := h.degree
  refine (degree_lt_iff_coeff_zero _ _).2 fun k hk => ?_
  rw [coeff_mul]
  refine Finset.sum_eq_zero fun x hx => ?_
  have hx := Finset.HasAntidiagonal.mem_antidiagonal.1 hx
  rw [coeff_polyOf, coeff_polyOf]
  by_cases hx1 : F.m ≤ x.1
  · rw [slot_of_le (hu.1.trans_le hx1), Nat.cast_zero, zero_mul]
  · rw [slot_of_le (hv.1.trans_le (show F.m ≤ x.2 by omega)), Nat.cast_zero, mul_zero]

/-- The list that the direct rule starts from stands for the product of the polynomials. -/
theorem polyOf_conv (h : F.Ring) {u v : Vec} (hu : F.IsVec u) (hv : F.IsVec v) :
    polyOf F.p ((List.range (2 * F.m - 1)).map (F.conv u v)) = polyOf F.p u * polyOf F.p v := by
  ext k
  rw [coeff_polyOf]
  by_cases hk : k < 2 * F.m - 1
  · rw [slot_of_lt (by simpa using hk), List.getElem_map, List.getElem_range, conv_eq_coeff hu hv]
  · rw [slot_of_le (by simpa using hk), (degree_lt_iff_coeff_zero _ _).1 (degree_product_lt h hu hv) k (not_lt.1 hk),
      Nat.cast_zero]

theorem polyOf_take {p n : Nat} {w : List Nat} (hdeg : (polyOf p w).degree < n) :
    polyOf p (w.take n) = polyOf p w := by
  ext i
  by_cases hi : i < n
  · rw [coeff_polyOf, coeff_polyOf, slot, slot, List.getD_eq_getElem?_getD, List.getElem?_take_of_lt hi,
      List.getD_eq_getElem?_getD]
  · rw [(degree_lt_iff_coeff_zero _ _).1 hdeg i (not_lt.1 hi), coeff_polyOf, slot_of_le (by simp; omega), Nat.cast_zero]

/-- The direct product is the product of the polynomials modulo `g` (R125). -/
theorem polyOf_dmul (h : F.Ring) {u v : Vec} (hu : F.IsVec u) (hv : F.IsVec v) :
    polyOf F.p (F.dmul u v) = (polyOf F.p u * polyOf F.p v) %ₘ polyOf F.p F.g := by
  have : Fact F.p.Prime := ⟨h.prime⟩
  have hm := h.degree
  have hlen : F.m + (F.m - 1) = 2 * F.m - 1 := by omega
  have hdiv := polyOf_foldl_reduceAt h (F.m - 1) (w := (List.range (2 * F.m - 1)).map (F.conv u v))
    (by simp [hlen]) (by rw [polyOf_conv h hu hv, hlen]; exact degree_product_lt h hu hv)
  rw [polyOf_conv h hu hv] at hdiv
  rw [← hdiv]
  refine polyOf_take ?_
  rw [hdiv, ← degree_g h]
  exact degree_modByMonic_lt _ (monic_g h)

end FieldCtx

end Sys2Proof.Machine
end

section
/-! The ring of a field context (41_element.md R144): vectors as the residues of polynomials modulo `g`, and when that
ring is a field. -/

namespace Sys2Proof.Machine.FieldCtx

variable {F : FieldCtx}

/-! ### Residues -/

/-- The residue modulo `g` that a vector stands for. -/
noncomputable def residue (F : FieldCtx) (u : Vec) : AdjoinRoot (polyOf F.p F.g) := AdjoinRoot.mk _ (polyOf F.p u)

theorem mk_modByMonic (F : FieldCtx) (P : Polynomial (ZMod F.p)) :
    AdjoinRoot.mk (polyOf F.p F.g) (P %ₘ polyOf F.p F.g) = AdjoinRoot.mk _ P := by
  rw [Polynomial.modByMonic_eq_sub_mul_div, map_sub, map_mul, AdjoinRoot.mk_self, zero_mul, sub_zero]

theorem residue_zero (F : FieldCtx) : F.residue F.zero = 0 := by
  rw [residue, polyOf_zero, map_zero]

theorem residue_one (F : FieldCtx) : F.residue F.one = 1 := by
  rw [residue, polyOf_one, map_one]

theorem residue_dmul (h : F.Ring) {u v : Vec} (hu : F.IsVec u) (hv : F.IsVec v) :
    F.residue (F.dmul u v) = F.residue u * F.residue v := by
  rw [residue, polyOf_dmul h hu hv, mk_modByMonic, map_mul, residue, residue]

theorem residue_power (h : F.Ring) {e : Vec} (he : F.IsVec e) (n : Nat) :
    F.residue (F.power e n) = F.residue e ^ n := by
  induction n with
  | zero => rw [power, residue_one, pow_zero]
  | succ n ih => rw [power, residue_dmul h (isVec_power h e n) he, ih, pow_succ]

theorem residue_injective (h : F.Ring) {u v : Vec} (hu : F.IsVec u) (hv : F.IsVec v)
    (huv : F.residue u = F.residue v) : u = v := by
  have : Fact F.p.Prime := ⟨h.prime⟩
  have hdvd : polyOf F.p F.g ∣ polyOf F.p u - polyOf F.p v := AdjoinRoot.mk_eq_mk.1 huv
  have hlt : ∀ w : Vec, F.IsVec w → (polyOf F.p w).degree < F.m := fun w hw => hw.1 ▸ degree_polyOf_lt F.p w
  have hdeg : (polyOf F.p u - polyOf F.p v).degree < (polyOf F.p F.g).degree := by
    rw [degree_g h]
    exact (Polynomial.degree_sub_le _ _).trans_lt (max_lt (hlt u hu) (hlt v hv))
  exact polyOf_injective h hu hv (sub_eq_zero.1 (Polynomial.eq_zero_of_dvd_of_degree_lt hdvd hdeg))

theorem exists_isVec_residue (h : F.Ring) (x : AdjoinRoot (polyOf F.p F.g)) : ∃ u, F.IsVec u ∧ F.residue u = x := by
  have : Fact F.p.Prime := ⟨h.prime⟩
  obtain ⟨P, rfl⟩ := AdjoinRoot.mk_surjective x
  refine ⟨F.vecOf (P %ₘ polyOf F.p F.g), isVec_vecOf h _, ?_⟩
  rw [residue, polyOf_vecOf h (degree_g h ▸ Polynomial.degree_modByMonic_lt P (monic_g h)), mk_modByMonic]

theorem nontrivial_residues (h : F.Ring) : Nontrivial (AdjoinRoot (polyOf F.p F.g)) :=
  ⟨F.residue F.one, F.residue F.zero, fun h0 => one_ne_zero h (residue_injective h (isVec_one h) (isVec_zero h) h0)⟩

/-! ### The number of residues -/

theorem unidx_idx (h : F.Ring) {u : Vec} (hu : F.IsVec u) : F.unidx (F.idx u) = u :=
  idx_injective h (isVec_unidx h _) hu (idx_unidx h (idx_lt h hu))

/-- The canonical indices number the residues. -/
theorem bijective_residue_unidx (h : F.Ring) : Function.Bijective fun j : Fin F.q => F.residue (F.unidx j) := by
  constructor
  · intro i j hij
    have hvec : F.unidx i = F.unidx j := residue_injective h (isVec_unidx h _) (isVec_unidx h _) hij
    exact Fin.ext (by rw [← idx_unidx h i.isLt, hvec, idx_unidx h j.isLt])
  · intro x
    obtain ⟨u, hu, rfl⟩ := exists_isVec_residue h x
    exact ⟨⟨F.idx u, idx_lt h hu⟩, congrArg F.residue (unidx_idx h hu)⟩

theorem card_residues (h : F.Ring) : Nat.card (AdjoinRoot (polyOf F.p F.g)) = F.q := by
  rw [← Nat.card_eq_of_bijective _ (bijective_residue_unidx h), Nat.card_fin]

theorem finite_residues (h : F.Ring) : Finite (AdjoinRoot (polyOf F.p F.g)) :=
  Finite.of_surjective _ (bijective_residue_unidx h).2

/-! ### Primitive elements (40_field.md R96, R106) -/

theorem power_eq_one_iff (h : F.Ring) {e : Vec} (he : F.IsVec e) (n : Nat) :
    F.power e n = F.one ↔ F.residue e ^ n = 1 := by
  rw [← residue_power h he, ← residue_one]
  exact ⟨congrArg _, residue_injective h (isVec_power h e n) (isVec_one h)⟩

theorem isPrimitive_iff_orderOf (h : F.Ring) {e : Vec} (he : F.IsVec e) :
    F.IsPrimitive e ↔ orderOf (F.residue e) = F.q - 1 := by
  have hq := h.one_lt_q
  simp only [IsPrimitive, orderOf_eq_iff (Nat.sub_pos_of_lt hq), power_eq_one_iff h he, ne_eq]
  exact and_congr_right fun _ => ⟨fun hall i hi h0 => hall i h0 hi, fun hall i h0 hi => hall i hi h0⟩

/-- Every nonzero residue is a power of a primitive element, so it is invertible. -/
theorem isUnit_of_isPrimitive (h : F.Ring) {e : Vec} (he : F.IsVec e) (hprim : F.IsPrimitive e)
    {x : AdjoinRoot (polyOf F.p F.g)} (hx : x ≠ 0) : IsUnit x := by
  have hq := h.one_lt_q
  obtain ⟨u, hu, rfl⟩ := exists_isVec_residue h x
  have hne : u ≠ F.zero := by
    rintro rfl
    exact hx F.residue_zero
  obtain ⟨i, -, hi⟩ := exists_power_of_idx h hprim (idx_pos h hu hne) (idx_lt h hu)
  have hunit : IsUnit (F.residue e) :=
    IsUnit.of_pow_eq_one ((power_eq_one_iff h he _).1 hprim.1) (Nat.sub_pos_of_lt hq).ne'
  rw [← idx_injective h (isVec_power h e i) hu hi, residue_power h he]
  exact hunit.pow i

theorem irreducible_of_isPrimitive (h : F.Ring) {e : Vec} (he : F.IsVec e) (hprim : F.IsPrimitive e) :
    Irreducible (polyOf F.p F.g) := by
  have : Fact F.p.Prime := ⟨h.prime⟩
  have hfield : IsField (AdjoinRoot (polyOf F.p F.g)) :=
    { exists_pair_ne := (nontrivial_residues h).exists_pair_ne
      mul_comm := mul_comm
      mul_inv_cancel := fun hx => (isUnit_of_isPrimitive h he hprim hx).exists_right_inv }
  have hmax : (Ideal.span {polyOf F.p F.g}).IsMaximal := Ideal.Quotient.maximal_of_isField _ hfield
  exact ((Ideal.span_singleton_prime (monic_g h).ne_zero).1 hmax.isPrime).irreducible

/-- The units of a finite field are cyclic, and the vector of a generator is primitive. -/
theorem exists_isPrimitive (h : F.Ring) (hirr : Irreducible (polyOf F.p F.g)) : ∃ e, F.IsVec e ∧ F.IsPrimitive e := by
  have : Fact F.p.Prime := ⟨h.prime⟩
  have : Fact (Irreducible (polyOf F.p F.g)) := ⟨hirr⟩
  have := finite_residues h
  obtain ⟨x, hx⟩ := IsCyclic.exists_ofOrder_eq_natCard (α := (AdjoinRoot (polyOf F.p F.g))ˣ)
  obtain ⟨e, he, hex⟩ := exists_isVec_residue h (x : AdjoinRoot (polyOf F.p F.g))
  refine ⟨e, he, (isPrimitive_iff_orderOf h he).2 ?_⟩
  rw [hex, orderOf_units, hx, Nat.card_units, card_residues h]

/-- The search for a primitive element decides whether `g` is irreducible (R106). -/
theorem findPrimitive_eq_none_iff_not_irreducible (h : F.Ring) :
    findPrimitive F = none ↔ ¬ Irreducible (polyOf F.p F.g) := by
  constructor
  · intro hnone hirr
    obtain ⟨e, he, hprim⟩ := exists_isPrimitive h hirr
    have hne : e ≠ F.zero := fun h0 =>
      power_ne_zero h hprim (Nat.le_sub_one_of_lt h.one_lt_q) ((power_one h he).trans h0)
    refine (findPrimitive_eq_none_iff h).1 hnone (F.idx e) (idx_pos h he hne) (idx_lt h he) ?_
    rwa [unidx_idx h he]
  · intro hirr
    refine (findPrimitive_eq_none_iff h).2 fun j _ _ hprim => hirr ?_
    exact irreducible_of_isPrimitive h (isVec_unidx h j) hprim

end Sys2Proof.Machine.FieldCtx

namespace Sys2Proof.Machine

/-- Settles O31: the search finds an element exactly when `g` is irreducible. -/
theorem fcfgWithTablesTestsIrreducibility : Obligations.FcfgWithTablesTestsIrreducibility := by
  intro s c ap m F hwf hvalid hF
  have hsearch := FieldCtx.findPrimitive_eq_none_iff_not_irreducible (F := F) (hF ▸ ring_plainField hvalid)
  obtain ⟨hfails, hsucceeds⟩ := fcfg_of_findPrimitive (c := c) hwf hvalid hF
  refine ⟨fun hirr => ?_, fun hred => hfails (hsearch.2 hred)⟩
  obtain ⟨prim, hprim⟩ := Option.ne_none_iff_exists'.1 fun hnone => hsearch.1 hnone hirr
  obtain ⟨t, hinstalls, ht⟩ := hsucceeds prim hprim
  exact ⟨t, _, hinstalls, ht⟩

end Sys2Proof.Machine
end

section
/-! The element commands (41_element.md R129 to R142): how a command of each operand form ends, the slots of the
coefficient-wise functions, and the commands that are coefficient-wise or compare. -/

namespace Sys2Proof.Machine

/-! ### What each element command is: an operand form and a field function (R130 to R142) -/

section
variable (s : State) (ed es1 es2 : EReg) (n : Int)

theorem exec_fadd : exec (.fadd ed es1 es2) s =
    storeResult s ed (pair s es1 es2) (fun F u v => .ok (F.add u v)) := rfl

theorem exec_fsub : exec (.fsub ed es1 es2) s =
    storeResult s ed (pair s es1 es2) (fun F u v => .ok (F.sub u v)) := rfl

theorem exec_fmul : exec (.fmul ed es1 es2) s =
    storeResult s ed (pair s es1 es2) (fun F u v => .ok (F.mul u v)) := rfl

theorem exec_pmulg : exec (.pmulg ed es1 es2) s =
    storeResult s ed (pair s es1 es2) (fun F u v => .ok (F.dmul u v)) := rfl

theorem exec_fdiv : exec (.fdiv ed es1 es2) s = storeResult s ed (pair s es1 es2) (fun F u v => F.div u v) := rfl

theorem exec_faddi : exec (.faddi ed es1 n) s =
    storeResult s ed (withInt s es1 n) (fun F u k => .ok (F.add u k)) := rfl

theorem exec_fsubi : exec (.fsubi ed es1 n) s =
    storeResult s ed (withInt s es1 n) (fun F u k => .ok (F.sub u k)) := rfl

theorem exec_frsubi : exec (.frsubi ed es1 n) s =
    storeResult s ed (withInt s es1 n) (fun F u k => .ok (F.sub k u)) := rfl

theorem exec_fmuli : exec (.fmuli ed es1 n) s =
    storeResult s ed (withInt s es1 n) (fun F u k => .ok (F.mul u k)) := rfl

theorem exec_fdivi : exec (.fdivi ed es1 n) s = storeResult s ed (withInt s es1 n) (fun F u k => F.div u k) := rfl

theorem exec_frdivi : exec (.frdivi ed es1 n) s = storeResult s ed (withInt s es1 n) (fun F u k => F.div k u) := rfl

/-- FNEG reads its operand as the commands of a register and an integer do. -/
theorem exec_fneg : exec (.fneg ed es1) s =
    storeResult s ed (withInt s es1 n) (fun F u _ => .ok (F.neg u)) := by
  simp only [exec, execFneg, storeResult, withInt, bind_assoc, except_pure, except_bind_ok]

end

/-! ### The operand forms (R129) -/

section
variable {s : State} {i : Instr} {ed es1 es2 : EReg} {c : Ctx} {F : FieldCtx} {u v : Vec}
  {f : FieldCtx → Vec → Vec → Except Err Vec}

theorem pair_held (hu : s.e.get es1 = some ⟨c, u⟩) (hv : s.e.get es2 = some ⟨c, v⟩) (hF : s.fc.get c = some F) :
    pair s es1 es2 = .ok ⟨c, F, u, v⟩ := (pair_eq_ok s es1 es2 _).2 ⟨hu, hv, hF⟩

theorem withInt_held (hu : s.e.get es1 = some ⟨c, u⟩) (hF : s.fc.get c = some F) (n : Int) :
    withInt s es1 n = .ok ⟨c, F, u, F.promote n⟩ := (withInt_eq_ok s es1 n _).2 ⟨hu, hF, rfl⟩

theorem pair_of_different_fields {x y : Elem} (hx : s.e.get es1 = some x) (hy : s.e.get es2 = some y)
    (hne : x.ctx ≠ y.ctx) : pair s es1 es2 = .error .fieldMismatch := by
  rw [pair, readE_held hx, except_bind_ok, readE_held hy, except_bind_ok, beq_eq_false_iff_ne.2 hne]
  rfl

theorem succeeds_of_storeResult {ops : Except Err Operands} {P : Operands} {r : Vec}
    (hexec : exec i s = storeResult s ed ops f) (hops : ops = .ok P) (hr : f P.field P.u P.v = .ok r) :
    Succeeds i s (writeE s ed ⟨P.ctx, r⟩) 0 :=
  succeeds_of_eq_ok (hexec.trans (storeResult_eq s ed P ops f hops)) (by rw [hr]; rfl) rfl

/-- A command of two registers of one field. -/
theorem succeeds_of_pair {r : Vec} (hexec : exec i s = storeResult s ed (pair s es1 es2) f)
    (hu : s.e.get es1 = some ⟨c, u⟩) (hv : s.e.get es2 = some ⟨c, v⟩) (hF : s.fc.get c = some F)
    (hr : f F u v = .ok r) : Succeeds i s (writeE s ed ⟨c, r⟩) 0 :=
  succeeds_of_storeResult hexec (pair_held hu hv hF) hr

/-- A command of a register and an integer. -/
theorem succeeds_of_withInt {r : Vec} {n : Int} (hexec : exec i s = storeResult s ed (withInt s es1 n) f)
    (hu : s.e.get es1 = some ⟨c, u⟩) (hF : s.fc.get c = some F) (hr : f F u (F.promote n) = .ok r) :
    Succeeds i s (writeE s ed ⟨c, r⟩) 0 :=
  succeeds_of_storeResult hexec (withInt_held hu hF n) hr

theorem fails_of_different_fields {x y : Elem} (hexec : exec i s = storeResult s ed (pair s es1 es2) f)
    (hx : s.e.get es1 = some x) (hy : s.e.get es2 = some y) (hne : x.ctx ≠ y.ctx) : Fails i s .fieldMismatch :=
  (fails_iff i s _).2 (hexec.trans (storeResult_of_error f (pair_of_different_fields hx hy hne)))

end

/-- Two commands of one operand form answer the same when their functions agree on the operands. -/
theorem storeResult_congr {s : State} {ed : EReg} {ops : Except Err Operands}
    {f g : FieldCtx → Vec → Vec → Except Err Vec}
    (hfg : ∀ P, ops = .ok P → f P.field P.u P.v = g P.field P.u P.v) :
    storeResult s ed ops f = storeResult s ed ops g := by
  cases ops with
  | error x => rfl
  | ok P => rw [storeResult_eq s ed P _ f rfl, storeResult_eq s ed P _ g rfl, hfg P rfl]

/-- Settles O48: the five commands have one operand form, which compares the contexts before it computes. -/
theorem differentFieldsDoNotCombine : Obligations.DifferentFieldsDoNotCombine := by
  intro s ed es1 es2 x y hx hy hne
  exact ⟨fails_of_different_fields (exec_fadd s ed es1 es2) hx hy hne,
    fails_of_different_fields (exec_fsub s ed es1 es2) hx hy hne,
    fails_of_different_fields (exec_fmul s ed es1 es2) hx hy hne,
    fails_of_different_fields (exec_fdiv s ed es1 es2) hx hy hne,
    fails_of_different_fields (exec_pmulg s ed es1 es2) hx hy hne⟩

theorem feq_succeeds {s : State} {es1 es2 : EReg} {x y : Elem} (hx : s.e.get es1 = some x)
    (hy : s.e.get es2 = some y) :
    Succeeds (.feq es1 es2) s s (if x.ctx = y.ctx ∧ x.coef = y.coef then 1 else 0) := by
  refine succeeds_of_eq_ok rfl ?_ rfl
  rw [readE_held hx, except_bind_ok, readE_held hy]
  rfl

/-- Settles O47: an element value is its context and its vector. -/
theorem feqComparesFieldAndVector : Obligations.FeqComparesFieldAndVector := by
  intro s es1 es2 x y hx hy
  have hfeq := feq_succeeds hx hy
  have hiff : (x.ctx = y.ctx ∧ x.coef = y.coef) ↔ x = y := by
    rw [← Elem.mk.injEq]
  simp only [hiff] at hfeq
  exact ⟨fun heq => by rwa [if_pos heq] at hfeq, fun hne => by rwa [if_neg hne] at hfeq⟩

/-! ### The floored remainder -/

/-- The difference mod `p` gives the minuend back. -/
theorem fmod_sub_add_mod (a b : Nat) {p : Nat} (hp : 0 < p) : (fmod ((a : Int) - b) p + b) % p = a % p := by
  rw [← ZMod.natCast_eq_natCast_iff', Nat.cast_add, natCast_fmod _ hp]
  simp

theorem fmod_neg_add_mod (a : Nat) {p : Nat} (hp : 0 < p) : (fmod (-(a : Int)) p + a) % p = 0 := by
  simpa using fmod_sub_add_mod 0 a hp

theorem natCast_fmod_int (a : Int) {p : Nat} (hp : 0 < p) : (fmod a p : Int) = a % p :=
  Int.toNat_of_nonneg (Int.emod_nonneg a (by omega))

theorem fmod_eq_zero_iff (a : Int) {p : Nat} (hp : 0 < p) : fmod a p = 0 ↔ (p : Int) ∣ a := by
  rw [Int.dvd_iff_emod_eq_zero, ← natCast_fmod_int a hp, Int.natCast_eq_zero]

/-! ### Slots of the coefficient-wise functions (R120 to R124) -/

namespace FieldCtx

variable {F : FieldCtx}

theorem slot_map_range (f : Nat → Nat) {n i : Nat} (hi : i < n) : slot ((List.range n).map f) i = f i := by
  rw [slot_of_lt (by simpa using hi), List.getElem_map, List.getElem_range]

theorem slot_add (u v : Vec) {i : Nat} (hi : i < F.m) : slot (F.add u v) i = (slot u i + slot v i) % F.p :=
  slot_map_range _ hi

theorem slot_sub (u v : Vec) {i : Nat} (hi : i < F.m) :
    slot (F.sub u v) i = fmod ((slot u i : Int) - (slot v i : Int)) F.p := slot_map_range _ hi

theorem slot_neg (u : Vec) {i : Nat} (hi : i < F.m) : slot (F.neg u) i = fmod (-(slot u i : Int)) F.p :=
  slot_map_range _ hi

theorem slot_promote (F : FieldCtx) (n : Int) (i : Nat) :
    slot (F.promote n) i = if i = 0 then fmod n F.p else 0 := by
  cases i <;> simp [slot, promote]

theorem slot_promote_of_pos (F : FieldCtx) (n : Int) {i : Nat} (hi : 1 ≤ i) : slot (F.promote n) i = 0 := by
  rw [slot_promote, if_neg (Nat.one_le_iff_ne_zero.1 hi)]

theorem slot_of_isVec_of_le {u : Vec} (hu : F.IsVec u) {i : Nat} (hi : F.m ≤ i) : slot u i = 0 :=
  slot_of_le (hu.1.trans_le hi)

theorem add_length (F : FieldCtx) (u v : Vec) : (F.add u v).length = F.m := by simp [add]

theorem sub_length (F : FieldCtx) (u v : Vec) : (F.sub u v).length = F.m := by simp [sub]

theorem neg_length (F : FieldCtx) (u : Vec) : (F.neg u).length = F.m := by simp [neg]

/-! ### A register and an integer, slot by slot (R137 to R139) -/

section
variable {u : Vec} (h : F.Ring) (hu : F.IsVec u) (n : Int)
include h

theorem slot_add_promote_zero : (slot (F.add u (F.promote n)) 0 : Int) = ((slot u 0 : Int) + n) % (F.p : Int) := by
  rw [slot_add _ _ h.degree, slot_promote, if_pos rfl, Int.natCast_mod, Nat.cast_add, natCast_fmod_int n h.p_pos,
    Int.add_emod_emod]

theorem slot_sub_promote_zero : (slot (F.sub u (F.promote n)) 0 : Int) = ((slot u 0 : Int) - n) % (F.p : Int) := by
  rw [slot_sub _ _ h.degree, slot_promote, if_pos rfl, natCast_fmod_int _ h.p_pos, natCast_fmod_int n h.p_pos,
    Int.sub_emod_emod]

theorem slot_promote_sub_zero : (slot (F.sub (F.promote n) u) 0 : Int) = (n - (slot u 0 : Int)) % (F.p : Int) := by
  rw [slot_sub _ _ h.degree, slot_promote, if_pos rfl, natCast_fmod_int _ h.p_pos, natCast_fmod_int n h.p_pos,
    Int.emod_sub_emod]

include hu

theorem slot_add_promote_of_pos {i : Nat} (hi : 1 ≤ i) : slot (F.add u (F.promote n)) i = slot u i := by
  by_cases him : i < F.m
  · rw [slot_add _ _ him, slot_promote_of_pos F n hi, Nat.add_zero, Nat.mod_eq_of_lt (slot_lt h hu.2 i)]
  · rw [slot_of_isVec_of_le hu (not_lt.1 him), slot_of_isVec_of_le (isVec_add h _ _) (not_lt.1 him)]

theorem slot_sub_promote_of_pos {i : Nat} (hi : 1 ≤ i) : slot (F.sub u (F.promote n)) i = slot u i := by
  by_cases him : i < F.m
  · rw [slot_sub _ _ him, slot_promote_of_pos F n hi, Nat.cast_zero, sub_zero, fmod_natCast,
      Nat.mod_eq_of_lt (slot_lt h hu.2 i)]
  · rw [slot_of_isVec_of_le hu (not_lt.1 him), slot_of_isVec_of_le (isVec_sub h _ _) (not_lt.1 him)]

theorem slot_promote_sub_of_pos {i : Nat} (hi : 1 ≤ i) : (slot (F.sub (F.promote n) u) i + slot u i) % F.p = 0 := by
  by_cases him : i < F.m
  · rw [slot_sub _ _ him, slot_promote_of_pos F n hi, fmod_sub_add_mod 0 _ h.p_pos, Nat.zero_mod]
  · rw [slot_of_isVec_of_le hu (not_lt.1 him), slot_of_isVec_of_le (isVec_sub h _ _) (not_lt.1 him), Nat.zero_mod]

end

end FieldCtx

/-! ### The statements -/

/-- Settles O38: each of the three writes its function's vector, whose slots are remainders mod `p`. -/
theorem faddFsubFneg : Obligations.FaddFsubFneg := by
  intro s ed es1 es2 c F u v hu hv hF hp
  refine ⟨⟨F.add u v, F.add_length u v, fun i hi => FieldCtx.slot_add u v hi,
      succeeds_of_pair (exec_fadd s ed es1 es2) hu hv hF rfl⟩,
    ⟨F.sub u v, F.sub_length u v, fun i hi => ?_, succeeds_of_pair (exec_fsub s ed es1 es2) hu hv hF rfl⟩,
    ⟨F.neg u, F.neg_length u, fun i hi => ?_, succeeds_of_withInt (exec_fneg s ed es1 0) hu hF rfl⟩⟩
  · rw [FieldCtx.slot_sub u v hi]
    exact ⟨fmod_lt _ hp, fmod_sub_add_mod _ _ hp⟩
  · rw [FieldCtx.slot_neg u hi]
    exact ⟨fmod_lt _ hp, fmod_neg_add_mod _ hp⟩

/-- Settles O39: the promoted integer has the slots of zero but for the first. -/
theorem faddiFsubiFrsubi : Obligations.FaddiFsubiFrsubi := by
  intro s ed es1 c F u n hu hF h hvec
  exact ⟨⟨_, FieldCtx.isVec_add h _ _, FieldCtx.slot_add_promote_zero h n,
      fun i hi => FieldCtx.slot_add_promote_of_pos h hvec n hi,
      succeeds_of_withInt (exec_faddi s ed es1 n) hu hF rfl⟩,
    ⟨_, FieldCtx.isVec_sub h _ _, FieldCtx.slot_sub_promote_zero h n,
      fun i hi => FieldCtx.slot_sub_promote_of_pos h hvec n hi,
      succeeds_of_withInt (exec_fsubi s ed es1 n) hu hF rfl⟩,
    ⟨_, FieldCtx.isVec_sub h _ _, FieldCtx.slot_promote_sub_zero h n,
      fun i hi => FieldCtx.slot_promote_sub_of_pos h hvec n hi,
      succeeds_of_withInt (exec_frsubi s ed es1 n) hu hF rfl⟩⟩

/-! ### The table path (R126, R127) -/

namespace FieldCtx

variable {F : FieldCtx} {T : Tables} {u v : Vec}

theorem mul_of_tables (hT : F.tables = some T) (hu : u ≠ F.zero) (hv : v ≠ F.zero) :
    F.mul u v = T.alogAt ((T.logAt (F.idx u) + T.logAt (F.idx v)) % (F.q - 1)) := by
  rw [mul, hT]
  exact if_neg (not_or.2 ⟨hu, hv⟩)

theorem mul_of_tables_of_zero (hT : F.tables = some T) (huv : u = F.zero ∨ v = F.zero) : F.mul u v = F.zero := by
  rw [mul, hT]
  exact if_pos huv

theorem mul_without_tables (hT : F.tables = none) (u v : Vec) : F.mul u v = F.dmul u v := by
  rw [mul, hT]

theorem quot_of_tables (hT : F.tables = some T) (hu : u ≠ F.zero) (v : Vec) :
    F.quot u v = T.alogAt (fmod ((T.logAt (F.idx u) : Int) - (T.logAt (F.idx v) : Int)) (F.q - 1)) := by
  rw [quot, hT]
  exact if_neg hu

theorem quot_of_tables_of_zero (hT : F.tables = some T) (v : Vec) : F.quot F.zero v = F.zero := by
  rw [quot, hT]
  exact if_pos rfl

theorem quot_without_tables (hT : F.tables = none) (u v : Vec) : F.quot u v = F.dmul u (F.dpow v (F.q - 2)) := by
  rw [quot, hT]

theorem div_of_ne_zero (u : Vec) (hv : v ≠ F.zero) : F.div u v = .ok (F.quot u v) := if_neg hv

end FieldCtx

/-- Settles O42: the words that the two look-ups of LOG and the one of ALOG find. -/
theorem tablePathOfFmulAndFdiv : Obligations.TablePathOfFmulAndFdiv := by
  intro s ed es1 es2 c F T u v hu hv hF hT
  refine ⟨fun i j w hu0 hv0 hi hj => ⟨fun hw => ?_, fun hw => ?_⟩, fun huv => ?_, fun hu0 hv0 => ?_⟩
  · have hmul := FieldCtx.mul_of_tables hT hu0 hv0
    rw [Tables.logAt_of_get hi, Tables.logAt_of_get hj, Tables.alogAt_of_get hw] at hmul
    exact succeeds_of_pair (exec_fmul s ed es1 es2) hu hv hF (congrArg Except.ok hmul)
  · have hquot := FieldCtx.quot_of_tables hT hu0 v
    rw [Tables.logAt_of_get hi, Tables.logAt_of_get hj, fmod, Tables.alogAt_of_get hw] at hquot
    exact succeeds_of_pair (exec_fdiv s ed es1 es2) hu hv hF
      ((FieldCtx.div_of_ne_zero u hv0).trans (congrArg Except.ok hquot))
  · exact succeeds_of_pair (exec_fmul s ed es1 es2) hu hv hF
      (congrArg Except.ok (FieldCtx.mul_of_tables_of_zero hT huv))
  · subst hu0
    have hquot := FieldCtx.quot_of_tables_of_zero hT v
    exact succeeds_of_pair (exec_fdiv s ed es1 es2) hu hv hF
      ((FieldCtx.div_of_ne_zero _ hv0).trans (congrArg Except.ok hquot))

end Sys2Proof.Machine
end

section
/-! The arithmetic of a context in its ring (41_element.md R121 to R125, R144): the coefficient-wise functions as
those of polynomials, the ring laws, and the canonical index as a sum. -/

namespace Sys2Proof.Machine

namespace FieldCtx

open Polynomial

variable {F : FieldCtx} {u v w : Vec}

/-! ### Polynomials of the coefficient-wise functions -/

theorem degree_polyOf_of_isVec (hu : F.IsVec u) : (polyOf F.p u).degree < F.m := hu.1 ▸ degree_polyOf_lt F.p u

/-- A computed vector stands for the polynomial of degree less than `m` whose coefficients it has. -/
theorem polyOf_map_range {f : Nat → Nat} {P : (ZMod F.p)[X]} (hP : P.degree < F.m)
    (hf : ∀ i, i < F.m → (f i : ZMod F.p) = P.coeff i) : polyOf F.p ((List.range F.m).map f) = P := by
  ext i
  rw [coeff_polyOf]
  by_cases hi : i < F.m
  · rw [slot_map_range f hi, hf i hi]
  · rw [slot_of_le (by simpa using hi), (degree_lt_iff_coeff_zero _ _).1 hP i (not_lt.1 hi), Nat.cast_zero]

theorem polyOf_add (hu : F.IsVec u) (hv : F.IsVec v) :
    polyOf F.p (F.add u v) = polyOf F.p u + polyOf F.p v := by
  refine polyOf_map_range ?_ fun i _ => ?_
  · exact (degree_add_le _ _).trans_lt (max_lt (degree_polyOf_of_isVec hu) (degree_polyOf_of_isVec hv))
  · rw [ZMod.natCast_mod, Nat.cast_add, coeff_add, coeff_polyOf, coeff_polyOf]

theorem polyOf_sub (h : F.Ring) (hu : F.IsVec u) (hv : F.IsVec v) :
    polyOf F.p (F.sub u v) = polyOf F.p u - polyOf F.p v := by
  refine polyOf_map_range ?_ fun i _ => ?_
  · exact (degree_sub_le _ _).trans_lt (max_lt (degree_polyOf_of_isVec hu) (degree_polyOf_of_isVec hv))
  · rw [natCast_fmod _ h.p_pos, coeff_sub, coeff_polyOf, coeff_polyOf]
    push_cast
    rfl

theorem polyOf_neg (h : F.Ring) (hu : F.IsVec u) : polyOf F.p (F.neg u) = -polyOf F.p u := by
  refine polyOf_map_range ?_ fun i _ => ?_
  · rw [degree_neg]
    exact degree_polyOf_of_isVec hu
  · rw [natCast_fmod _ h.p_pos, coeff_neg, coeff_polyOf]
    push_cast
    rfl

theorem polyOf_promote (h : F.Ring) (n : Int) : polyOf F.p (F.promote n) = C (n : ZMod F.p) := by
  ext i
  rw [coeff_polyOf, slot_promote, coeff_C]
  split
  · exact natCast_fmod n h.p_pos
  · exact Nat.cast_zero

/-! ### Residues -/

theorem residue_add (hu : F.IsVec u) (hv : F.IsVec v) : F.residue (F.add u v) = F.residue u + F.residue v := by
  rw [residue, polyOf_add hu hv, map_add, residue, residue]

theorem residue_sub (h : F.Ring) (hu : F.IsVec u) (hv : F.IsVec v) :
    F.residue (F.sub u v) = F.residue u - F.residue v := by
  rw [residue, polyOf_sub h hu hv, map_sub, residue, residue]

theorem residue_neg (h : F.Ring) (hu : F.IsVec u) : F.residue (F.neg u) = -F.residue u := by
  rw [residue, polyOf_neg h hu, map_neg, residue]

/-! ### The ring laws (R144)

Vectors with one residue are equal, and residues obey the laws of a commutative ring. -/

theorem add_vec_comm (F : FieldCtx) (u v : Vec) : F.add u v = F.add v u := by
  simp only [add, Nat.add_comm]

theorem add_vec_assoc (h : F.Ring) (hu : F.IsVec u) (hv : F.IsVec v) (hw : F.IsVec w) :
    F.add (F.add u v) w = F.add u (F.add v w) := by
  refine residue_injective h (isVec_add h _ _) (isVec_add h _ _) ?_
  rw [residue_add (isVec_add h u v) hw, residue_add hu hv, residue_add hu (isVec_add h v w), residue_add hv hw,
    add_assoc]

theorem add_vec_zero (h : F.Ring) (hu : F.IsVec u) : F.add u F.zero = u := by
  refine residue_injective h (isVec_add h _ _) hu ?_
  rw [residue_add hu (isVec_zero h), residue_zero, add_zero]

theorem add_vec_neg (h : F.Ring) (hu : F.IsVec u) : F.add u (F.neg u) = F.zero := by
  refine residue_injective h (isVec_add h _ _) (isVec_zero h) ?_
  rw [residue_add hu (isVec_neg h u), residue_neg h hu, residue_zero, add_neg_cancel]

theorem sub_vec_eq (h : F.Ring) (hu : F.IsVec u) (hv : F.IsVec v) : F.sub u v = F.add u (F.neg v) := by
  refine residue_injective h (isVec_sub h _ _) (isVec_add h _ _) ?_
  rw [residue_sub h hu hv, residue_add hu (isVec_neg h v), residue_neg h hv, sub_eq_add_neg]

theorem dmul_comm (h : F.Ring) (hu : F.IsVec u) (hv : F.IsVec v) : F.dmul u v = F.dmul v u := by
  refine residue_injective h (isVec_dmul h _ _) (isVec_dmul h _ _) ?_
  rw [residue_dmul h hu hv, residue_dmul h hv hu, mul_comm]

theorem dmul_assoc (h : F.Ring) (hu : F.IsVec u) (hv : F.IsVec v) (hw : F.IsVec w) :
    F.dmul (F.dmul u v) w = F.dmul u (F.dmul v w) := by
  refine residue_injective h (isVec_dmul h _ _) (isVec_dmul h _ _) ?_
  rw [residue_dmul h (isVec_dmul h u v) hw, residue_dmul h hu hv, residue_dmul h hu (isVec_dmul h v w),
    residue_dmul h hv hw, mul_assoc]

theorem dmul_add (h : F.Ring) (hu : F.IsVec u) (hv : F.IsVec v) (hw : F.IsVec w) :
    F.dmul u (F.add v w) = F.add (F.dmul u v) (F.dmul u w) := by
  refine residue_injective h (isVec_dmul h _ _) (isVec_add h _ _) ?_
  rw [residue_dmul h hu (isVec_add h v w), residue_add hv hw, residue_add (isVec_dmul h u v) (isVec_dmul h u w),
    residue_dmul h hu hv, residue_dmul h hu hw, mul_add]

theorem dmul_zero_right (h : F.Ring) (hu : F.IsVec u) : F.dmul u F.zero = F.zero :=
  (dmul_comm h hu (isVec_zero h)).trans (dmul_zero_left h u)

theorem dmul_one_right (h : F.Ring) (hu : F.IsVec u) : F.dmul u F.one = u :=
  (dmul_comm h hu (isVec_one h)).trans (dmul_one_left h hu)

/-! ### The canonical index (R121) -/

theorem idx_cons (F : FieldCtx) (x : Nat) (u : Vec) : F.idx (x :: u) = x + F.p * F.idx u := rfl

theorem idx_eq_sum (F : FieldCtx) (u : Vec) : F.idx u = ∑ i ∈ Finset.range u.length, slot u i * F.p ^ i := by
  induction u with
  | nil => rfl
  | cons x u ih =>
    have hshift : ∀ i, slot (x :: u) (i + 1) * F.p ^ (i + 1) = F.p * (slot u i * F.p ^ i) := fun i => by
      rw [pow_succ, mul_comm F.p, mul_assoc]
      rfl
    rw [List.length_cons, Finset.sum_range_succ', Finset.sum_congr rfl fun i _ => hshift i, ← Finset.mul_sum, ← ih,
      idx_cons, pow_zero, mul_one, add_comm]
    rfl

theorem idx_singleton (F : FieldCtx) (x : Nat) : F.idx [x] = x := rfl

theorem idx_one (F : FieldCtx) : F.idx F.one = 1 := by
  rw [one, idx_cons, idx_eq_ofDigits, Nat.ofDigits_replicate_zero]
  rfl

theorem slot_unidx (F : FieldCtx) (j : Nat) {i : Nat} (hi : i < F.m) : slot (F.unidx j) i = j / F.p ^ i % F.p :=
  slot_map_range _ hi

end FieldCtx

/-! ### The statements -/

/-- Settles O46: by the laws of the residues. -/
theorem ringLawsOfEveryContext : Obligations.RingLawsOfEveryContext := by
  intro F u v w h hu hv hw
  exact ⟨F.add_vec_comm u v, FieldCtx.add_vec_assoc h hu hv hw, FieldCtx.dmul_comm h hu hv,
    FieldCtx.dmul_assoc h hu hv hw, FieldCtx.dmul_add h hu hv hw, FieldCtx.add_vec_zero h hu,
    FieldCtx.dmul_one_right h hu, FieldCtx.add_vec_neg h hu, FieldCtx.sub_vec_eq h hu hv⟩

/-- Settles O37: the index is the number whose digits to the base `p` are the coefficients. -/
theorem canonicalIndexIsABijection : Obligations.CanonicalIndexIsABijection := by
  intro F h
  exact ⟨fun u hu => ⟨hu.1 ▸ F.idx_eq_sum u, FieldCtx.idx_lt h hu, FieldCtx.unidx_idx h hu⟩,
    fun j hj => ⟨FieldCtx.isVec_unidx h j, fun i hi => F.slot_unidx j hi, FieldCtx.idx_unidx h hj⟩,
    F.idx_zero, F.idx_one, fun _ x => F.idx_singleton x⟩

end Sys2Proof.Machine
end

section
/-! The table path and the direct path (41_element.md R126 to R128, R145): the powers by repeated squaring, the tables
as the powers of a primitive element, that the two paths give one product and one quotient, and what that says of the
element commands. -/

namespace Sys2Proof.Machine

namespace FieldCtx

variable {F : FieldCtx} {T : Tables} {u v : Vec}

/-! ### Powers by repeated squaring (R128) -/

/-- One turn of the loop: the factor that the lowest bit of the exponent asks for. -/
theorem residue_dpow_turn (h : F.Ring) {r s : Vec} (hr : F.IsVec r) (hs : F.IsVec s) (e : Nat) :
    F.residue (if e % 2 = 1 then F.dmul r s else r) = F.residue r * F.residue s ^ (e % 2) := by
  rcases Nat.mod_two_eq_zero_or_one e with he | he
  · simp [he]
  · simp [he, residue_dmul h hr hs]

theorem dpowLoop_residue (h : F.Ring) {fuel e : Nat} (hfuel : e ≤ fuel) {r s : Vec} (hr : F.IsVec r)
    (hs : F.IsVec s) :
    F.IsVec (F.dpowLoop fuel r s e) ∧ F.residue (F.dpowLoop fuel r s e) = F.residue r * F.residue s ^ e := by
  induction fuel generalizing e r s with
  | zero =>
    obtain rfl := Nat.le_zero.1 hfuel
    exact ⟨hr, by rw [dpowLoop, pow_zero, mul_one]⟩
  | succ fuel ih =>
    rw [dpowLoop]
    split
    · rename_i he
      exact ⟨hr, by rw [he, pow_zero, mul_one]⟩
    · have hr' : F.IsVec (if e % 2 = 1 then F.dmul r s else r) := by
        split
        · exact isVec_dmul h r s
        · exact hr
      obtain ⟨hvec, hres⟩ := ih (e := e / 2) (by omega) hr' (isVec_dmul h s s)
      refine ⟨hvec, ?_⟩
      rw [hres, residue_dpow_turn h hr hs, residue_dmul h hs hs, ← pow_two, ← pow_mul, mul_assoc, ← pow_add,
        Nat.mod_add_div]

/-- Repeated squaring computes the power (R128). -/
theorem dpow_eq_power (h : F.Ring) (hu : F.IsVec u) (e : Nat) : F.dpow u e = F.power u e := by
  obtain ⟨hvec, hres⟩ := dpowLoop_residue h le_rfl (isVec_one h) hu (e := e)
  refine residue_injective h hvec (isVec_power h u e) ?_
  exact hres.trans (by rw [residue_one, one_mul, residue_power h hu])

/-! ### The tables hold the powers of a primitive element (10_state.md R28 to R30)

The invariant lists the powers up to exponent `q - 2`. That the next one is the identity follows: if the primitive
element were no unit, every vector but the identity would be a multiple of it, and so would be `1 - prim`. -/

theorem TablesOk.power_injective (hT : F.TablesOk T) {i j : Nat} (hi : i < F.q - 1) (hj : j < F.q - 1)
    (heq : F.power T.prim i = F.power T.prim j) : i = j := by
  have hlogi := hT.logOfAlog i _ (hT.powers i hi)
  rw [heq, hT.logOfAlog j _ (hT.powers j hj)] at hlogi
  simpa using hlogi.symm

theorem TablesOk.power_ne_zero (hT : F.TablesOk T) {i : Nat} (hi : i < F.q - 1) : F.power T.prim i ≠ F.zero := by
  intro h0
  have hlog := hT.logOfAlog i _ (hT.powers i hi)
  rw [h0, idx_zero, hT.logZero] at hlog
  cases hlog

/-- Every nonzero residue is a power of the primitive element. -/
theorem TablesOk.exists_pow_eq (hT : F.TablesOk T) (h : F.Ring) {x : AdjoinRoot (polyOf F.p F.g)} (hx : x ≠ 0) :
    ∃ i, i < F.q - 1 ∧ F.residue T.prim ^ i = x := by
  obtain ⟨u, hu, rfl⟩ := exists_isVec_residue h x
  have hne : u ≠ F.zero := by
    rintro rfl
    exact hx F.residue_zero
  obtain ⟨i, hi, -, hpower⟩ := hT.log_of_isVec h hu hne
  exact ⟨i, hi, by rw [← residue_power h hT.primVec, hpower]⟩

theorem TablesOk.isUnit_prim (hT : F.TablesOk T) (h : F.Ring) (hq : 2 < F.q) : IsUnit (F.residue T.prim) := by
  have hprim : F.residue T.prim ≠ 0 := by
    rw [← residue_zero, ← power_one h hT.primVec]
    exact fun h0 => hT.power_ne_zero (i := 1) (by omega) (residue_injective h (isVec_power h _ _) (isVec_zero h) h0)
  by_cases hone : 1 - F.residue T.prim = 0
  · rw [← sub_eq_zero.1 hone]
    exact isUnit_one
  · obtain ⟨i, -, hi⟩ := hT.exists_pow_eq h hone
    cases i with
    | zero => exact absurd (sub_eq_self.1 (hi.symm.trans (pow_zero _))) hprim
    | succ i =>
      refine IsUnit.of_mul_eq_one (1 + F.residue T.prim ^ i) ?_
      rw [mul_add, mul_one, ← pow_succ', hi, add_sub_cancel]

theorem TablesOk.isPrimitive_prim (hT : F.TablesOk T) (h : F.Ring) (hq : 2 < F.q) : F.IsPrimitive T.prim := by
  have hbefore : ∀ i, 1 ≤ i → i < F.q - 1 → F.power T.prim i ≠ F.one := fun i h1 hi hone =>
    absurd (hT.power_injective (j := 0) hi (by omega) hone) (by omega)
  refine ⟨?_, hbefore⟩
  have hunit := hT.isUnit_prim h hq
  have := nontrivial_residues h
  obtain ⟨i, hi, heq⟩ := hT.exists_pow_eq h (hunit.pow (F.q - 1)).ne_zero
  have hreturn : F.residue T.prim ^ (F.q - 1 - i) = 1 := by
    refine (hunit.pow i).mul_left_cancel ?_
    rw [← pow_add, Nat.add_sub_cancel' hi.le, heq, mul_one]
  have hone := (power_eq_one_iff h hT.primVec _).2 hreturn
  obtain rfl : i = 0 := by
    by_contra hi0
    exact hbefore (F.q - 1 - i) (by omega) (by omega) hone
  exact hone

/-- The words of ALOG are the powers of a primitive element. For `q = 2` there is one word, and the identity is
primitive, whatever the context stores as its primitive element (log 9). -/
theorem TablesOk.exists_isPrimitive (hT : F.TablesOk T) (h : F.Ring) :
    ∃ e, F.IsVec e ∧ F.IsPrimitive e ∧ ∀ i, i < F.q - 1 → T.alogAt i = F.power e i := by
  have hq := h.one_lt_q
  rcases (show F.q = 2 ∨ 2 < F.q by omega) with hq2 | hq2
  · refine ⟨F.one, isVec_one h, ⟨?_, fun i h1 hi => by omega⟩, fun i hi => ?_⟩
    · rw [hq2]
      exact power_one h (isVec_one h)
    · obtain rfl : i = 0 := by omega
      exact hT.alogAt_eq_power hi
  · exact ⟨T.prim, hT.primVec, hT.isPrimitive_prim h hq2, fun i hi => hT.alogAt_eq_power hi⟩

/-! ### The two paths agree (R145) -/

/-- What the two look-ups of the table path find: exponents of a primitive element `x`, whose powers ALOG holds. -/
theorem TablesOk.lookup (hT : F.TablesOk T) (h : F.Ring) :
    ∃ x : AdjoinRoot (polyOf F.p F.g), x ^ (F.q - 1) = 1 ∧
      (∀ i, i < F.q - 1 → F.residue (T.alogAt i) = x ^ i) ∧
      ∀ u, F.IsVec u → u ≠ F.zero → F.residue u = x ^ T.logAt (F.idx u) := by
  obtain ⟨e, he, hprim, halog⟩ := hT.exists_isPrimitive h
  have hword : ∀ i, i < F.q - 1 → F.residue (T.alogAt i) = F.residue e ^ i := fun i hi => by
    rw [halog i hi, residue_power h he]
  refine ⟨F.residue e, (power_eq_one_iff h he _).1 hprim.1, hword, fun u hu hne => ?_⟩
  obtain ⟨i, hi, hlog, hpower⟩ := hT.log_of_isVec h hu hne
  rw [Tables.logAt_of_get hlog, ← hword i hi, hT.alogAt_eq_power hi, hpower]

theorem mul_eq_dmul (h : F.Sound) (hu : F.IsVec u) (hv : F.IsVec v) : F.mul u v = F.dmul u v := by
  have hring := h.ring
  have hq := hring.one_lt_q
  cases hT : F.tables with
  | none => exact mul_without_tables hT u v
  | some T =>
    by_cases hu0 : u = F.zero
    · rw [mul_of_tables_of_zero hT (.inl hu0), hu0, dmul_zero_left hring]
    by_cases hv0 : v = F.zero
    · rw [mul_of_tables_of_zero hT (.inr hv0), hv0, dmul_zero_right hring hu]
    obtain ⟨x, hx, hword, hlog⟩ := (h.tablesOk T hT).lookup hring
    refine residue_injective hring (isVec_mul h u v) (isVec_dmul hring u v) ?_
    rw [mul_of_tables hT hu0 hv0, hword _ (Nat.mod_lt _ (by omega)), ← pow_eq_pow_mod _ hx, pow_add,
      residue_dmul hring hu hv, hlog u hu hu0, hlog v hv hv0]

/-- The exponent that the quotient looks up is the difference modulo `n`. -/
theorem pow_fmod_sub {M : Type} [Monoid M] {x : M} {n : Nat} (hn : 0 < n) (hx : x ^ n = 1) (i j : Nat) :
    x ^ fmod ((i : Int) - j) n * x ^ j = x ^ i := by
  rw [← pow_add, pow_eq_pow_mod _ hx, fmod_sub_add_mod i j hn, ← pow_eq_pow_mod _ hx]

theorem quot_eq_dmul_power (h : F.Sound) (hu : F.IsVec u) (hv : F.IsVec v) (hv0 : v ≠ F.zero) :
    F.quot u v = F.dmul u (F.power v (F.q - 2)) := by
  have hring := h.ring
  have hq := hring.one_lt_q
  cases hT : F.tables with
  | none => rw [quot_without_tables hT, dpow_eq_power hring hv]
  | some T =>
    by_cases hu0 : u = F.zero
    · rw [hu0, quot_of_tables_of_zero hT, dmul_zero_left hring]
    obtain ⟨x, hx, hword, hlog⟩ := (h.tablesOk T hT).lookup hring
    have hn : 0 < F.q - 1 := by omega
    have hexponent := pow_fmod_sub hn hx (T.logAt (F.idx u)) (T.logAt (F.idx v))
    have hfermat : (x ^ T.logAt (F.idx v)) ^ (F.q - 2 + 1) = 1 := by
      rw [show F.q - 2 + 1 = F.q - 1 by omega, pow_right_comm, hx, one_pow]
    refine residue_injective hring (isVec_quot h u v) (isVec_dmul hring _ _) ?_
    rw [quot_of_tables hT hu0, hword _ (fmod_lt _ hn), residue_dmul hring hu (isVec_power hring v _),
      residue_power hring hv, hlog u hu hu0, hlog v hv hv0, ← hexponent, mul_assoc, ← pow_succ', hfermat, mul_one]

/-! ### Fields (R144) -/

/-- A field has a primitive element: with tables it is the one they are built from. -/
theorem HasFieldRing.exists_isPrimitive (hfield : F.HasFieldRing) (h : F.Sound) :
    ∃ e, F.IsVec e ∧ F.IsPrimitive e := by
  rcases hfield with ht | hirr
  · obtain ⟨T, hT⟩ := Option.isSome_iff_exists.1 ht
    obtain ⟨e, he, hprim, -⟩ := (h.tablesOk T hT).exists_isPrimitive h.ring
    exact ⟨e, he, hprim⟩
  · exact FieldCtx.exists_isPrimitive h.ring hirr

theorem HasFieldRing.residue_pow_eq_one (hfield : F.HasFieldRing) (h : F.Sound) (hv : F.IsVec v)
    (hv0 : v ≠ F.zero) : F.residue v ^ (F.q - 1) = 1 := by
  obtain ⟨e, he, hprim⟩ := hfield.exists_isPrimitive h
  obtain ⟨i, -, hi⟩ := exists_power_of_idx h.ring hprim (idx_pos h.ring hv hv0) (idx_lt h.ring hv)
  rw [← idx_injective h.ring (isVec_power h.ring e i) hv hi, residue_power h.ring he, pow_right_comm,
    (power_eq_one_iff h.ring he _).1 hprim.1, one_pow]

theorem HasFieldRing.quot_dmul_cancel (hfield : F.HasFieldRing) (h : F.Sound) (hu : F.IsVec u) (hv : F.IsVec v)
    (hv0 : v ≠ F.zero) : F.dmul (F.quot u v) v = u := by
  have hring := h.ring
  have hq := hring.one_lt_q
  refine residue_injective hring (isVec_dmul hring _ _) hu ?_
  rw [residue_dmul hring (isVec_quot h u v) hv, quot_eq_dmul_power h hu hv hv0,
    residue_dmul hring hu (isVec_power hring v _), residue_power hring hv, mul_assoc, ← pow_succ,
    show F.q - 2 + 1 = F.q - 1 by omega, hfield.residue_pow_eq_one h hv hv0, mul_one]

/-! ### Promoted integers (R120) -/

theorem promote_eq_zero_iff (h : F.Ring) (n : Int) : F.promote n = F.zero ↔ (F.p : Int) ∣ n := by
  rw [← fmod_eq_zero_iff n h.p_pos]
  constructor
  · intro h0
    have hslot := congrArg (slot · 0) h0
    simpa [slot_promote, slot_zero] using hslot
  · intro h0
    have hm := h.degree
    rw [promote, h0, ← List.replicate_succ, Nat.sub_add_cancel hm, zero]

theorem promote_one (h : F.Ring) : F.promote 1 = F.one := by
  rw [promote, one, show fmod 1 F.p = 1 % F.p from fmod_natCast 1 F.p, Nat.mod_eq_of_lt h.one_lt_p]

/-- A product by an integer is of degree less than `m`, so nothing is reduced (R140). -/
theorem polyOf_dmul_promote (h : F.Ring) (hu : F.IsVec u) (n : Int) :
    polyOf F.p (F.dmul u (F.promote n)) = polyOf F.p u * Polynomial.C (n : ZMod F.p) := by
  have : Fact F.p.Prime := ⟨h.prime⟩
  rw [polyOf_dmul h hu (isVec_promote h n), polyOf_promote h, Polynomial.modByMonic_eq_self_iff (monic_g h),
    degree_g h]
  refine lt_of_le_of_lt ?_ (degree_polyOf_of_isVec hu)
  rw [mul_comm, ← Polynomial.smul_eq_C_mul]
  exact Polynomial.degree_smul_le _ _

theorem dmul_promote_two (h : F.Ring) (hu : F.IsVec u) : F.dmul u (F.promote 2) = F.add u u := by
  refine polyOf_injective h (isVec_dmul h _ _) (isVec_add h _ _) ?_
  rw [polyOf_dmul_promote h hu, polyOf_add hu hu, Int.cast_ofNat, Polynomial.C_ofNat, mul_two]

theorem sub_promote_zero_left (F : FieldCtx) (u : Vec) : F.sub (F.promote 0) u = F.neg u := by
  have hslot : ∀ i, slot (F.promote 0) i = 0 := fun i => by simp [slot_promote, fmod]
  simp only [sub, neg, hslot, Nat.cast_zero, zero_sub]

end FieldCtx

/-! ### The statements -/

/-- Settles O40: the table path gives the direct product, which is the remainder modulo `g`. -/
theorem productsArePolynomialRemainders : Obligations.ProductsArePolynomialRemainders := by
  intro s ed es1 es2 c F u v n hs hu hv hF
  have hsound := hs.sound hF
  have hring := hsound.ring
  have hvecu := hs.isVec_register hu hF
  have hvecv := hs.isVec_register hv hF
  refine ⟨⟨_, FieldCtx.isVec_dmul hring u v, FieldCtx.polyOf_dmul hring hvecu hvecv, ?_,
      succeeds_of_pair (exec_pmulg s ed es1 es2) hu hv hF rfl⟩,
    ⟨_, FieldCtx.isVec_dmul hring u (F.promote n), fun i => ?_, ?_⟩⟩
  · rw [← FieldCtx.mul_eq_dmul hsound hvecu hvecv]
    exact succeeds_of_pair (exec_fmul s ed es1 es2) hu hv hF rfl
  · rw [← coeff_polyOf, FieldCtx.polyOf_dmul_promote hring hvecu, Polynomial.coeff_mul_C, coeff_polyOf]
  · rw [← FieldCtx.mul_eq_dmul hsound hvecu (FieldCtx.isVec_promote hring n)]
    exact succeeds_of_withInt (exec_fmuli s ed es1 n) hu hF rfl

/-- Settles O41: an operand form that fails gives both the same error, and else the two paths agree. -/
theorem fmulAndPmulgNeverDiffer : Obligations.FmulAndPmulgNeverDiffer := by
  intro s ed es1 es2 hs
  rw [exec_fmul, exec_pmulg]
  refine storeResult_congr fun P hP => ?_
  obtain ⟨hu, hv, hF⟩ := (pair_eq_ok s es1 es2 P).1 hP
  exact congrArg Except.ok
    (FieldCtx.mul_eq_dmul (hs.sound hF) (hs.isVec_register hu hF) (hs.isVec_register hv hF))

/-- The test of the divisor passes, and the quotient is a product. -/
theorem FieldCtx.div_eq_dmul_power {F : FieldCtx} (h : F.Sound) {u v : Vec} (hu : F.IsVec u) (hv : F.IsVec v)
    (hv0 : v ≠ F.zero) : F.div u v = .ok (F.dmul u (F.power v (F.q - 2))) :=
  (div_of_ne_zero u hv0).trans (congrArg Except.ok (quot_eq_dmul_power h hu hv hv0))

/-- Settles O43: the three commands divide, each in its own order of the operands. -/
theorem quotientsAreProductsWithAPower : Obligations.QuotientsAreProductsWithAPower := by
  intro s ed es1 es2 c F u v n hs hu hv hF
  have hsound := hs.sound hF
  have hvecu := hs.isVec_register hu hF
  have hvecv := hs.isVec_register hv hF
  have hvecn := FieldCtx.isVec_promote hsound.ring n
  refine ⟨fun hv0 => ?_, fun hn => ?_, fun hu0 => ?_⟩
  · exact succeeds_of_pair (exec_fdiv s ed es1 es2) hu hv hF (FieldCtx.div_eq_dmul_power hsound hvecu hvecv hv0)
  · have hn0 : F.promote n ≠ F.zero := fun h0 => hn ((FieldCtx.promote_eq_zero_iff hsound.ring n).1 h0)
    exact succeeds_of_withInt (exec_fdivi s ed es1 n) hu hF (FieldCtx.div_eq_dmul_power hsound hvecu hvecn hn0)
  · exact succeeds_of_withInt (exec_frdivi s ed es1 n) hu hF (FieldCtx.div_eq_dmul_power hsound hvecn hvecu hu0)

/-- Settles O44: in a field the divisor to the power `q - 1` is the identity; FINV divides the promoted 1. -/
theorem quotientTimesDivisorIsTheDividend : Obligations.QuotientTimesDivisorIsTheDividend := by
  intro s ed es1 es2 c F u v hs hu hv hF hfield hv0
  have hsound := hs.sound hF
  have hring := hsound.ring
  have hvecu := hs.isVec_register hu hF
  have hvecv := hs.isVec_register hv hF
  refine ⟨⟨_, FieldCtx.isVec_quot hsound u v, hfield.quot_dmul_cancel hsound hvecu hvecv hv0,
      succeeds_of_pair (exec_fdiv s ed es1 es2) hu hv hF (FieldCtx.div_of_ne_zero u hv0)⟩,
    ⟨_, FieldCtx.isVec_quot hsound (F.promote 1) v, ?_,
      succeeds_of_withInt (exec_frdivi s ed es2 1) hv hF (FieldCtx.div_of_ne_zero _ hv0)⟩⟩
  rw [FieldCtx.dmul_comm hring hvecv (FieldCtx.isVec_quot hsound _ v), FieldCtx.promote_one hring]
  exact hfield.quot_dmul_cancel hsound (FieldCtx.isVec_one hring) hvecv hv0

theorem frsubi_zero_eq_fneg (s : State) (ed es : EReg) : exec (.frsubi ed es 0) s = exec (.fneg ed es) s := by
  rw [exec_frsubi, exec_fneg s ed es 0]
  refine storeResult_congr fun P hP => ?_
  obtain ⟨-, -, hv⟩ := (withInt_eq_ok s es 0 P).1 hP
  rw [hv, FieldCtx.sub_promote_zero_left]

theorem fdbl_eq_fadd {s : State} (hs : Inv s) (ed es : EReg) : exec (.fdbl ed es) s = exec (.fadd ed es es) s := by
  have hempty := emptySourceRaisesUninitialised
  cases he : s.e.get es with
  | none =>
    exact (hempty (.fdbl ed es) s es (by simp [Instr.fdbl, sourcesOf]) he).trans
      (hempty (.fadd ed es es) s es (by simp [sourcesOf]) he).symm
  | some x =>
    obtain ⟨F, hF, hvec⟩ := hs.registers es x he
    have hsound := hs.sound hF
    have hdouble : F.mul x.coef (F.promote 2) = F.add x.coef x.coef :=
      (FieldCtx.mul_eq_dmul hsound hvec (FieldCtx.isVec_promote hsound.ring 2)).trans
        (FieldCtx.dmul_promote_two hsound.ring hvec)
    exact (succeeds_of_withInt (exec_fmuli s ed es 2) he hF (congrArg Except.ok hdouble)).trans
      (succeeds_of_pair (exec_fadd s ed es es) he he hF rfl).symm

/-- Settles O50: zero minus a vector is its negative, and twice a vector its sum with itself. -/
theorem aliasesAgree : Obligations.AliasesAgree :=
  fun s ed es => ⟨frsubi_zero_eq_fneg s ed es, fun hs => fdbl_eq_fadd hs ed es⟩

end Sys2Proof.Machine
end

section
/-! The commands that read ranges of cells (42_linear_algebra.md R150, R153, 43_reed_solomon.md R160): the tests of the
range, of the cells and of their contexts, and how GSOLVE ends for each answer of the elimination. -/

namespace Sys2Proof.Machine

/-! ### Reading a range -/

@[simp] theorem vectors_tagged (c : Ctx) (us : List Vec) : vectors (tagged c us) = us := by
  simp [vectors, tagged, Function.comp_def]

section
variable {s : State} {base n : Nat} {c : Ctx} {L : List Elem}

theorem checkRange_bind {α : Type} (hn : n ≠ 0) (r : Except Err α) :
    (checkRange s base n >>= fun _ => r) = if base + n ≤ s.params.emDepth then r else .error .badAddress := by
  split
  · rename_i hin
    rw [(checkRange_eq_ok s base n).2 (.inr hin), except_bind_ok]
  · rename_i hout
    rw [(checkRange_eq_error s base n _).2 ⟨⟨hn, not_le.1 hout⟩, rfl⟩, except_bind_error]

theorem memRead_beyond (hn : 1 ≤ n) (h : s.params.emDepth < base + n) : memRead s base n = .error .badAddress := by
  rw [memRead, checkRange_bind (Nat.one_le_iff_ne_zero.1 hn), if_neg h.not_ge]

theorem memRead_empty (hr : n = 0 ∨ base + n ≤ s.params.emDepth)
    (h : ∃ i, i < n ∧ Memory.read s.emem (base + i) = none) : memRead s base n = .error .uninitialised := by
  rw [memRead, (checkRange_eq_ok s base n).2 hr, except_bind_ok, (readRange_none_iff n s.emem base).2 h, held_none]

theorem memRead_eq_error_of_inside {x : Err} (hr : n = 0 ∨ base + n ≤ s.params.emDepth)
    (h : memRead s base n = .error x) : x = .uninitialised := by
  rw [memRead, (checkRange_eq_ok s base n).2 hr, except_bind_ok] at h
  exact ((held_eq_error _ x).1 h).2

theorem memRead_held (hr : n = 0 ∨ base + n ≤ s.params.emDepth) (hlen : L.length = n) (hL : CellsHold s.emem base L) :
    memRead s base n = .ok L := (memRead_eq_ok s base n L).2 ⟨hr, hlen, hL⟩

theorem sameCtx_of_other {x : Elem} (hx : x ∈ L) (hne : x.ctx ≠ c) : sameCtx L c = .error .fieldMismatch :=
  (require_eq_error _ _ _).2 ⟨List.all_eq_false.2 ⟨x, hx, by simpa using hne⟩, rfl⟩

theorem sameCtx_tagged (c : Ctx) (us : List Vec) : sameCtx (tagged c us) c = .ok () :=
  (sameCtx_eq_ok _ c).2 fun v hv => by
    obtain ⟨u, -, rfl⟩ := List.mem_map.1 hv
    rfl

/-- The tests of a command that reads a range of cells of one context (60_exceptions.md R204). -/
theorem fails_of_cells {i : Instr} {f : List Elem → Except Err (State × Nat)} (hn : 1 ≤ n)
    (hexec : exec i s = complete s (memRead s base n >>= fun L => sameCtx L c >>= fun _ => f L)) :
    (s.params.emDepth < base + n → Fails i s .badAddress) ∧
    (base + n ≤ s.params.emDepth → (∃ j, j < n ∧ Memory.read s.emem (base + j) = none) → Fails i s .uninitialised) ∧
    (∀ L : List Elem, L.length = n → base + n ≤ s.params.emDepth → CellsHold s.emem base L → (∃ y ∈ L, y.ctx ≠ c) →
      Fails i s .fieldMismatch) := by
  refine ⟨fun hout => ?_, fun hin hempty => ?_, fun L hlen hin hL hother => ?_⟩
  · exact fails_of_eq_error hexec (by rw [memRead_beyond hn hout, except_bind_error])
  · exact fails_of_eq_error hexec (by rw [memRead_empty (.inr hin) hempty, except_bind_error])
  · obtain ⟨y, hy, hne⟩ := hother
    exact fails_of_eq_error hexec
      (by rw [memRead_held (.inr hin) hlen hL, except_bind_ok, sameCtx_of_other hy hne, except_bind_error])

end

/-! ### PEVAL and RSCFG (R153, 43_reed_solomon.md R160) -/

theorem exec_peval (s : State) (ed es : EReg) (ac al : AReg) : exec (.peval ed es ac al) s =
    complete s (readE s es >>= fun x => memRead s (s.a.get ac).toNat (s.a.get al).toNat >>= fun L =>
      sameCtx L x.ctx >>= fun _ => fieldOf s x.ctx >>= fun F =>
        pure (writeE s ed ⟨x.ctx, F.horner (vectors L) x.coef⟩, 0)) := rfl

theorem exec_rscfg (s : State) (c : Ctx) (an ak ax : AReg) : exec (.rscfg c an ak ax) s =
    complete s (fieldOf s c >>= fun F => codecSizes s.params F (s.a.get an).toNat (s.a.get ak).toNat >>= fun _ =>
      memRead s (s.a.get ax).toNat (s.a.get an).toNat >>= fun L => sameCtx L c >>= fun _ =>
        require ((vectors L).all (fun u => u != F.zero) && decide (vectors L).Nodup) .invalidCodecParameters >>=
          fun _ => pure (writeCodec s c { n := (s.a.get an).toNat
                                          k := (s.a.get ak).toNat
                                          emax := ((s.a.get an).toNat - (s.a.get ak).toNat) / 2
                                          x := vectors L }, 0)) := rfl

/-- Settles O60: PEVAL after the point, and RSCFG after the tests of `n` and `k`, read one range of cells. -/
theorem pevalAndRscfgTestTheirCells : Obligations.PevalAndRscfgTestTheirCells := by
  rintro s base len n rfl hn
  constructor
  · intro ed es x hx
    apply fails_of_cells hn
    rw [exec_peval, readE_held hx, except_bind_ok]
  · intro c ak F hF hk hkn hnq hmax
    apply fails_of_cells hn
    rw [exec_rscfg, fieldOf_held hF, except_bind_ok, (codecSizes_eq_ok _ F _ _ ()).2 ⟨⟨hk, hkn, hnq⟩, hmax⟩,
      except_bind_ok]

theorem peval_succeeds {s : State} {ed es : EReg} {ac al : AReg} {c : Ctx} {F : FieldCtx} {x : Vec} {L : List Vec}
    (hx : s.e.get es = some ⟨c, x⟩) (hF : s.fc.get c = some F) (hlen : L.length = (s.a.get al).toNat)
    (hr : L.length = 0 ∨ (s.a.get ac).toNat + L.length ≤ s.params.emDepth)
    (hL : CellsHold s.emem (s.a.get ac).toNat (tagged c L)) :
    Succeeds (.peval ed es ac al) s (writeE s ed ⟨c, F.horner L x⟩) 0 := by
  refine succeeds_of_eq_ok (exec_peval s ed es ac al) ?_ rfl
  rw [readE_held hx, except_bind_ok, ← hlen, memRead_held hr (tagged_length c L) hL, except_bind_ok, sameCtx_tagged,
    except_bind_ok, fieldOf_held hF, except_bind_ok, vectors_tagged, except_pure]

/-! ### GSOLVE (R150) -/

/-- What GSOLVE makes of the cells it has read: the test of their contexts, the elimination and the store. -/
def gsolveCells (s : State) (base n : Nat) (MA Mb : List Elem) : Except Err (State × Nat) :=
  match MA with
  | [] => .ok (s, 0)
  | x0 :: _ => do
    sameCtx (MA ++ Mb) x0.ctx
    let F ← fieldOf s x0.ctx
    match F.solve n (vectors MA) (vectors Mb) with
    | none => throw .singularSystem
    | some xs =>
      let t ← memWrite s base (tagged x0.ctx xs)
      return (t, 0)

section
variable {s : State} {base n : Nat} {c : Ctx} {F : FieldCtx} {MA Mb : List Vec}

theorem gsolveCells_nil (Mb : List Elem) : gsolveCells s base n [] Mb = .ok (s, 0) := rfl

theorem gsolveCells_of_other {MA Mb : List Elem} (hMA : MA ≠ []) {x y : Elem} (hx : x ∈ MA ++ Mb) (hy : y ∈ MA ++ Mb)
    (hne : x.ctx ≠ y.ctx) : gsolveCells s base n MA Mb = .error .fieldMismatch := by
  obtain ⟨x0, MA, rfl⟩ := List.exists_cons_of_ne_nil hMA
  have hother : sameCtx (x0 :: MA ++ Mb) x0.ctx = .error .fieldMismatch := by
    by_cases hx0 : x.ctx = x0.ctx
    · exact sameCtx_of_other hy fun hy0 => hne (hx0.trans hy0.symm)
    · exact sameCtx_of_other hx hx0
  rw [gsolveCells, hother, except_bind_error]

theorem gsolveCells_of_sameCtx {x0 : Elem} {L Mb : List Elem} (hsame : sameCtx (x0 :: L ++ Mb) x0.ctx = .ok ())
    (hF : s.fc.get x0.ctx = some F) :
    gsolveCells s base n (x0 :: L) Mb =
      (F.solve n (vectors (x0 :: L)) (vectors Mb)).elim (.error .singularSystem)
        fun xs => memWrite s base (tagged x0.ctx xs) >>= fun t => .ok (t, 0) := by
  rw [gsolveCells, hsame, except_bind_ok, fieldOf_held hF, except_bind_ok]
  cases F.solve n (vectors (x0 :: L)) (vectors Mb) <;> rfl

/-- Cells of one constructed context go to the elimination. -/
theorem gsolveCells_tagged (hF : s.fc.get c = some F) (hMA : MA ≠ []) :
    gsolveCells s base n (tagged c MA) (tagged c Mb) = (F.solve n MA Mb).elim (.error .singularSystem)
      fun xs => memWrite s base (tagged c xs) >>= fun t => .ok (t, 0) := by
  obtain ⟨u, MA, rfl⟩ := List.exists_cons_of_ne_nil hMA
  have hcons : tagged c (u :: MA) = ⟨c, u⟩ :: tagged c MA := rfl
  have hsame : sameCtx (⟨c, u⟩ :: tagged c MA ++ tagged c Mb) c = .ok () := by
    rw [← hcons, tagged, tagged, ← List.map_append]
    exact sameCtx_tagged c _
  rw [hcons, gsolveCells_of_sameCtx hsame hF, ← hcons, vectors_tagged, vectors_tagged]

end

/-- The three ranges of a system of size `n` lie inside EMEM (R150). -/
abbrev GsolveFits (s : State) (ax aA ab : AReg) (n : Nat) : Prop :=
  (s.a.get aA).toNat + n * n ≤ s.params.emDepth ∧ (s.a.get ab).toNat + n ≤ s.params.emDepth ∧
    (s.a.get ax).toNat + n ≤ s.params.emDepth

theorem gsolve_matrix_range {s : State} {ax aA ab : AReg} {n : Nat} (hr : n = 0 ∨ GsolveFits s ax aA ab n) :
    n * n = 0 ∨ (s.a.get aA).toNat + n * n ≤ s.params.emDepth :=
  hr.imp (by rintro rfl; rfl) (·.1)

theorem ne_nil_of_square {α : Type} {n : Nat} {l : List α} (h1 : 1 ≤ n) (hl : l.length = n * n) : l ≠ [] :=
  List.ne_nil_of_length_pos (hl ▸ Nat.mul_pos h1 h1)

section
variable {s : State} {ax aA ab an : AReg} {n : Nat}

theorem exec_gsolve (hn : n = (s.a.get an).toNat) : exec (.gsolve ax aA ab an) s =
    complete s (require (decide (n ≤ s.params.nMax)) .capacityExceeded >>= fun _ =>
      checkRange s (s.a.get aA).toNat (n * n) >>= fun _ => checkRange s (s.a.get ab).toNat n >>= fun _ =>
      checkRange s (s.a.get ax).toNat n >>= fun _ => memRead s (s.a.get aA).toNat (n * n) >>= fun MA =>
      memRead s (s.a.get ab).toNat n >>= fun Mb => gsolveCells s (s.a.get ax).toNat n MA Mb) :=
  hn ▸ rfl

theorem gsolve_capacity (hn : n = (s.a.get an).toNat) (hmax : s.params.nMax < n) :
    Fails (.gsolve ax aA ab an) s .capacityExceeded :=
  fails_of_eq_error (exec_gsolve hn) (by rw [decide_eq_false hmax.not_ge, require_false, except_bind_error])

variable (hn : n = (s.a.get an).toNat) (hmax : n ≤ s.params.nMax)
include hn hmax

theorem gsolve_beyond (h1 : 1 ≤ n) (hout : ¬ GsolveFits s ax aA ab n) : Fails (.gsolve ax aA ab an) s .badAddress := by
  have hn0 : n ≠ 0 := Nat.one_le_iff_ne_zero.1 h1
  refine fails_of_eq_error (exec_gsolve hn) ?_
  rw [decide_eq_true hmax, require_true, except_bind_ok, checkRange_bind (Nat.mul_ne_zero hn0 hn0),
    checkRange_bind hn0, checkRange_bind hn0]
  split_ifs with hA hb hx
  · exact absurd ⟨hA, hb, hx⟩ hout
  all_goals rfl

variable (hr : n = 0 ∨ GsolveFits s ax aA ab n)
include hr

/-- Past the tests of `n` and of the three ranges, which empty ranges pass (60_exceptions.md R202). -/
theorem gsolve_inside : exec (.gsolve ax aA ab an) s =
    complete s (memRead s (s.a.get aA).toNat (n * n) >>= fun MA => memRead s (s.a.get ab).toNat n >>= fun Mb =>
      gsolveCells s (s.a.get ax).toNat n MA Mb) := by
  have hrA : n * n = 0 ∨ (s.a.get aA).toNat + n * n ≤ s.params.emDepth := gsolve_matrix_range hr
  have hrb : n = 0 ∨ (s.a.get ab).toNat + n ≤ s.params.emDepth := hr.imp_right (·.2.1)
  have hrx : n = 0 ∨ (s.a.get ax).toNat + n ≤ s.params.emDepth := hr.imp_right (·.2.2)
  rw [exec_gsolve hn, decide_eq_true hmax, require_true, except_bind_ok, (checkRange_eq_ok _ _ _).2 hrA,
    except_bind_ok, (checkRange_eq_ok _ _ _).2 hrb, except_bind_ok, (checkRange_eq_ok _ _ _).2 hrx, except_bind_ok]

theorem gsolve_empty
    (hempty : (∃ i, i < n * n ∧ Memory.read s.emem ((s.a.get aA).toNat + i) = none) ∨
      ∃ i, i < n ∧ Memory.read s.emem ((s.a.get ab).toNat + i) = none) :
    Fails (.gsolve ax aA ab an) s .uninitialised := by
  have hrA : n * n = 0 ∨ (s.a.get aA).toNat + n * n ≤ s.params.emDepth := gsolve_matrix_range hr
  refine fails_of_eq_error (gsolve_inside hn hmax hr) ?_
  rcases hempty with hA | hb
  · rw [memRead_empty hrA hA, except_bind_error]
  · cases hMA : memRead s (s.a.get aA).toNat (n * n) with
    | ok MA => rw [except_bind_ok, memRead_empty (hr.imp_right (·.2.1)) hb, except_bind_error]
    | error x => rw [except_bind_error, memRead_eq_error_of_inside hrA hMA]

/-- Past the reads, when every source cell holds a value. -/
theorem gsolve_held {MA Mb : List Elem} (hlenA : MA.length = n * n) (hlenb : Mb.length = n)
    (hA : CellsHold s.emem (s.a.get aA).toNat MA) (hb : CellsHold s.emem (s.a.get ab).toNat Mb) :
    exec (.gsolve ax aA ab an) s = complete s (gsolveCells s (s.a.get ax).toNat n MA Mb) := by
  have hrA : n * n = 0 ∨ (s.a.get aA).toNat + n * n ≤ s.params.emDepth := gsolve_matrix_range hr
  rw [gsolve_inside hn hmax hr, memRead_held hrA hlenA hA, except_bind_ok,
    memRead_held (hr.imp_right (·.2.1)) hlenb hb, except_bind_ok]

theorem gsolve_of_other {MA Mb : List Elem} (h1 : 1 ≤ n) (hlenA : MA.length = n * n) (hlenb : Mb.length = n)
    (hA : CellsHold s.emem (s.a.get aA).toNat MA) (hb : CellsHold s.emem (s.a.get ab).toNat Mb)
    (hother : ∃ x ∈ MA ++ Mb, ∃ y ∈ MA ++ Mb, x.ctx ≠ y.ctx) : Fails (.gsolve ax aA ab an) s .fieldMismatch := by
  obtain ⟨x, hx, y, hy, hne⟩ := hother
  exact fails_of_eq_error (gsolve_held hn hmax hr hlenA hlenb hA hb)
    (gsolveCells_of_other (ne_nil_of_square h1 hlenA) hx hy hne)

section
variable {c : Ctx} {F : FieldCtx} {MA Mb : List Vec} (hF : s.fc.get c = some F)
  (hlenA : MA.length = n * n) (hlenb : Mb.length = n)
  (hA : CellsHold s.emem (s.a.get aA).toNat (tagged c MA)) (hb : CellsHold s.emem (s.a.get ab).toNat (tagged c Mb))
include hlenA hlenb hA hb

theorem gsolve_zero (h0 : n = 0) : Succeeds (.gsolve ax aA ab an) s s 0 := by
  refine succeeds_of_eq_ok (gsolve_held hn hmax hr ((tagged_length c MA).trans hlenA)
    ((tagged_length c Mb).trans hlenb) hA hb) ?_ rfl
  obtain rfl : MA = [] := List.eq_nil_of_length_eq_zero (by rw [hlenA, h0])
  exact gsolveCells_nil _

include hF

theorem gsolve_elimination (h1 : 1 ≤ n) : exec (.gsolve ax aA ab an) s =
    complete s ((F.solve n MA Mb).elim (.error .singularSystem)
      fun xs => memWrite s (s.a.get ax).toNat (tagged c xs) >>= fun t => .ok (t, 0)) := by
  rw [gsolve_held hn hmax hr ((tagged_length c MA).trans hlenA) ((tagged_length c Mb).trans hlenb) hA hb,
    gsolveCells_tagged hF (ne_nil_of_square h1 hlenA)]

theorem gsolve_singular (h1 : 1 ≤ n) (hsolve : F.solve n MA Mb = none) :
    Fails (.gsolve ax aA ab an) s .singularSystem :=
  fails_of_eq_error (gsolve_elimination hn hmax hr hF hlenA hlenb hA hb h1) (by rw [hsolve, Option.elim_none])

theorem gsolve_succeeds (h1 : 1 ≤ n) {xs : List Vec} (hsolve : F.solve n MA Mb = some xs) :
    ∃ mem', Stores s.emem mem' (s.a.get ax).toNat (tagged c xs) ∧
      Succeeds (.gsolve ax aA ab an) s { s with emem := mem' } 0 := by
  have hlen : (tagged c xs).length = n := (tagged_length c xs).trans (solve_length F n MA Mb xs hsolve)
  refine ⟨_, stores_writeRange (tagged c xs) s.emem _,
    succeeds_of_eq_ok (gsolve_elimination hn hmax hr hF hlenA hlenb hA hb h1) ?_ rfl⟩
  rw [hsolve, Option.elim_some, (memWrite_eq_ok s _ _ _).2 ⟨?_, rfl⟩, except_bind_ok]
  rw [hlen]
  exact hr.imp_right (·.2.2)

end

end

/-- Settles O53: one lemma for each test, in their order, and one for each answer of the elimination. -/
theorem gsolveTestsInOrder : Obligations.GsolveTestsInOrder := by
  intro s ax aA ab an n hn
  refine ⟨gsolve_capacity hn, fun hmax h1 hout => gsolve_beyond hn hmax h1 ?_,
    fun hmax h1 hA hb hx => gsolve_empty hn hmax (.inr ⟨hA, hb, hx⟩),
    fun MA Mb hmax h1 hlenA hlenb hA hb hx => gsolve_of_other hn hmax (.inr ⟨hA, hb, hx⟩) h1 hlenA hlenb,
    fun c F MA Mb hF hmax h1 hlenA hlenb hA hb hx hMA hMb => ?_⟩
  · rintro ⟨hA, hb, hx⟩
    omega
  · have hr : n = 0 ∨ GsolveFits s ax aA ab n := .inr ⟨hA, hb, hx⟩
    exact ⟨fun xs hxs => ⟨solve_length F n MA Mb xs hxs, gsolve_succeeds hn hmax hr hF hlenA hlenb hMA hMb h1 hxs⟩,
      gsolve_singular hn hmax hr hF hlenA hlenb hMA hMb h1⟩

end Sys2Proof.Machine
end

section
/-! Sums of element values in the ring of a context, and the evaluator (42_linear_algebra.md R154): Horner's rule gives
the sum of the coefficients times the powers of the point. -/

namespace Sys2Proof.Machine

namespace FieldCtx

variable {F : FieldCtx} {u v x : Vec}

theorem residue_mul (h : F.Sound) (hu : F.IsVec u) (hv : F.IsVec v) :
    F.residue (F.mul u v) = F.residue u * F.residue v := by
  rw [mul_eq_dmul h hu hv, residue_dmul h.ring hu hv]

theorem residue_nil (F : FieldCtx) : F.residue [] = 0 := by
  have hnil : polyOf F.p [] = 0 := Finset.sum_range_zero _
  rw [residue, hnil, map_zero]

/-- A position past the end of a list counts as zero, whichever vector is read there. -/
theorem residue_getD_zero (F : FieldCtx) (L : List Vec) (i : Nat) :
    F.residue (L.getD i F.zero) = F.residue (L.getD i []) := by
  rw [List.getD_eq_getElem?_getD, List.getD_eq_getElem?_getD]
  cases L[i]? with
  | none => exact F.residue_zero.trans F.residue_nil.symm
  | some u => rfl

theorem isVec_getD (h : F.Ring) {L : List Vec} (hL : ∀ u ∈ L, F.IsVec u) (i : Nat) : F.IsVec (L.getD i F.zero) := by
  rw [List.getD_eq_getElem?_getD]
  cases hi : L[i]? with
  | none => exact isVec_zero h
  | some u => exact hL u (List.mem_of_getElem? hi)

/-- Adding up a list of vectors adds up their residues. -/
theorem isVec_and_residue_foldl_add (h : F.Ring) {L : List Vec} (hL : ∀ u ∈ L, F.IsVec u) {acc : Vec}
    (hacc : F.IsVec acc) :
    F.IsVec (L.foldl F.add acc) ∧ F.residue (L.foldl F.add acc) = F.residue acc + (L.map F.residue).sum := by
  induction L generalizing acc with
  | nil => exact ⟨hacc, (add_zero _).symm⟩
  | cons u L ih =>
    obtain ⟨hvec, hres⟩ := ih (fun v hv => hL v (List.mem_cons_of_mem u hv)) (isVec_add h acc u)
    exact ⟨hvec, by rw [List.foldl_cons, hres, residue_add hacc (hL u List.mem_cons_self), List.map_cons,
      List.sum_cons, add_assoc]⟩

theorem isVec_foldl_add (h : F.Ring) {L : List Vec} (hL : ∀ u ∈ L, F.IsVec u) : F.IsVec (L.foldl F.add F.zero) :=
  (isVec_and_residue_foldl_add h hL (isVec_zero h)).1

theorem residue_foldl_add (h : F.Ring) {L : List Vec} (hL : ∀ u ∈ L, F.IsVec u) :
    F.residue (L.foldl F.add F.zero) = (L.map F.residue).sum := by
  rw [(isVec_and_residue_foldl_add h hL (isVec_zero h)).2, residue_zero, zero_add]

theorem sum_map_range {K : Type} [AddCommMonoid K] (f : Nat → K) (n : Nat) :
    ((List.range n).map f).sum = ∑ i ∈ Finset.range n, f i := rfl

/-! ### Horner's rule (R154) -/

theorem horner_cons (F : FieldCtx) (c : Vec) (L : List Vec) (x : Vec) :
    F.horner (c :: L) x = F.add (F.mul (F.horner L x) x) c := rfl

theorem residue_horner (h : F.Sound) {L : List Vec} (hL : ∀ u ∈ L, F.IsVec u) (hx : F.IsVec x) :
    F.residue (F.horner L x) = ∑ i ∈ Finset.range L.length, F.residue (L.getD i []) * F.residue x ^ i := by
  induction L with
  | nil => exact F.residue_zero
  | cons c L ih =>
    have hpowers : ∀ i, F.residue ((c :: L).getD (i + 1) []) * F.residue x ^ (i + 1) =
        F.residue (L.getD i []) * F.residue x ^ i * F.residue x := fun i => by
      rw [List.getD_cons_succ, pow_succ, mul_assoc]
    rw [horner_cons, residue_add (isVec_mul h _ x) (hL c List.mem_cons_self), residue_mul h (isVec_horner h L x) hx,
      ih fun v hv => hL v (List.mem_cons_of_mem c hv), List.length_cons, Finset.sum_range_succ',
      Finset.sum_congr rfl fun i _ => hpowers i, ← Finset.sum_mul, List.getD_cons_zero, pow_zero, mul_one]

theorem isVec_polyValue (h : F.Ring) (L : List Vec) (x : Vec) : F.IsVec (F.polyValue L x) :=
  isVec_foldl_add h (by simpa using fun i _ => isVec_dmul h _ _)

theorem residue_polyValue (h : F.Ring) {L : List Vec} (hL : ∀ u ∈ L, F.IsVec u) (hx : F.IsVec x) :
    F.residue (F.polyValue L x) = ∑ i ∈ Finset.range L.length, F.residue (L.getD i []) * F.residue x ^ i := by
  have hterm : ∀ i, F.residue (F.dmul (L.getD i F.zero) (F.power x i)) =
      F.residue (L.getD i []) * F.residue x ^ i := fun i => by
    rw [residue_dmul h (isVec_getD h hL i) (isVec_power h x i), residue_getD_zero, residue_power h hx]
  rw [polyValue, residue_foldl_add h (by simpa using fun i _ => isVec_dmul h _ _), List.map_map,
    sum_map_range]
  exact Finset.sum_congr rfl fun i _ => hterm i

theorem horner_eq_polyValue (h : F.Sound) {L : List Vec} (hL : ∀ u ∈ L, F.IsVec u) (hx : F.IsVec x) :
    F.horner L x = F.polyValue L x :=
  residue_injective h.ring (isVec_horner h L x) (isVec_polyValue h.ring L x)
    ((residue_horner h hL hx).trans (residue_polyValue h.ring hL hx).symm)

end FieldCtx

/-! ### The statement -/

theorem Inv.isVec_cells {s : State} (hs : Inv s) {c : Ctx} {F : FieldCtx} {us : List Vec} {base : Nat}
    (hF : s.fc.get c = some F) (hus : CellsHold s.emem base (tagged c us)) : ∀ u ∈ us, F.IsVec u := by
  intro u hu
  obtain ⟨F', hF', hvec⟩ := elemOk_of_cellsHold hs hus _ (List.mem_map_of_mem hu)
  obtain rfl : F = F' := Option.some.inj (hF.symm.trans hF')
  exact hvec

/-- Settles O51: the evaluator gives the value in the ring. -/
theorem pevalIsTheValueOfThePolynomial : Obligations.PevalIsTheValueOfThePolynomial := by
  intro s ed es ac al c F x L hs hx hF hlen hr hL
  rw [← FieldCtx.horner_eq_polyValue (hs.sound hF) (hs.isVec_cells hF hL) (hs.isVec_register hx hF)]
  exact peval_succeeds hx hF hlen hr hL

end Sys2Proof.Machine
end

section
/-! The elimination in a field (42_linear_algebra.md R151, R152): every turn of the forward loop keeps the solutions of
the working array, back-substitution gives the one solution of a triangular array, and a column without a pivot has a
nonzero combination of columns that is zero, so that no solution is the only one. -/

namespace Sys2Proof.Machine

namespace FieldCtx

variable {F : FieldCtx} {u v : Vec} {n col i j : Nat} {M M' M₀ : List (List Vec)}

/-! ### Residues of quotients -/

theorem HasFieldRing.residue_quot_mul (hfield : F.HasFieldRing) (h : F.Sound) (hu : F.IsVec u) (hv : F.IsVec v)
    (hv0 : v ≠ F.zero) : F.residue (F.quot u v) * F.residue v = F.residue u := by
  rw [← residue_dmul h.ring (isVec_quot h u v) hv, hfield.quot_dmul_cancel h hu hv hv0]

theorem HasFieldRing.isUnit_residue (hfield : F.HasFieldRing) (h : F.Sound) (hv : F.IsVec v) (hv0 : v ≠ F.zero) :
    IsUnit (F.residue v) :=
  IsUnit.of_pow_eq_one (hfield.residue_pow_eq_one h hv hv0) (Nat.sub_pos_of_lt h.ring.one_lt_q).ne'

/-! ### The working array -/

/-- The `n × (n+1)` entries of the working array are vectors of the context. -/
def IsArray (F : FieldCtx) (n : Nat) (M : List (List Vec)) : Prop := ∀ i < n, ∀ j ≤ n, F.IsVec (entry M i j)

theorem entry_of_length_le (h : M.length ≤ i) (j : Nat) : entry M i j = [] := by
  rw [entry, List.getD_eq_default _ _ h]
  rfl

theorem entry_of_row_length_le (h : (M.getD i []).length ≤ j) : entry M i j = [] :=
  List.getD_eq_default _ _ h

theorem isVec_ne_nil (h : F.Ring) (hu : F.IsVec u) : u ≠ [] :=
  List.ne_nil_of_length_pos (hu.1 ▸ h.degree)

theorem IsArray.lt_length (hM : F.IsArray n M) (h : F.Ring) (hi : i < n) : i < M.length :=
  not_le.1 fun hle => isVec_ne_nil h (hM i hi 0 (Nat.zero_le n)) (entry_of_length_le hle 0)

theorem IsArray.lt_row_length (hM : F.IsArray n M) (h : F.Ring) (hi : i < n) (hj : j ≤ n) :
    j < (M.getD i []).length :=
  not_le.1 fun hle => isVec_ne_nil h (hM i hi j hj) (entry_of_row_length_le hle)

theorem getD_swapRows {r : Nat} (hcol : col < M.length) (hr : r < M.length) (i : Nat) :
    (swapRows M col r).getD i [] = M.getD (Equiv.swap col r i) [] := by
  rw [swapRows, List.getD_eq_getElem?_getD, List.getElem?_set, List.getElem?_set, List.length_set]
  by_cases hir : r = i
  · rw [if_pos hir, if_pos hr, ← hir, Equiv.swap_apply_right, Option.getD_some]
  · by_cases hic : col = i
    · rw [if_neg hir, if_pos hic, if_pos hcol, ← hic, Equiv.swap_apply_left, Option.getD_some]
    · rw [if_neg hir, if_neg hic, Equiv.swap_apply_of_ne_of_ne (Ne.symm hic) (Ne.symm hir),
        List.getD_eq_getElem?_getD]

theorem entry_swapRows {r : Nat} (hcol : col < M.length) (hr : r < M.length) (i j : Nat) :
    entry (swapRows M col r) i j = entry M (Equiv.swap col r i) j := by
  rw [entry, getD_swapRows hcol hr, entry]

theorem getD_mapIdx {α β : Type} {l : List α} {i : Nat} (hi : i < l.length) (f : Nat → α → β) (d : α) (e : β) :
    (l.mapIdx f).getD i e = f i (l.getD i d) := by
  rw [List.getD_eq_getElem?_getD, List.getElem?_mapIdx, List.getD_eq_getElem?_getD, List.getElem?_eq_getElem hi]
  rfl

theorem entry_eliminateBelow (hi : i < M.length) (hj : j < (M.getD i []).length) :
    entry (F.eliminateBelow M col) i j =
      if col < i ∧ col ≤ j then
        F.sub (entry M i j) (F.mul (F.quot (entry M i col) (entry M col col)) (entry M col j))
      else entry M i j := by
  rw [entry, eliminateBelow, getD_mapIdx hi _ []]
  by_cases hrow : col < i
  · rw [if_pos hrow, eliminateRow, getD_mapIdx hj _ []]
    by_cases hcol : col ≤ j
    · rw [if_pos hcol, if_pos ⟨hrow, hcol⟩]
      rfl
    · rw [if_neg hcol, if_neg fun hboth => hcol hboth.2]
      rfl
  · rw [if_neg hrow, if_neg fun hboth => hrow hboth.1]
    rfl

/-! ### The equations of the working array -/

/-- By how much the values `x` of the unknowns miss row `i`. -/
noncomputable def defect (F : FieldCtx) (n : Nat) (M : List (List Vec)) (x : Nat → AdjoinRoot (polyOf F.p F.g))
    (i : Nat) : AdjoinRoot (polyOf F.p F.g) :=
  ∑ j ∈ Finset.range n, F.residue (entry M i j) * x j - F.residue (entry M i n)

/-- The values `x` of the unknowns solve the system of the working array. -/
def Solves (F : FieldCtx) (n : Nat) (M : List (List Vec)) (x : Nat → AdjoinRoot (polyOf F.p F.g)) : Prop :=
  ∀ i < n, F.defect n M x i = 0

/-- The working array once the columns before `col` are done: zeros below their pivots, and the solutions it had at
the start. -/
structure Eliminated (F : FieldCtx) (n : Nat) (M₀ : List (List Vec)) (col : Nat) (M : List (List Vec)) : Prop where
  vecs : F.IsArray n M
  zeros : ∀ i < n, ∀ j < col, j < i → entry M i j = F.zero
  pivots : ∀ j < col, entry M j j ≠ F.zero
  solutions : ∀ x, F.Solves n M x ↔ F.Solves n M₀ x

theorem Eliminated.start (hM : F.IsArray n M) : F.Eliminated n M 0 M where
  vecs := hM
  zeros := fun _ _ _ hj => absurd hj (Nat.not_lt_zero _)
  pivots := fun _ hj => absurd hj (Nat.not_lt_zero _)
  solutions := fun _ => Iff.rfl

/-! ### Pivoting -/

/-- A pivot is found in row `r`, the diagonal row or a later one, and the two rows change places. -/
theorem pivoted_eq_some (hcol : col < n) (hn : n ≤ M.length) (h : F.pivoted n M col = some M') :
    ∃ r, col ≤ r ∧ r < n ∧ entry M r col ≠ F.zero ∧ ∀ i j, entry M' i j = entry M (Equiv.swap col r i) j := by
  rw [pivoted] at h
  split at h
  · split at h
    · rename_i r hr
      obtain rfl := Option.some.inj h
      have hfound := List.find?_some hr
      have hrn : r < n := List.mem_range.1 (List.mem_of_find?_eq_some hr)
      simp only [Bool.and_eq_true, decide_eq_true_eq, bne_iff_ne] at hfound
      obtain ⟨hlt, hne⟩ := hfound
      exact ⟨r, hlt.le, hrn, hne, entry_swapRows (hcol.trans_le hn) (hrn.trans_le hn)⟩
    · cases h
  · rename_i hne
    obtain rfl := Option.some.inj h
    exact ⟨col, le_rfl, hcol, hne, fun i j => by rw [Equiv.swap_self, Equiv.refl_apply]⟩

theorem pivoted_eq_none (h : F.pivoted n M col = none) (hcol : col ≤ i) (hi : i < n) : entry M i col = F.zero := by
  rw [pivoted] at h
  split at h
  · rename_i hdiag
    split at h
    · cases h
    · rename_i hnone
      rcases hcol.eq_or_lt with rfl | hlt
      · exact hdiag
      · simpa [hlt] using List.find?_eq_none.1 hnone i (List.mem_range.2 hi)
  · cases h

theorem swap_lt {r : Nat} (hcol : col < n) (hr : r < n) (hi : i < n) : Equiv.swap col r i < n := by
  rw [Equiv.swap_apply_def]
  split_ifs <;> assumption

/-- A row below a finished column stays below it. -/
theorem lt_swap {r : Nat} (hcr : col ≤ r) (hj : j < col) (hji : j < i) : j < Equiv.swap col r i := by
  rw [Equiv.swap_apply_def]
  split_ifs <;> omega

theorem Eliminated.pivoted (hM : F.Eliminated n M₀ col M) (h : F.Ring) (hcol : col < n)
    (hpivot : F.pivoted n M col = some M') : F.Eliminated n M₀ col M' ∧ entry M' col col ≠ F.zero := by
  have hn : n ≤ M.length := Nat.le_of_pred_lt (hM.vecs.lt_length h (Nat.pred_lt (by omega)))
  obtain ⟨r, hcr, hr, hne, hentry⟩ := pivoted_eq_some hcol hn hpivot
  have hdefect : ∀ x i, F.defect n M' x i = F.defect n M x (Equiv.swap col r i) := fun x i => by
    simp only [defect, hentry]
  refine ⟨⟨fun i hi j hj => ?_, fun i hi j hj hji => ?_, fun j hj => ?_, fun x => ?_⟩, ?_⟩
  · rw [hentry]
    exact hM.vecs _ (swap_lt hcol hr hi) j hj
  · rw [hentry]
    exact hM.zeros _ (swap_lt hcol hr hi) j hj (lt_swap hcr hj hji)
  · rw [hentry, Equiv.swap_apply_of_ne_of_ne (by omega) (by omega)]
    exact hM.pivots j hj
  · rw [← hM.solutions]
    refine ⟨fun hx i hi => ?_, fun hx i hi => ?_⟩
    · rw [← Equiv.swap_apply_self col r i, ← hdefect]
      exact hx _ (swap_lt hcol hr hi)
    · rw [hdefect]
      exact hx _ (swap_lt hcol hr hi)
  · rwa [hentry, Equiv.swap_apply_left]

/-! ### Elimination below the pivot -/

section
variable (hM : F.Eliminated n M₀ col M) (h : F.Sound) (hfield : F.HasFieldRing) (hcol : col < n)
  (hpivot : entry M col col ≠ F.zero)
include hM h

theorem Eliminated.entry_below (hi : i < n) (hj : j ≤ n) :
    entry (F.eliminateBelow M col) i j =
      if col < i ∧ col ≤ j then
        F.sub (entry M i j) (F.mul (F.quot (entry M i col) (entry M col col)) (entry M col j))
      else entry M i j :=
  entry_eliminateBelow (hM.vecs.lt_length h.ring hi) (hM.vecs.lt_row_length h.ring hi hj)

theorem Eliminated.isArray_below : F.IsArray n (F.eliminateBelow M col) := by
  intro i hi j hj
  rw [hM.entry_below h hi hj]
  split
  · exact isVec_sub h.ring _ _
  · exact hM.vecs i hi j hj

include hcol

/-- The multiple of the pivot row is subtracted from the whole row: before the pivot the pivot row is zero. -/
theorem Eliminated.residue_entry_below (hi : col < i) (hin : i < n) (hj : j ≤ n) :
    F.residue (entry (F.eliminateBelow M col) i j) = F.residue (entry M i j) -
      F.residue (F.quot (entry M i col) (entry M col col)) * F.residue (entry M col j) := by
  rw [hM.entry_below h hin hj]
  by_cases hcj : col ≤ j
  · rw [if_pos ⟨hi, hcj⟩, residue_sub h.ring (hM.vecs i hin j hj) (isVec_mul h _ _),
      residue_mul h (isVec_quot h _ _) (hM.vecs col hcol j hj)]
  · rw [if_neg fun hboth => hcj hboth.2, hM.zeros col hcol j (not_le.1 hcj) (not_le.1 hcj), residue_zero, mul_zero,
      sub_zero]

theorem Eliminated.defect_below (x : Nat → AdjoinRoot (polyOf F.p F.g)) (hi : i < n) :
    F.defect n (F.eliminateBelow M col) x i = F.defect n M x i -
      (if col < i then F.residue (F.quot (entry M i col) (entry M col col)) else 0) * F.defect n M x col := by
  by_cases hci : col < i
  · rw [if_pos hci, defect, defect, defect, hM.residue_entry_below h hcol hci hi le_rfl,
      Finset.sum_congr rfl fun j hj => by rw [hM.residue_entry_below h hcol hci hi (Finset.mem_range.1 hj).le],
      mul_sub, Finset.mul_sum]
    simp only [sub_mul, Finset.sum_sub_distrib, mul_assoc]
    ring
  · have hrow : ∀ j ≤ n, entry (F.eliminateBelow M col) i j = entry M i j := fun j hj => by
      rw [hM.entry_below h hi hj, if_neg fun hboth => hci hboth.1]
    rw [if_neg hci, zero_mul, sub_zero, defect, defect, hrow n le_rfl,
      Finset.sum_congr rfl fun j hj => by rw [hrow j (Finset.mem_range.1 hj).le]]

theorem Eliminated.solves_below (x : Nat → AdjoinRoot (polyOf F.p F.g)) :
    F.Solves n (F.eliminateBelow M col) x ↔ F.Solves n M x := by
  have hpivotRow := hM.defect_below h hcol x hcol
  rw [if_neg (lt_irrefl col), zero_mul, sub_zero] at hpivotRow
  refine ⟨fun hx i hi => ?_, fun hx i hi => ?_⟩
  · have hrow := hM.defect_below h hcol x hi
    rw [hx i hi, ← hpivotRow, hx col hcol, mul_zero, sub_zero] at hrow
    exact hrow.symm
  · rw [hM.defect_below h hcol x hi, hx i hi, hx col hcol, mul_zero, sub_zero]

include hfield hpivot

/-- Below the pivot the elimination leaves zeros. -/
theorem Eliminated.entry_below_pivot (hi : col < i) (hin : i < n) :
    entry (F.eliminateBelow M col) i col = F.zero := by
  refine residue_injective h.ring (hM.isArray_below h i hin col hcol.le) (isVec_zero h.ring) ?_
  rw [hM.residue_entry_below h hcol hi hin hcol.le, residue_zero,
    hfield.residue_quot_mul h (hM.vecs i hin col hcol.le) (hM.vecs col hcol col hcol.le) hpivot, sub_self]

theorem Eliminated.below : F.Eliminated n M₀ (col + 1) (F.eliminateBelow M col) := by
  refine ⟨hM.isArray_below h, fun i hi j hj hji => ?_, fun j hj => ?_, fun x => ?_⟩
  · rcases Nat.lt_succ_iff_lt_or_eq.1 hj with hlt | rfl
    · rw [hM.entry_below h hi (hlt.le.trans hcol.le), if_neg (by omega)]
      exact hM.zeros i hi j hlt hji
    · exact hM.entry_below_pivot h hfield hcol hpivot hji hi
  · rw [hM.entry_below h (by omega) (by omega), if_neg (by omega)]
    rcases Nat.lt_succ_iff_lt_or_eq.1 hj with hlt | rfl
    · exact hM.pivots j hlt
    · exact hpivot
  · rw [hM.solves_below h hcol, hM.solutions]

end

/-! ### The forward loop -/

/-- The loop ends with every column done, or in a column without a pivot. -/
theorem Eliminated.forward (h : F.Sound) (hfield : F.HasFieldRing) {left : Nat} (hleft : left ≤ n)
    (hM : F.Eliminated n M₀ (n - left) M) :
    (∃ M', F.forward n left M = some M' ∧ F.Eliminated n M₀ n M') ∨
      F.forward n left M = none ∧
        ∃ col M', col < n ∧ F.Eliminated n M₀ col M' ∧ F.pivoted n M' col = none := by
  induction left generalizing M with
  | zero => exact .inl ⟨M, rfl, hM⟩
  | succ left ih =>
    have hcol : n - (left + 1) < n := by omega
    cases hp : F.pivoted n M (n - (left + 1)) with
    | none => exact .inr ⟨by rw [FieldCtx.forward, hp], _, M, hcol, hM, hp⟩
    | some M' =>
      obtain ⟨hM', hpivot⟩ := hM.pivoted h.ring hcol hp
      have hbelow := hM'.below h hfield hcol hpivot
      rw [show n - (left + 1) + 1 = n - left by omega] at hbelow
      rw [FieldCtx.forward, hp]
      exact ih (by omega) hbelow

end FieldCtx

end Sys2Proof.Machine
end

section
/-! What GSOLVE computes in a field (42_linear_algebra.md R152): the elimination gives the one solution, and finds a
column without a pivot exactly when there is not one solution. -/

namespace Sys2Proof.Machine

namespace FieldCtx

variable {F : FieldCtx} {n : Nat} {M M₀ : List (List Vec)}

/-! ### Back-substitution -/

theorem isVec_getD_of_lt {L : List Vec} (hL : ∀ u ∈ L, F.IsVec u) {i : Nat} (hi : i < L.length) :
    F.IsVec (L.getD i []) := by
  rw [List.getD_eq_getElem _ _ hi]
  exact hL _ (List.getElem_mem hi)

theorem isVec_and_residue_foldl_sub (h : F.Ring) {t : Nat → Vec} {js : List Nat} (ht : ∀ j ∈ js, F.IsVec (t j))
    {acc : Vec} (hacc : F.IsVec acc) :
    F.IsVec (js.foldl (fun s j => F.sub s (t j)) acc) ∧
      F.residue (js.foldl (fun s j => F.sub s (t j)) acc) =
        F.residue acc - (js.map fun j => F.residue (t j)).sum := by
  induction js generalizing acc with
  | nil => exact ⟨hacc, (sub_zero _).symm⟩
  | cons j js ih =>
    obtain ⟨hvec, hres⟩ := ih (fun i hi => ht i (List.mem_cons_of_mem j hi)) (isVec_sub h acc (t j))
    exact ⟨hvec, by rw [List.foldl_cons, hres, residue_sub h hacc (ht j List.mem_cons_self), List.map_cons,
      List.sum_cons, sub_sub]⟩

section
variable (hM : F.Eliminated n M₀ n M) (h : F.Sound) (hfield : F.HasFieldRing)
  {x : Nat → AdjoinRoot (polyOf F.p F.g)} {i : Nat} (hi : i < n)
include hM hi

/-- In a row of a triangular array the unknowns from the diagonal on are left. -/
theorem Eliminated.defect_eq (x : Nat → AdjoinRoot (polyOf F.p F.g)) :
    F.defect n M x i = F.residue (entry M i i) * x i -
      (F.residue (entry M i n) -
        ∑ d ∈ Finset.range (n - 1 - i), F.residue (entry M i (i + 1 + d)) * x (i + 1 + d)) := by
  have hbefore : ∑ j ∈ Finset.range i, F.residue (entry M i j) * x j = 0 :=
    Finset.sum_eq_zero fun j hj => by
      have hji := Finset.mem_range.1 hj
      rw [hM.zeros i hi j (hji.trans hi) hji, residue_zero, zero_mul]
  have hsplit := Finset.sum_range_add (fun j => F.residue (entry M i j) * x j) (i + 1) (n - 1 - i)
  rw [show i + 1 + (n - 1 - i) = n by omega, Finset.sum_range_succ, hbefore, zero_add] at hsplit
  rw [defect, hsplit]
  ring

include h hfield

/-- A row gives its unknown from the later ones as back-substitution does. -/
theorem Eliminated.defect_eq_zero_iff {known : List Vec} (hlen : known.length = n - 1 - i)
    (hvec : ∀ u ∈ known, F.IsVec u) (hknown : ∀ d < known.length, x (i + 1 + d) = F.residue (known.getD d [])) :
    F.defect n M x i = 0 ↔ x i = F.residue (F.backRow n M i known) := by
  have hpivot := hM.vecs i hi i hi.le
  have hpivot0 := hM.pivots i hi
  have hterms : ∀ j ∈ (List.range (n - 1 - i)).map (fun d => i + 1 + d),
      F.IsVec (F.mul (entry M i j) (known.getD (j - (i + 1)) [])) := fun j _ => isVec_mul h _ _
  obtain ⟨hs, hres⟩ := isVec_and_residue_foldl_sub h.ring hterms (hM.vecs i hi n le_rfl)
  have hsum : (((List.range (n - 1 - i)).map (fun d => i + 1 + d)).map fun j =>
      F.residue (F.mul (entry M i j) (known.getD (j - (i + 1)) []))).sum =
        ∑ d ∈ Finset.range (n - 1 - i), F.residue (entry M i (i + 1 + d)) * x (i + 1 + d) := by
    rw [List.map_map, sum_map_range]
    refine Finset.sum_congr rfl fun d hd => ?_
    have hd := Finset.mem_range.1 hd
    rw [Function.comp_apply, Nat.add_sub_cancel_left,
      residue_mul h (hM.vecs i hi _ (by omega)) (isVec_getD_of_lt hvec (by omega)), hknown d (by omega)]
  rw [hsum] at hres
  rw [hM.defect_eq hi, ← hres, sub_eq_zero, ← hfield.residue_quot_mul h hs hpivot hpivot0,
    mul_comm (F.residue _) (x i)]
  exact (hfield.isUnit_residue h hpivot hpivot0).mul_left_inj

end

/-- The last rows of a triangular array hold exactly for the values that back-substitution gives. -/
theorem Eliminated.backSubstitute (hM : F.Eliminated n M₀ n M) (h : F.Sound) (hfield : F.HasFieldRing)
    (x : Nat → AdjoinRoot (polyOf F.p F.g)) {count : Nat} (hcount : count ≤ n) :
    (∀ i < n, n - count ≤ i → F.defect n M x i = 0) ↔
      ∀ d < count, x (n - count + d) = F.residue ((F.backSubstitute n M count).getD d []) := by
  induction count with
  | zero => exact ⟨fun _ d hd => absurd hd (Nat.not_lt_zero d), fun _ i hi hni => absurd hi (by omega)⟩
  | succ count ih =>
    have ih := ih (by omega)
    have hi : n - (count + 1) < n := by omega
    have hnext : n - (count + 1) + 1 = n - count := by omega
    have hrow : (∀ d < count, x (n - count + d) = F.residue ((F.backSubstitute n M count).getD d [])) →
        (F.defect n M x (n - (count + 1)) = 0 ↔
          x (n - (count + 1)) = F.residue (F.backRow n M (n - (count + 1)) (F.backSubstitute n M count))) :=
      fun hlater => hM.defect_eq_zero_iff h hfield hi (by rw [backSubstitute_length]; omega)
        (isVec_backSubstitute h n M count) (by rwa [backSubstitute_length, hnext])
    rw [FieldCtx.backSubstitute]
    constructor
    · intro hx d hd
      have hlater := ih.1 fun i hin hni => hx i hin (by omega)
      cases d with
      | zero => exact (hrow hlater).1 (hx _ hi le_rfl)
      | succ d =>
        rw [List.getD_cons_succ, ← hlater d (by omega)]
        congr 1
        omega
    · intro hx i hin hni
      have hlater : ∀ d < count, x (n - count + d) = F.residue ((F.backSubstitute n M count).getD d []) :=
        fun d hd => by
          rw [← hnext, Nat.add_assoc, Nat.add_comm 1 d, hx (d + 1) (by omega), List.getD_cons_succ]
      rcases hni.eq_or_lt with rfl | hlt
      · exact (hrow hlater).2 (hx 0 (Nat.succ_pos count))
      · exact ih.2 hlater i hin (by omega)

/-! ### A column without a pivot -/

theorem exists_mulVec_eq_zero_of_lt {K : Type} [CommRing K] [Nontrivial K] {m k : Nat} (hmk : m < k)
    (A : Matrix (Fin m) (Fin k) K) : ∃ y, y ≠ 0 ∧ A.mulVec y = 0 := by
  by_contra hnone
  have hker : ∀ y, A.mulVecLin y = 0 → y = 0 := fun y hy => not_not.1 fun hy0 => hnone ⟨y, hy0, hy⟩
  exact absurd (le_of_fin_injective K A.mulVecLin ((injective_iff_map_eq_zero _).2 hker)) hmk.not_ge

/-- When the rows from `col` on are zero up to column `col`, a nonzero combination of the columns is zero: there are
more columns than rows left. -/
theorem exists_kernel {K : Type} [CommRing K] [Nontrivial K] (a : Nat → Nat → K) {n col : Nat} (hcol : col < n)
    (hzero : ∀ i < n, col ≤ i → ∀ j ≤ col, a i j = 0) :
    ∃ y : Nat → K, (∃ j < n, y j ≠ 0) ∧ ∀ i < n, ∑ j ∈ Finset.range n, a i j * y j = 0 := by
  obtain ⟨y, hy0, hy⟩ := exists_mulVec_eq_zero_of_lt (Nat.lt_succ_self col)
    (Matrix.of fun (i : Fin col) (j : Fin (col + 1)) => a i j)
  obtain ⟨k, hk⟩ := Function.ne_iff.1 hy0
  obtain ⟨z, hz, hbeyond⟩ : ∃ z : Nat → K, (∀ j : Fin (col + 1), z j = y j) ∧ ∀ j, col < j → z j = 0 :=
    ⟨Function.extend Fin.val y 0, Fin.val_injective.extend_apply y 0, fun j hj =>
      Function.extend_apply' y (0 : Nat → K) j fun ⟨k, hkj⟩ => absurd k.isLt (by omega)⟩
  refine ⟨z, ⟨k, by omega, by rwa [hz]⟩, fun i hi => ?_⟩
  have hterms : ∀ j ∈ Finset.range n, j ∉ Finset.range (col + 1) → a i j * z j = 0 := fun j _ hj => by
    rw [hbeyond j (by simpa using hj), mul_zero]
  rw [← Finset.sum_subset (Finset.range_mono hcol) hterms, Finset.sum_range]
  simp only [hz]
  by_cases hic : i < col
  · exact congrFun hy ⟨i, hic⟩
  · exact Finset.sum_eq_zero fun j _ => by rw [hzero i hi (not_lt.1 hic) j (Nat.lt_succ_iff.1 j.isLt), zero_mul]

/-! ### The system as equations of residues -/

theorem getD_map_range {α : Type} (f : Nat → α) {i : Nat} (hi : i < n) (d : α) :
    ((List.range n).map f).getD i d = f i := by
  rw [List.getD_eq_getElem _ _ (by simpa using hi), List.getElem_map, List.getElem_range]

theorem entry_augmented {MA Mb : List Vec} {i j : Nat} (hi : i < n) (hj : j < n) :
    entry (augmented n MA Mb) i j = MA.getD (i * n + j) [] := by
  rw [entry, augmented, getD_map_range _ hi, List.getD_append _ _ _ _ (by simpa using hj), getD_map_range _ hj]

theorem entry_augmented_last {MA Mb : List Vec} {i : Nat} (hi : i < n) :
    entry (augmented n MA Mb) i n = Mb.getD i [] := by
  rw [entry, augmented, getD_map_range _ hi, List.getD_append_right _ _ _ _ (by simp), List.length_map,
    List.length_range, Nat.sub_self, List.getD_cons_zero]

theorem getD_row (MA : List Vec) (i : Nat) {j : Nat} (hj : j < n) :
    ((MA.drop (i * n)).take n).getD j [] = MA.getD (i * n + j) [] := by
  rw [List.getD_eq_getElem?_getD, List.getElem?_take_of_lt hj, List.getElem?_drop, List.getD_eq_getElem?_getD]

theorem rowMajor_lt {i j : Nat} (hi : i < n) (hj : j < n) : i * n + j < n * n :=
  calc i * n + j < i * n + n := Nat.add_lt_add_left hj _
    _ = (i + 1) * n := (Nat.succ_mul i n).symm
    _ ≤ n * n := Nat.mul_le_mul_right n hi

theorem isArray_augmented {MA Mb : List Vec} (hlenA : MA.length = n * n) (hlenb : Mb.length = n)
    (hA : ∀ u ∈ MA, F.IsVec u) (hb : ∀ u ∈ Mb, F.IsVec u) : F.IsArray n (augmented n MA Mb) := by
  intro i hi j hj
  rcases hj.lt_or_eq with hlt | rfl
  · rw [entry_augmented hi hlt]
    exact isVec_getD_of_lt hA (hlenA ▸ rowMajor_lt hi hlt)
  · rw [entry_augmented_last hi]
    exact isVec_getD_of_lt hb (hlenb ▸ hi)

theorem zipWith_eq_map_range {α β γ : Type} (f : α → β → γ) {l : List α} {l' : List β} (hl : l.length = n)
    (hl' : l'.length = n) (d : α) (d' : β) :
    List.zipWith f l l' = (List.range n).map fun j => f (l.getD j d) (l'.getD j d') := by
  refine List.ext_getElem (by simp [hl, hl']) fun j _ hj => ?_
  have hjn : j < n := by simpa using hj
  rw [List.getElem_zipWith, List.getElem_map, List.getElem_range, List.getD_eq_getElem _ _ (hl ▸ hjn),
    List.getD_eq_getElem _ _ (hl' ▸ hjn)]

theorem residue_rowDot (h : F.Ring) {row xs : List Vec} (hrow : row.length = n) (hxs : xs.length = n)
    (hrowvec : ∀ u ∈ row, F.IsVec u) (hxsvec : ∀ u ∈ xs, F.IsVec u) :
    F.residue (F.rowDot row xs) =
      ∑ j ∈ Finset.range n, F.residue (row.getD j []) * F.residue (xs.getD j []) := by
  rw [rowDot, zipWith_eq_map_range F.dmul hrow hxs [] [],
    residue_foldl_add h (by simpa using fun j _ => isVec_dmul h _ _), List.map_map, sum_map_range]
  refine Finset.sum_congr rfl fun j hj => ?_
  have hj := Finset.mem_range.1 hj
  exact residue_dmul h (isVec_getD_of_lt hrowvec (hrow ▸ hj)) (isVec_getD_of_lt hxsvec (hxs ▸ hj))

theorem isVec_rowDot (h : F.Ring) (row xs : List Vec) : F.IsVec (F.rowDot row xs) := by
  refine isVec_foldl_add h fun u hu => ?_
  obtain ⟨i, hi, rfl⟩ := List.mem_iff_getElem.1 hu
  rw [List.getElem_zipWith]
  exact isVec_dmul h _ _

section
variable {MA Mb xs : List Vec} (h : F.Ring) (hlenA : MA.length = n * n) (hA : ∀ u ∈ MA, F.IsVec u)
  (hb : ∀ u ∈ Mb, F.IsVec u)
include h hlenA hA hb

/-- A row of the system, as vectors and as the equation of its residues. -/
theorem rowDot_eq_iff (hlen : xs.length = n) (hxs : ∀ u ∈ xs, F.IsVec u) {i : Nat} (hi : i < n) :
    F.rowDot ((MA.drop (i * n)).take n) xs = Mb.getD i F.zero ↔
      F.defect n (augmented n MA Mb) (fun j => F.residue (xs.getD j [])) i = 0 := by
  have hrow : ((MA.drop (i * n)).take n).length = n := by
    have hle : (i + 1) * n ≤ n * n := Nat.mul_le_mul_right n hi
    rw [Nat.succ_mul] at hle
    rw [List.length_take, List.length_drop, hlenA]
    omega
  have hrowvec : ∀ u ∈ (MA.drop (i * n)).take n, F.IsVec u := fun u hu =>
    hA u (List.mem_of_mem_drop (List.mem_of_mem_take hu))
  have hdot : F.residue (F.rowDot ((MA.drop (i * n)).take n) xs) =
      ∑ j ∈ Finset.range n, F.residue (entry (augmented n MA Mb) i j) * F.residue (xs.getD j []) := by
    rw [residue_rowDot h hrow hlen hrowvec hxs]
    refine Finset.sum_congr rfl fun j hj => ?_
    have hj := Finset.mem_range.1 hj
    rw [entry_augmented hi hj, getD_row MA i hj]
  rw [defect, ← hdot, entry_augmented_last hi, sub_eq_zero, ← residue_getD_zero]
  exact ⟨congrArg F.residue, residue_injective h (isVec_rowDot h _ xs) (isVec_getD h hb i)⟩

theorem isSolution_iff : F.IsSolution n MA Mb xs ↔
    xs.length = n ∧ (∀ u ∈ xs, F.IsVec u) ∧
      F.Solves n (augmented n MA Mb) (fun j => F.residue (xs.getD j [])) := by
  refine and_congr_right fun hlen => and_congr_right fun hxs => forall_congr' fun i => forall_congr' fun hi => ?_
  exact rowDot_eq_iff h hlenA hA hb hlen hxs hi

end

/-- Values of the unknowns are the residues of vectors. -/
theorem exists_vectors (h : F.Ring) (n : Nat) (x : Nat → AdjoinRoot (polyOf F.p F.g)) :
    ∃ xs : List Vec, xs.length = n ∧ (∀ u ∈ xs, F.IsVec u) ∧ ∀ j < n, F.residue (xs.getD j []) = x j := by
  choose f hvec hres using exists_isVec_residue h
  exact ⟨(List.range n).map fun j => f (x j), by simp, by simpa using fun j _ => hvec (x j),
    fun j hj => (congrArg F.residue (getD_map_range _ hj [])).trans (hres (x j))⟩

theorem list_ext_residue (h : F.Ring) {xs ys : List Vec} (hlen : xs.length = ys.length) (hxs : ∀ u ∈ xs, F.IsVec u)
    (hys : ∀ u ∈ ys, F.IsVec u)
    (heq : ∀ j < xs.length, F.residue (xs.getD j []) = F.residue (ys.getD j [])) : xs = ys := by
  refine List.ext_getElem hlen fun j hjx hjy => ?_
  have hj := residue_injective h (isVec_getD_of_lt hxs hjx) (isVec_getD_of_lt hys hjy) (heq j hjx)
  rwa [List.getD_eq_getElem _ _ hjx, List.getD_eq_getElem _ _ hjy] at hj

theorem defect_congr {x y : Nat → AdjoinRoot (polyOf F.p F.g)} (hxy : ∀ j < n, x j = y j) (i : Nat) :
    F.defect n M x i = F.defect n M y i := by
  rw [defect, defect, Finset.sum_congr rfl fun j hj => by rw [hxy j (Finset.mem_range.1 hj)]]

/-! ### The elimination decides the system (R152) -/

section
variable {MA Mb : List Vec} (h : F.Sound) (hfield : F.HasFieldRing) (hlenA : MA.length = n * n)
  (hlenb : Mb.length = n) (hA : ∀ u ∈ MA, F.IsVec u) (hb : ∀ u ∈ Mb, F.IsVec u)
include h hfield hlenA hlenb hA hb

theorem solve_cases :
    (∃ M, F.solve n MA Mb = some (F.backSubstitute n M n) ∧ F.Eliminated n (augmented n MA Mb) n M) ∨
      F.solve n MA Mb = none ∧
        ∃ col M, col < n ∧ F.Eliminated n (augmented n MA Mb) col M ∧ F.pivoted n M col = none := by
  have hstart : F.Eliminated n (augmented n MA Mb) (n - n) (augmented n MA Mb) :=
    (Nat.sub_self n).symm ▸ .start (isArray_augmented hlenA hlenb hA hb)
  obtain ⟨M, hM, hdone⟩ | ⟨hnone, hsingular⟩ := hstart.forward h hfield le_rfl
  · exact .inl ⟨M, by rw [solve, hM, Option.map_some], hdone⟩
  · exact .inr ⟨by rw [solve, hnone, Option.map_none], hsingular⟩

/-- What the elimination gives is the one solution. -/
theorem isSolution_iff_eq_of_solve {xs : List Vec} (hsolve : F.solve n MA Mb = some xs) (ys : List Vec) :
    F.IsSolution n MA Mb ys ↔ ys = xs := by
  obtain ⟨M, hM, hdone⟩ | ⟨hnone, -⟩ := solve_cases h hfield hlenA hlenb hA hb
  · obtain rfl : F.backSubstitute n M n = xs := Option.some.inj (hM.symm.trans hsolve)
    have hvec := isVec_backSubstitute h n M n
    have hlen := backSubstitute_length F n M n
    have hback : F.Solves n (augmented n MA Mb) (fun j => F.residue (ys.getD j [])) ↔
        ∀ d < n, F.residue (ys.getD d []) = F.residue ((F.backSubstitute n M n).getD d []) := by
      have hiff := hdone.backSubstitute h hfield (fun j => F.residue (ys.getD j [])) le_rfl
      simp only [Nat.sub_self, Nat.zero_le, true_implies, Nat.zero_add] at hiff
      rw [← hdone.solutions]
      exact hiff
    rw [isSolution_iff h.ring hlenA hA hb, hback]
    constructor
    · rintro ⟨hys, hysvec, heq⟩
      exact list_ext_residue h.ring (hys.trans hlen.symm) hysvec hvec (by rwa [hys])
    · rintro rfl
      exact ⟨hlen, hvec, fun _ _ => rfl⟩
  · rw [hnone] at hsolve
    cases hsolve

/-- Without a pivot every solution has another one beside it. -/
theorem not_existsUnique_of_solve (hsolve : F.solve n MA Mb = none) : ¬ ∃! xs, F.IsSolution n MA Mb xs := by
  obtain ⟨M, hM, -⟩ | ⟨-, col, M, hcol, hM, hpivot⟩ := solve_cases h hfield hlenA hlenb hA hb
  · rw [hM] at hsolve
    cases hsolve
  have := nontrivial_residues h.ring
  have hzero : ∀ i < n, col ≤ i → ∀ j ≤ col, F.residue (entry M i j) = 0 := by
    intro i hi hci j hj
    rcases hj.lt_or_eq with hlt | rfl
    · rw [hM.zeros i hi j hlt (hlt.trans_le hci), residue_zero]
    · rw [pivoted_eq_none hpivot hci hi, residue_zero]
  obtain ⟨y, ⟨k, hk, hyk⟩, hy⟩ := exists_kernel (fun i j => F.residue (entry M i j)) hcol hzero
  rintro ⟨xs, hxs, hunique⟩
  simp only [isSolution_iff h.ring hlenA hA hb, ← hM.solutions] at hxs hunique
  obtain ⟨hlen, hvec, hsolves⟩ := hxs
  obtain ⟨zs, hzlen, hzvec, hz⟩ := exists_vectors h.ring n fun j => F.residue (xs.getD j []) + y j
  have hzsolves : F.Solves n M fun j => F.residue (zs.getD j []) := fun i hi => by
    have hshift : F.defect n M (fun j => F.residue (xs.getD j []) + y j) i =
        F.defect n M (fun j => F.residue (xs.getD j [])) i := by
      simp only [defect, mul_add, Finset.sum_add_distrib, hy i hi, add_zero]
    rw [defect_congr hz, hshift]
    exact hsolves i hi
  obtain rfl := hunique zs ⟨hzlen, hzvec, hzsolves⟩
  exact hyk (left_eq_add.1 (hz k hk))

end

end FieldCtx

/-! ### The statement -/

/-- Settles O52: the elimination answers the one solution or finds that there is not one; it answers the empty list
for size 0, and that is the one solution. -/
theorem gsolveSolvesTheSystem : Obligations.GsolveSolvesTheSystem := by
  intro s ax aA ab an c F n MA Mb hs hF hfield hn hmax hlenA hlenb hr hMA hMb
  have h := hs.sound hF
  have hA := hs.isVec_cells hF hMA
  have hb := hs.isVec_cells hF hMb
  have hsingular := FieldCtx.not_existsUnique_of_solve h hfield hlenA hlenb hA hb
  have hsolution := fun zs => FieldCtx.isSolution_iff_eq_of_solve h hfield hlenA hlenb hA hb (xs := zs)
  have hzero : n = 0 → Succeeds (.gsolve ax aA ab an) s s 0 := gsolve_zero hn hmax hr hlenA hlenb hMA hMb
  refine ⟨hzero, fun xs hxs hunique => ?_, fun hnot => ?_⟩
  · rcases Nat.eq_zero_or_pos n with h0 | h1
    · obtain rfl : xs = [] := List.eq_nil_of_length_eq_zero (hxs.1.trans h0)
      exact ⟨s.emem, stores_writeRange [] s.emem _, hzero h0⟩
    · cases hsolve : F.solve n MA Mb with
      | none => exact absurd ⟨xs, hxs, hunique⟩ (hsingular hsolve)
      | some zs =>
        obtain rfl := (hsolution zs hsolve xs).1 hxs
        exact gsolve_succeeds hn hmax hr hF hlenA hlenb hMA hMb h1 hsolve
  · cases hsolve : F.solve n MA Mb with
    | some zs => exact absurd ⟨zs, (hsolution zs hsolve zs).2 rfl, fun ys => (hsolution zs hsolve ys).1⟩ hnot
    | none =>
      have h1 : 1 ≤ n := Nat.pos_of_ne_zero fun h0 => by
        subst h0
        cases hsolve
      exact gsolve_singular hn hmax hr hF hlenA hlenb hMA hMb h1 hsolve

end Sys2Proof.Machine
end

section
/-! Codec construction (43_reed_solomon.md R160, R161): how RSCFG and RSCFGA end for every `n`, `k` and list of
points. -/

namespace Sys2Proof.Machine

/-- The codec that RSCFG and RSCFGA install with the points `xs`. -/
abbrev codecFor (s : State) (an ak : AReg) (xs : List Vec) : Codec :=
  { n := (s.a.get an).toNat
    k := (s.a.get ak).toNat
    emax := ((s.a.get an).toNat - (s.a.get ak).toNat) / 2
    x := xs }

section
variable {s : State} {c : Ctx} {an ak ax : AReg} {F : FieldCtx} {n k : Nat}

theorem exec_rscfga (s : State) (c : Ctx) (an ak : AReg) : exec (.rscfga c an ak) s =
    complete s (fieldOf s c >>= fun F => codecSizes s.params F (s.a.get an).toNat (s.a.get ak).toNat >>= fun _ =>
      pure (writeCodec s c (codecFor s an ak ((List.range (s.a.get an).toNat).map fun i => F.unidx (i + 1))), 0)) := rfl

/-! ### The tests that both commands make -/

/-- Neither command completes without a constructed context. -/
theorem codec_without_field (hF : s.fc.get c = none) :
    Fails (.rscfg c an ak ax) s .uninitialised ∧ Fails (.rscfga c an ak) s .uninitialised := by
  constructor
  · exact fails_of_eq_error (exec_rscfg s c an ak ax) (by rw [fieldOf_empty hF, except_bind_error])
  · exact fails_of_eq_error (exec_rscfga s c an ak) (by rw [fieldOf_empty hF, except_bind_error])

/-- What the shared tests of `n` and `k` raise, both commands raise. -/
theorem codec_sizes_refused {x : Err} (hF : s.fc.get c = some F)
    (hx : codecSizes s.params F (s.a.get an).toNat (s.a.get ak).toNat = .error x) :
    Fails (.rscfg c an ak ax) s x ∧ Fails (.rscfga c an ak) s x := by
  constructor
  · exact fails_of_eq_error (exec_rscfg s c an ak ax)
      (by rw [fieldOf_held hF, except_bind_ok, hx, except_bind_error])
  · exact fails_of_eq_error (exec_rscfga s c an ak)
      (by rw [fieldOf_held hF, except_bind_ok, hx, except_bind_error])

theorem codecSizes_invalid (P : Params) (hsizes : ¬ (1 ≤ k ∧ k < n ∧ n ≤ F.q - 1)) :
    codecSizes P F n k = .error .invalidCodecParameters := by
  have hfalse : (decide (1 ≤ k) && decide (k < n) && decide (n ≤ F.q - 1)) = false := by
    simpa [and_assoc] using hsizes
  rw [codecSizes, hfalse, require_false, except_bind_error]

theorem codecSizes_capacity {P : Params} (hsizes : 1 ≤ k ∧ k < n ∧ n ≤ F.q - 1) (hmax : P.nMax < n) :
    codecSizes P F n k = .error .capacityExceeded := by
  have htrue : (decide (1 ≤ k) && decide (k < n) && decide (n ≤ F.q - 1)) = true := by
    simpa [and_assoc] using hsizes
  rw [codecSizes, htrue, require_true, except_bind_ok, decide_eq_false hmax.not_ge, require_false]

/-! ### The points of RSCFG -/

section
variable {xs : List Vec} (hF : s.fc.get c = some F)
  (hsizes : codecSizes s.params F (s.a.get an).toNat (s.a.get ak).toNat = .ok ())
  (hlen : xs.length = (s.a.get an).toNat) (hin : (s.a.get ax).toNat + (s.a.get an).toNat ≤ s.params.emDepth)
  (hxs : CellsHold s.emem (s.a.get ax).toNat (tagged c xs))
include hF hsizes hlen hin hxs

/-- Past the tests of the sizes and the cells, the test of the points decides. -/
theorem rscfg_held : exec (.rscfg c an ak ax) s =
    complete s (require (xs.all (fun u => u != F.zero) && decide xs.Nodup) .invalidCodecParameters >>= fun _ =>
      pure (writeCodec s c (codecFor s an ak xs), 0)) := by
  rw [exec_rscfg, fieldOf_held hF, except_bind_ok, hsizes, except_bind_ok,
    memRead_held (.inr hin) ((tagged_length c xs).trans hlen) hxs, except_bind_ok, sameCtx_tagged, except_bind_ok,
    vectors_tagged]

theorem rscfg_succeeds (hne : ∀ u ∈ xs, u ≠ F.zero) (hnodup : xs.Nodup) : Succeeds (.rscfg c an ak ax) s
    (writeCodec s c (codecFor s an ak xs)) 0 := by
  have htrue : (xs.all (fun u => u != F.zero) && decide xs.Nodup) = true := by simpa using ⟨hne, hnodup⟩
  refine succeeds_of_eq_ok (rscfg_held hF hsizes hlen hin hxs) ?_ rfl
  rw [htrue, require_true, except_bind_ok, except_pure]

theorem rscfg_points_refused (hpoints : F.zero ∈ xs ∨ ¬ xs.Nodup) :
    Fails (.rscfg c an ak ax) s .invalidCodecParameters := by
  have hfalse : (xs.all (fun u => u != F.zero) && decide xs.Nodup) = false := by
    rw [Bool.and_eq_false_iff]
    refine hpoints.imp (fun hzero => ?_) decide_eq_false
    exact List.all_eq_false.2 ⟨F.zero, hzero, by simp⟩
  refine fails_of_eq_error (rscfg_held hF hsizes hlen hin hxs) ?_
  rw [hfalse, require_false, except_bind_error]

end

theorem rscfga_succeeds (hF : s.fc.get c = some F)
    (hsizes : codecSizes s.params F (s.a.get an).toNat (s.a.get ak).toNat = .ok ()) : Succeeds (.rscfga c an ak) s
    (writeCodec s c (codecFor s an ak ((List.range (s.a.get an).toNat).map fun i => F.unidx (i + 1)))) 0 := by
  refine succeeds_of_eq_ok (exec_rscfga s c an ak) ?_ rfl
  rw [fieldOf_held hF, except_bind_ok, hsizes, except_bind_ok, except_pure]

end

/-! ### The statements -/

/-- Settles O54: with sizes that pass, RSCFG installs the points of its cells and RSCFGA the canonical ones. -/
theorem rscfgAndRscfgaConstructTheCodec : Obligations.RscfgAndRscfgaConstructTheCodec := by
  rintro s c an ak ax F n k hF rfl rfl hk hkn hnq hmax
  have hsizes := (codecSizes_eq_ok s.params F _ _ ()).2 ⟨⟨hk, hkn, hnq⟩, hmax⟩
  exact ⟨fun xs hlen hin hxs => rscfg_succeeds hF hsizes hlen hin hxs, rscfga_succeeds hF hsizes⟩

/-- Settles O55: the tests of the sizes refuse for both commands, the test of the points for RSCFG. -/
theorem codecParametersRefused : Obligations.CodecParametersRefused := by
  rintro s c an ak ax n k rfl rfl
  refine ⟨codec_without_field, fun F hF => ⟨fun hsizes => ?_, fun hk hkn hnq hmax => ?_, ?_⟩⟩
  · exact codec_sizes_refused hF (codecSizes_invalid s.params hsizes)
  · exact codec_sizes_refused hF (codecSizes_capacity ⟨hk, hkn, hnq⟩ hmax)
  · intro xs hk hkn hnq hmax hlen hin hxs
    have hsizes := (codecSizes_eq_ok s.params F _ _ ()).2 ⟨⟨hk, hkn, hnq⟩, hmax⟩
    exact rscfg_points_refused hF hsizes hlen hin hxs

end Sys2Proof.Machine
end

section
/-! RSENC and RSDEC as commands (43_reed_solomon.md R163, R164): the tests that both make, how each ends past them, and
what RSENC stores. -/

namespace Sys2Proof.Machine

/-! ### The tests of RSENC and RSDEC -/

/-- What RSENC and RSDEC do with a codec before they compute: the source range of `ns` cells and the destination range
of `nd` cells are tested, then the source cells are read and must belong to context `c`. -/
def codecCells (s : State) (c : Ctx) (src ns dst nd : Nat) (f : List Elem → Except Err (State × Nat)) :
    Except Err (State × Nat) := do
  checkRange s src ns
  checkRange s dst nd
  let L ← memRead s src ns
  sameCtx L c
  f L

section
variable {s : State} {c : Ctx} {src ns dst nd : Nat} {f : List Elem → Except Err (State × Nat)}

/-- Past the tests of the two ranges, which empty ranges pass (60_exceptions.md R202). -/
theorem codecCells_inside (hsrc : ns = 0 ∨ src + ns ≤ s.params.emDepth) (hdst : nd = 0 ∨ dst + nd ≤ s.params.emDepth) :
    codecCells s c src ns dst nd f = memRead s src ns >>= fun L => sameCtx L c >>= fun _ => f L := by
  rw [codecCells, (checkRange_eq_ok s src ns).2 hsrc, except_bind_ok, (checkRange_eq_ok s dst nd).2 hdst,
    except_bind_ok]

theorem codecCells_beyond (hns : 1 ≤ ns) (hnd : 1 ≤ nd)
    (hout : s.params.emDepth < src + ns ∨ s.params.emDepth < dst + nd) :
    codecCells s c src ns dst nd f = .error .badAddress := by
  rw [codecCells, checkRange_bind (Nat.one_le_iff_ne_zero.1 hns), checkRange_bind (Nat.one_le_iff_ne_zero.1 hnd)]
  split_ifs with h1 h2
  · omega
  all_goals rfl

theorem codecCells_held {us : List Vec} (hsrc : ns = 0 ∨ src + ns ≤ s.params.emDepth)
    (hdst : nd = 0 ∨ dst + nd ≤ s.params.emDepth) (hlen : us.length = ns)
    (hus : CellsHold s.emem src (tagged c us)) : codecCells s c src ns dst nd f = f (tagged c us) := by
  rw [codecCells_inside hsrc hdst, memRead_held hsrc ((tagged_length c us).trans hlen) hus, except_bind_ok,
    sameCtx_tagged, except_bind_ok]

/-- A command that has passed the tests has read what the source cells hold. -/
theorem codecCells_eq_ok {us : List Vec} {v : State × Nat} (hlen : us.length = ns)
    (hus : CellsHold s.emem src (tagged c us)) (h : codecCells s c src ns dst nd f = .ok v) :
    f (tagged c us) = .ok v := by
  have hranges := h
  simp only [codecCells, except_bind_eq_ok] at hranges
  obtain ⟨⟨⟩, hsrc, ⟨⟩, hdst, -⟩ := hranges
  rwa [codecCells_held ((checkRange_eq_ok s src ns).1 hsrc) ((checkRange_eq_ok s dst nd).1 hdst) hlen hus] at h

/-- The tests of a command that reads the cells of a codec, in their order (60_exceptions.md R204). -/
theorem fails_of_codecCells {i : Instr} (hexec : exec i s = complete s (codecCells s c src ns dst nd f))
    (hns : 1 ≤ ns) (hnd : 1 ≤ nd) :
    (s.params.emDepth < src + ns ∨ s.params.emDepth < dst + nd → Fails i s .badAddress) ∧
    (src + ns ≤ s.params.emDepth → dst + nd ≤ s.params.emDepth →
      (∃ j, j < ns ∧ Memory.read s.emem (src + j) = none) → Fails i s .uninitialised) ∧
    (∀ L : List Elem, L.length = ns → src + ns ≤ s.params.emDepth → dst + nd ≤ s.params.emDepth →
      CellsHold s.emem src L → (∃ x ∈ L, x.ctx ≠ c) → Fails i s .fieldMismatch) := by
  have hinside := fun hsrc hdst =>
    fails_of_cells hns (hexec.trans (congrArg (complete s) (codecCells_inside (.inr hsrc) (.inr hdst))))
  refine ⟨fun hout => fails_of_eq_error hexec (codecCells_beyond hns hnd hout), fun hsrc hdst => ?_,
    fun L hlen hsrc hdst => ?_⟩
  · obtain ⟨-, hempty, -⟩ := hinside hsrc hdst
    exact hempty hsrc
  · obtain ⟨-, -, hother⟩ := hinside hsrc hdst
    exact hother L hlen hsrc

end

/-! ### How the two commands end -/

/-- A command that ends with `STATUS` 0 has made the writes of its result. -/
theorem eq_ok_of_status_zero {s t : State} {r : Except Err (State × Nat)} (h : complete s r = .next t)
    (hstatus : t.status = 0) : ∃ u d, r = .ok (u, d) ∧ t = u.respond d := by
  cases r with
  | ok ud => exact ⟨ud.1, ud.2, rfl, (Host.Outcome.next.inj h).symm⟩
  | error x =>
    obtain rfl : s.raise x = t := Host.Outcome.next.inj h
    exact absurd hstatus (code_ne_zero x)

section
variable {s t : State} {c : Ctx} {ad as : AReg} {F : FieldCtx} {R : Codec} {us : List Vec}

theorem exec_rsenc (hR : s.rs.get c = some R) : exec (.rsenc c ad as) s =
    complete s (codecCells s c (s.a.get as).toNat R.k (s.a.get ad).toNat R.n fun M => fieldOf s c >>= fun F =>
      memWrite s (s.a.get ad).toNat (tagged c (F.rsEncode R (vectors M))) >>= fun t => pure (t, 0)) := by
  show complete s (codecOf s c >>= _) = _
  rw [codecOf_held hR]
  rfl

theorem exec_rsdec (hR : s.rs.get c = some R) : exec (.rsdec c ad as) s =
    complete s (codecCells s c (s.a.get as).toNat R.n (s.a.get ad).toNat R.k fun L => fieldOf s c >>= fun F =>
      F.bwDecode R (vectors L) >>= fun P => memWrite s (s.a.get ad).toNat (tagged c P) >>= fun t => pure (t, 0)) := by
  show complete s (codecOf s c >>= _) = _
  rw [codecOf_held hR]
  rfl

/-- Neither command completes without a codec. -/
theorem transcoding_without_codec (hR : s.rs.get c = none) :
    Fails (.rsenc c ad as) s .uninitialised ∧ Fails (.rsdec c ad as) s .uninitialised := by
  constructor
  · refine fails_of_eq_error (r := codecOf s c >>= _) rfl ?_
    rw [codecOf_empty hR, except_bind_error]
  · refine fails_of_eq_error (r := codecOf s c >>= _) rfl ?_
    rw [codecOf_empty hR, except_bind_error]

/-- The end of a command that stores a computed list of `n` vectors at `dst`. -/
theorem succeeds_of_store {i : Instr} {dst n : Nat} {r : Except Err (State × Nat)} (hexec : exec i s = complete s r)
    (hlen : us.length = n) (hdst : dst + n ≤ s.params.emDepth)
    (hr : r = memWrite s dst (tagged c us) >>= fun t => pure (t, 0)) :
    ∃ mem', Stores s.emem mem' dst (tagged c us) ∧ Succeeds i s { s with emem := mem' } 0 := by
  refine ⟨_, stores_writeRange (tagged c us) s.emem dst, succeeds_of_eq_ok hexec ?_ rfl⟩
  rw [hr, (memWrite_eq_ok s _ _ _).2 ⟨.inr ?_, rfl⟩, except_bind_ok, except_pure]
  rwa [tagged_length, hlen]

variable (hF : s.fc.get c = some F) (hR : s.rs.get c = some R)
include hF hR

theorem rsenc_succeeds (hlen : us.length = R.k) (hsrc : (s.a.get as).toNat + R.k ≤ s.params.emDepth)
    (hdst : (s.a.get ad).toNat + R.n ≤ s.params.emDepth) (hus : CellsHold s.emem (s.a.get as).toNat (tagged c us)) :
    ∃ mem', Stores s.emem mem' (s.a.get ad).toNat (tagged c (F.rsEncode R us)) ∧
      Succeeds (.rsenc c ad as) s { s with emem := mem' } 0 := by
  refine succeeds_of_store (exec_rsenc hR) (rsEncode_length F R us) hdst ?_
  rw [codecCells_held (.inr hsrc) (.inr hdst) hlen hus, fieldOf_held hF, except_bind_ok, vectors_tagged]

section
variable (hlen : us.length = R.n) (hus : CellsHold s.emem (s.a.get as).toNat (tagged c us))
include hlen hus

section
variable (hsrc : (s.a.get as).toNat + R.n ≤ s.params.emDepth) (hdst : (s.a.get ad).toNat + R.k ≤ s.params.emDepth)
include hsrc hdst

/-- Past the tests RSDEC ends as the decoder does. -/
theorem rsdec_held : exec (.rsdec c ad as) s = complete s (F.bwDecode R us >>= fun P =>
    memWrite s (s.a.get ad).toNat (tagged c P) >>= fun t => pure (t, 0)) := by
  rw [exec_rsdec hR, codecCells_held (.inr hsrc) (.inr hdst) hlen hus, fieldOf_held hF, except_bind_ok, vectors_tagged]

theorem rsdec_succeeds {msg : List Vec} (hmsg : F.bwDecode R us = .ok msg) :
    ∃ mem', Stores s.emem mem' (s.a.get ad).toNat (tagged c msg) ∧
      Succeeds (.rsdec c ad as) s { s with emem := mem' } 0 :=
  succeeds_of_store (rsdec_held hF hR hlen hus hsrc hdst) (bwDecode_length F R us msg hmsg) hdst
    (by rw [hmsg, except_bind_ok])

theorem rsdec_fails {x : Err} (hx : F.bwDecode R us = .error x) : Fails (.rsdec c ad as) s x :=
  fails_of_eq_error (rsdec_held hF hR hlen hus hsrc hdst) (by rw [hx, except_bind_error])

end

/-- An RSDEC that ends with `STATUS` 0 has stored what the decoder gave. -/
theorem rsdec_stored (h : exec (.rsdec c ad as) s = .next t) (hstatus : t.status = 0) :
    ∃ msg, F.bwDecode R us = .ok msg ∧ Stores s.emem t.emem (s.a.get ad).toNat (tagged c msg) := by
  rw [exec_rsdec hR] at h
  obtain ⟨u, d, hu, rfl⟩ := eq_ok_of_status_zero h hstatus
  have hdecoded := codecCells_eq_ok hlen hus hu
  simp only [fieldOf_held hF, except_bind_ok, vectors_tagged, except_bind_eq_ok, memWrite_eq_ok, except_pure,
    Except.ok.injEq, Prod.mk.injEq] at hdecoded
  obtain ⟨msg, hmsg, w, ⟨-, rfl⟩, rfl, -⟩ := hdecoded
  exact ⟨msg, hmsg, stores_writeRange (tagged c msg) s.emem _⟩

end

end

/-! ### The statements -/

/-- Settles O59: both commands make the tests of `codecCells`, with source and destination counts exchanged. -/
theorem rsencAndRsdecTestInOrder : Obligations.RsencAndRsdecTestInOrder := by
  intro s c a1 a2
  refine ⟨transcoding_without_codec, fun R hR hk hn => ?_⟩
  obtain ⟨henc_range, henc_empty, henc_other⟩ := fails_of_codecCells (exec_rsenc (ad := a1) (as := a2) hR) hk hn
  obtain ⟨hdec_range, hdec_empty, hdec_other⟩ := fails_of_codecCells (exec_rsdec (ad := a1) (as := a2) hR) hn hk
  exact ⟨henc_range, hdec_range, henc_empty, hdec_empty, henc_other, hdec_other⟩

namespace FieldCtx

/-- The encoder gives the values of the message polynomial at the points. -/
theorem rsEncode_eq_map_polyValue {F : FieldCtx} (h : F.Sound) {R : Codec} {msg : List Vec}
    (hmsg : ∀ u ∈ msg, F.IsVec u) (hlen : R.x.length = R.n) (hx : ∀ u ∈ R.x, F.IsVec u) :
    F.rsEncode R msg = R.x.map (F.polyValue msg) := by
  refine List.ext_getElem (by simp [hlen]) fun i _ hi => ?_
  have hi : i < R.x.length := by simpa using hi
  rw [List.getElem_map, ← horner_eq_polyValue h hmsg (hx _ (List.getElem_mem hi))]
  simp [rsEncode, Codec.point, hi]

end FieldCtx

/-- Settles O56: RSENC stores Horner's values, which are the values of the polynomial. -/
theorem rsencEvaluatesTheMessage : Obligations.RsencEvaluatesTheMessage := by
  intro s c ad am F R msg hs hF hR hlen hsrc hdst hmsg
  obtain ⟨F', hF', -, -, -, -, -, hxlen, hxs, -⟩ := hs.codecs c R hR
  obtain rfl : F = F' := Option.some.inj (hF.symm.trans hF')
  rw [← FieldCtx.rsEncode_eq_map_polyValue (hs.sound hF) (hs.isVec_cells hF hmsg) hxlen fun u hu => (hxs u hu).1]
  exact rsenc_succeeds hF hR hlen hsrc hdst hmsg

end Sys2Proof.Machine
end

section
/-! Polynomials over the ring of a context, and the decoder's division (43_reed_solomon.md R167): it is the division of
polynomials by a monic one, in every context. -/

namespace Sys2Proof.Machine

namespace FieldCtx

open Polynomial

variable {F : FieldCtx} {L E Q : List Vec} {k e c : Nat} {st : List Vec × List Vec}

/-! ### The polynomial of a list of vectors -/

/-- The polynomial over the ring of residues whose coefficients a list of vectors stands for, lowest first. -/
noncomputable def listPoly (F : FieldCtx) (L : List Vec) : (AdjoinRoot (polyOf F.p F.g))[X] :=
  ∑ i ∈ Finset.range L.length, monomial i (F.residue (L.getD i []))

theorem residue_getD_of_le {i : Nat} (hi : L.length ≤ i) : F.residue (L.getD i []) = 0 := by
  rw [List.getD_eq_default _ _ hi, residue_nil]

theorem coeff_listPoly (F : FieldCtx) (L : List Vec) (i : Nat) :
    (F.listPoly L).coeff i = F.residue (L.getD i []) := by
  simp only [listPoly, finsetSum_coeff, coeff_monomial, Finset.sum_ite_eq', Finset.mem_range]
  split
  · rfl
  · rename_i hi
    rw [residue_getD_of_le (not_lt.1 hi)]

theorem degree_listPoly_lt (F : FieldCtx) (L : List Vec) : (F.listPoly L).degree < L.length :=
  (degree_lt_iff_coeff_zero _ _).2 fun i hi => by rw [coeff_listPoly, residue_getD_of_le hi]

theorem eval_listPoly (F : FieldCtx) (L : List Vec) (x : AdjoinRoot (polyOf F.p F.g)) :
    (F.listPoly L).eval x = ∑ i ∈ Finset.range L.length, F.residue (L.getD i []) * x ^ i := by
  simp only [listPoly, eval_finsetSum, eval_monomial]

theorem eval_listPoly_residue (h : F.Ring) {x : Vec} (hL : ∀ u ∈ L, F.IsVec u) (hx : F.IsVec x) :
    (F.listPoly L).eval (F.residue x) = F.residue (F.polyValue L x) :=
  (F.eval_listPoly L _).trans (residue_polyValue h hL hx).symm

theorem listPoly_replicate_zero (F : FieldCtx) (n : Nat) : F.listPoly (List.replicate n F.zero) = 0 := by
  ext i
  rw [coeff_listPoly, coeff_zero, ← residue_getD_zero]
  have hget : (List.replicate n F.zero).getD i F.zero = F.zero := by
    rw [List.getD_eq_getElem?_getD, List.getElem?_replicate]
    split <;> rfl
  rw [hget, residue_zero]

/-- Lists of vectors of one length are equal when their polynomials are. -/
theorem listPoly_injective (h : F.Ring) {L' : List Vec} (hlen : L.length = L'.length) (hL : ∀ u ∈ L, F.IsVec u)
    (hL' : ∀ u ∈ L', F.IsVec u) (heq : F.listPoly L = F.listPoly L') : L = L' :=
  list_ext_residue h hlen hL hL' fun i _ => by rw [← coeff_listPoly, heq, coeff_listPoly]

theorem eq_zero_of_listPoly_eq_zero (h : F.Ring) (hL : ∀ u ∈ L, F.IsVec u) (h0 : F.listPoly L = 0) :
    ∀ u ∈ L, u = F.zero := by
  have heq : L = List.replicate L.length F.zero := by
    refine listPoly_injective h (List.length_replicate).symm hL (fun u hu => ?_)
      (h0.trans (F.listPoly_replicate_zero _).symm)
    rw [List.eq_of_mem_replicate hu]
    exact isVec_zero h
  exact fun u hu => List.eq_of_mem_replicate (heq ▸ hu)

theorem listPoly_set {i : Nat} (hi : i < L.length) (f : Vec) (h0 : (F.listPoly L).coeff i = 0) :
    F.listPoly (L.set i f) = F.listPoly L + C (F.residue f) * X ^ i := by
  ext j
  rw [coeff_add, coeff_listPoly, coeff_listPoly, coeff_C_mul_X_pow, List.getD_eq_getElem?_getD, List.getElem?_set]
  by_cases hij : i = j
  · subst hij
    rw [if_pos rfl, if_pos hi, if_pos rfl, ← coeff_listPoly, h0, zero_add, Option.getD_some]
  · rw [if_neg hij, if_neg (Ne.symm hij), add_zero, List.getD_eq_getElem?_getD]

theorem listPoly_take (h0 : ∀ i ≥ c, (F.listPoly L).coeff i = 0) : F.listPoly (L.take c) = F.listPoly L := by
  ext i
  by_cases hi : i < c
  · rw [coeff_listPoly, coeff_listPoly, List.getD_eq_getElem?_getD, List.getElem?_take_of_lt hi,
      List.getD_eq_getElem?_getD]
  · rw [h0 i (not_lt.1 hi), coeff_listPoly, residue_getD_of_le ((List.length_take_le c L).trans (not_lt.1 hi))]

theorem degree_listPoly_le (hlen : E.length = e + 1) : (F.listPoly E).degree ≤ e :=
  (degree_le_iff_coeff_zero _ _).2 fun i hi => by
    rw [coeff_listPoly, residue_getD_of_le (hlen.trans_le (Nat.cast_lt.1 hi))]

theorem monic_listPoly (hlen : E.length = e + 1) (hlead : (F.listPoly E).coeff e = 1) : (F.listPoly E).Monic :=
  monic_of_degree_le e (degree_listPoly_le hlen) hlead

theorem degree_listPoly (h : F.Ring) (hlen : E.length = e + 1) (hlead : (F.listPoly E).coeff e = 1) :
    (F.listPoly E).degree = e := by
  have := nontrivial_residues h
  exact degree_eq_of_le_of_coeff_ne_zero (degree_listPoly_le hlen) (hlead.trans_ne (NeZero.ne 1))

/-! ### The loop of the division (R167) -/

/-- What the loop keeps, with the quotient's coefficients from `c` on done: quotient and remainder make up `Q`, and
the remainder has degree less than `c + e`. -/
structure Dividing (F : FieldCtx) (k e : Nat) (Q E : List Vec) (c : Nat) (st : List Vec × List Vec) : Prop where
  quotVecs : ∀ u ∈ st.1, F.IsVec u
  remVecs : ∀ u ∈ st.2, F.IsVec u
  quotLength : st.1.length = k
  remLength : st.2.length = k + e
  equation : F.listPoly st.2 + F.listPoly E * F.listPoly st.1 = F.listPoly Q
  quotZeros : ∀ i < c, (F.listPoly st.1).coeff i = 0
  remZeros : ∀ i ≥ c + e, (F.listPoly st.2).coeff i = 0

theorem Dividing.start (h : F.Ring) (hQ : ∀ u ∈ Q, F.IsVec u) (hlen : Q.length = k + e) :
    F.Dividing k e Q E k (List.replicate k F.zero, Q) where
  quotVecs := fun u hu => List.eq_of_mem_replicate hu ▸ isVec_zero h
  remVecs := hQ
  quotLength := List.length_replicate
  remLength := hlen
  equation := by rw [listPoly_replicate_zero, mul_zero, add_zero]
  quotZeros := fun i _ => by rw [listPoly_replicate_zero, coeff_zero]
  remZeros := fun i hi => by rw [coeff_listPoly, residue_getD_of_le (hlen.trans_le hi)]

section
variable (h : F.Sound) (hE : ∀ u ∈ E, F.IsVec u) (hElen : E.length = e + 1) (hst : F.Dividing k e Q E (c + 1) st)
  (hc : c < k)
include h hE hElen hst hc

/-- One turn subtracts from the remainder a multiple of the divisor. -/
theorem Dividing.listPoly_rem : F.listPoly (F.divStep E e st (c + e)).2 =
    F.listPoly st.2 - C (F.residue (st.2.getD (c + e) [])) * (X ^ c * F.listPoly E) := by
  have hlen := hst.remLength
  have hf : F.IsVec (st.2.getD (c + e) []) := isVec_getD_of_lt hst.remVecs (by omega)
  ext i
  rw [coeff_sub, coeff_C_mul, coeff_X_pow_mul', coeff_listPoly, coeff_listPoly, divStep, Nat.add_sub_cancel]
  by_cases hi : i < st.2.length
  · rw [getD_mapIdx hi _ []]
    by_cases hrange : c ≤ i ∧ i ≤ c + e
    · have hEi : F.IsVec (E.getD (i - c) []) := isVec_getD_of_lt hE (by omega)
      rw [if_pos hrange, if_pos hrange.1, coeff_listPoly,
        residue_sub h.ring (isVec_getD_of_lt hst.remVecs hi) (isVec_mul h _ _), residue_mul h hf hEi]
    · rw [if_neg hrange]
      split
      · rw [coeff_listPoly, residue_getD_of_le (L := E) (by omega), mul_zero, sub_zero]
      · rw [mul_zero, sub_zero]
  · rw [residue_getD_of_le (by simpa using hi), residue_getD_of_le (not_lt.1 hi), if_pos (by omega), coeff_listPoly,
      residue_getD_of_le (L := E) (by omega), mul_zero, sub_zero]

theorem Dividing.step (hlead : (F.listPoly E).coeff e = 1) : F.Dividing k e Q E c (F.divStep E e st (c + e)) := by
  have hlen := hst.remLength
  have hquot : F.listPoly (F.divStep E e st (c + e)).1 =
      F.listPoly st.1 + C (F.residue (st.2.getD (c + e) [])) * X ^ c := by
    rw [divStep, Nat.add_sub_cancel]
    exact listPoly_set (hst.quotLength ▸ hc) _ (hst.quotZeros c (Nat.lt_succ_self c))
  have hrem := hst.listPoly_rem h hE hElen hc
  refine
    { quotVecs := fun u hu => ?_, remVecs := fun u hu => ?_, quotLength := ?_, remLength := ?_, equation := ?_
      quotZeros := fun i hi => ?_, remZeros := fun i hi => ?_ }
  · rcases List.mem_or_eq_of_mem_set hu with hu | rfl
    · exact hst.quotVecs u hu
    · exact isVec_getD_of_lt hst.remVecs (by omega)
  · obtain ⟨i, hi, rfl⟩ := List.mem_mapIdx.1 hu
    split
    · exact isVec_sub h.ring _ _
    · exact hst.remVecs _ (List.getElem_mem hi)
  · rw [divStep, List.length_set, hst.quotLength]
  · rw [divStep, List.length_mapIdx, hlen]
  · rw [hrem, hquot, ← hst.equation]
    ring
  · rw [hquot, coeff_add, hst.quotZeros i (by omega), coeff_C_mul_X_pow, if_neg (by omega), add_zero]
  · rw [hrem, coeff_sub, coeff_C_mul, coeff_X_pow_mul', if_pos (by omega)]
    rcases hi.eq_or_lt with rfl | hlt
    · rw [Nat.add_sub_cancel_left, hlead, mul_one, coeff_listPoly, sub_self]
    · rw [hst.remZeros i (by omega), coeff_listPoly, residue_getD_of_le (L := E) (by omega), mul_zero, sub_zero]

end

theorem Dividing.loop (h : F.Sound) (hE : ∀ u ∈ E, F.IsVec u) (hElen : E.length = e + 1)
    (hlead : (F.listPoly E).coeff e = 1) (hc : c ≤ k) (hst : F.Dividing k e Q E c st) :
    F.Dividing k e Q E 0 (((List.range c).reverse.map (fun i => i + e)).foldl (F.divStep E e) st) := by
  induction c generalizing st with
  | zero => exact hst
  | succ c ih =>
    rw [List.range_succ, List.reverse_append, List.reverse_singleton, List.singleton_append, List.map_cons,
      List.foldl_cons]
    exact ih (by omega) (hst.step h hE hElen hc hlead)

/-- The division of the decoder is the division of polynomials by a monic one. -/
theorem polyDivMod_spec (h : F.Sound) (hQ : ∀ u ∈ Q, F.IsVec u) (hQlen : Q.length = k + e) (hE : ∀ u ∈ E, F.IsVec u)
    (hElen : E.length = e + 1) (hlead : (F.listPoly E).coeff e = 1) :
    F.listPoly (F.polyDivMod k e Q E).1 = F.listPoly Q /ₘ F.listPoly E ∧
      F.listPoly (F.polyDivMod k e Q E).2 = F.listPoly Q %ₘ F.listPoly E ∧
      (F.polyDivMod k e Q E).1.length = k ∧ ∀ u ∈ (F.polyDivMod k e Q E).2, F.IsVec u := by
  have hdone := (Dividing.start (E := E) h.ring hQ hQlen).loop h hE hElen hlead le_rfl
  have hzeros := fun i hi => hdone.remZeros i ((Nat.zero_add e).trans_le hi)
  have hdegree : (F.listPoly _).degree < (F.listPoly E).degree :=
    degree_listPoly h.ring hElen hlead ▸ (degree_lt_iff_coeff_zero _ _).2 hzeros
  have hunique := div_modByMonic_unique _ _ (monic_listPoly hElen hlead) ⟨hdone.equation, hdegree⟩
  refine ⟨hunique.1.symm, ?_, hdone.quotLength, fun u hu => hdone.remVecs u (List.mem_of_mem_take hu)⟩
  rw [hunique.2]
  exact listPoly_take hzeros

end FieldCtx

end Sys2Proof.Machine
end

section
/-! The linear system of a decoder trial (43_reed_solomon.md R166): its solutions are the pairs of a numerator `Q` and a
monic locator `E` with `Q(x_i) = r_i * E(x_i)` at the points that the trial uses. -/

namespace Sys2Proof.Machine

namespace FieldCtx

open Polynomial

variable {F : FieldCtx} {R : Codec} {r xs : List Vec} {k e i j : Nat} {x y : Vec}

/-! ### Powers of a point and rows of the system -/

theorem pointPowers_length (F : FieldCtx) (x : Vec) (count : Nat) : (F.pointPowers x count).length = count + 1 := by
  induction count with
  | zero => rfl
  | succ count ih => rw [pointPowers, List.length_append, ih, List.length_singleton]

theorem isVec_and_residue_pointPowers (h : F.Sound) (hx : F.IsVec x) {count : Nat} (hj : j ≤ count) :
    F.IsVec ((F.pointPowers x count).getD j []) ∧
      F.residue ((F.pointPowers x count).getD j []) = F.residue x ^ j := by
  induction count generalizing j with
  | zero =>
    obtain rfl := Nat.le_zero.1 hj
    exact ⟨isVec_one h.ring, F.residue_one.trans (pow_zero _).symm⟩
  | succ count ih =>
    have hlen := F.pointPowers_length x count
    rw [pointPowers]
    rcases hj.lt_or_eq with hlt | rfl
    · rw [List.getD_append _ _ _ _ (hlen ▸ hlt)]
      exact ih (Nat.le_of_lt_succ hlt)
    · obtain ⟨hvec, hres⟩ := ih le_rfl
      rw [List.getD_append_right _ _ _ _ hlen.le, hlen, Nat.sub_self, List.getD_cons_zero]
      exact ⟨isVec_mul h _ _, by rw [residue_mul h hvec hx, hres, pow_succ]⟩

section
variable (F) (k e x y)

theorem bwRow_length : (F.bwRow k e x y).1.length = k + 2 * e := by
  simp [bwRow]
  omega

theorem bwRow_getD_numerator (hj : j < k + e) :
    (F.bwRow k e x y).1.getD j [] = (F.pointPowers x (k + e)).getD j [] := by
  rw [bwRow, List.getD_append _ _ _ _ (by simpa using hj), getD_map_range _ hj]

theorem bwRow_getD_locator (hj : j < e) :
    (F.bwRow k e x y).1.getD (k + e + j) [] = F.neg (F.mul y ((F.pointPowers x (k + e)).getD j [])) := by
  rw [bwRow, List.getD_append_right _ _ _ _ (by simp), List.length_map, List.length_range, Nat.add_sub_cancel_left,
    getD_map_range _ hj]

end

theorem isVec_bwRow (h : F.Sound) (hx : F.IsVec x) : ∀ u ∈ (F.bwRow k e x y).1, F.IsVec u := by
  intro u hu
  rcases List.mem_append.1 hu with hu | hu
  · obtain ⟨j, hj, rfl⟩ := List.mem_map.1 hu
    exact (isVec_and_residue_pointPowers h hx (List.mem_range.1 hj).le).1
  · obtain ⟨j, -, rfl⟩ := List.mem_map.1 hu
    exact isVec_neg h.ring _

/-! ### The system -/

theorem rowMajor_getD {α : Type} {n : Nat} {rows : List (List α)} (hrows : ∀ row ∈ rows, row.length = n)
    (hi : i < rows.length) (hj : j < n) (d : α) : rows.flatten.getD (i * n + j) d = (rows.getD i []).getD j d := by
  induction rows generalizing i with
  | nil => exact absurd hi (Nat.not_lt_zero i)
  | cons row rows ih =>
    have hrow := hrows row List.mem_cons_self
    rw [List.flatten_cons]
    cases i with
    | zero => rw [Nat.zero_mul, Nat.zero_add, List.getD_append _ _ _ _ (hrow ▸ hj), List.getD_cons_zero]
    | succ i =>
      have hindex : (i + 1) * n + j = row.length + (i * n + j) := by rw [hrow, Nat.succ_mul]; omega
      rw [hindex, List.getD_append_right _ _ _ _ (Nat.le_add_right _ _), Nat.add_sub_cancel_left, List.getD_cons_succ,
        ih (fun row' hrow' => hrows row' (List.mem_cons_of_mem row hrow')) (Nat.lt_of_succ_lt_succ hi)]

theorem rowMajor_length {α : Type} {n : Nat} {rows : List (List α)} (hrows : ∀ row ∈ rows, row.length = n) :
    rows.flatten.length = rows.length * n := by
  rw [List.length_flatten, List.eq_replicate_of_mem (l := rows.map List.length) (a := n) (by simpa using hrows),
    List.sum_replicate, List.length_map, smul_eq_mul]

/-- The rows of the trial `e`, each with its right-hand side. -/
def bwRows (F : FieldCtx) (R : Codec) (r : List Vec) (e : Nat) : List (List Vec × Vec) :=
  (List.range (R.k + 2 * e)).map fun i => F.bwRow R.k e (R.point i) (r.getD i [])

theorem bwSystem_eq (F : FieldCtx) (R : Codec) (r : List Vec) (e : Nat) :
    F.bwSystem R r e = (((F.bwRows R r e).map Prod.fst).flatten, (F.bwRows R r e).map Prod.snd) := rfl

theorem exists_of_mem_bwRows {row : List Vec × Vec} (hrow : row ∈ F.bwRows R r e) :
    ∃ i < R.k + 2 * e, F.bwRow R.k e (R.point i) (r.getD i []) = row := by
  simpa [bwRows] using hrow

theorem length_of_mem_bwRows {row : List Vec} (hrow : row ∈ (F.bwRows R r e).map Prod.fst) :
    row.length = R.k + 2 * e := by
  obtain ⟨_, hmem, rfl⟩ := List.mem_map.1 hrow
  obtain ⟨i, -, rfl⟩ := exists_of_mem_bwRows hmem
  exact F.bwRow_length R.k e (R.point i) (r.getD i [])

theorem bwSystem_matrix_length (F : FieldCtx) (R : Codec) (r : List Vec) (e : Nat) :
    (F.bwSystem R r e).1.length = (R.k + 2 * e) * (R.k + 2 * e) := by
  rw [bwSystem_eq, rowMajor_length fun row => length_of_mem_bwRows, List.length_map, bwRows, List.length_map,
    List.length_range]

theorem bwSystem_rhs_length (F : FieldCtx) (R : Codec) (r : List Vec) (e : Nat) :
    (F.bwSystem R r e).2.length = R.k + 2 * e := by
  rw [bwSystem_eq, List.length_map, bwRows, List.length_map, List.length_range]

theorem bwSystem_matrix_getD (r : List Vec) (hi : i < R.k + 2 * e) (hj : j < R.k + 2 * e) :
    (F.bwSystem R r e).1.getD (i * (R.k + 2 * e) + j) [] =
      (F.bwRow R.k e (R.point i) (r.getD i [])).1.getD j [] := by
  have hrow : ((F.bwRows R r e).map Prod.fst).getD i [] = (F.bwRow R.k e (R.point i) (r.getD i [])).1 := by
    rw [bwRows, List.map_map, getD_map_range _ hi, Function.comp_apply]
  rw [bwSystem_eq, rowMajor_getD (fun row => length_of_mem_bwRows) (by simpa [bwRows] using hi) hj, hrow]

theorem bwSystem_rhs_getD (r : List Vec) (hi : i < R.k + 2 * e) :
    (F.bwSystem R r e).2.getD i [] = F.mul (r.getD i []) ((F.pointPowers (R.point i) (R.k + e)).getD e []) := by
  have hrow : ((F.bwRows R r e).map Prod.snd).getD i [] = (F.bwRow R.k e (R.point i) (r.getD i [])).2 := by
    rw [bwRows, List.map_map, getD_map_range _ hi, Function.comp_apply]
  rw [bwSystem_eq, hrow, bwRow]

/-! ### A codec and a received word -/

/-- What the invariant says of a codec, and of a received word in the cells that RSDEC reads (10_state.md R22, R31). -/
structure Receives (F : FieldCtx) (R : Codec) (r : List Vec) : Prop where
  sound : F.Sound
  pointsLength : R.x.length = R.n
  points : ∀ u ∈ R.x, F.IsVec u
  distinct : R.x.Nodup
  wordLength : r.length = R.n
  word : ∀ u ∈ r, F.IsVec u
  radius : R.k + 2 * R.emax ≤ R.n

/-- The evaluation point `x_i` as a residue. -/
noncomputable def node (F : FieldCtx) (R : Codec) (i : Nat) : AdjoinRoot (polyOf F.p F.g) := F.residue (R.point i)

/-- The received value `r_i` as a residue. -/
noncomputable def symbol (F : FieldCtx) (r : List Vec) (i : Nat) : AdjoinRoot (polyOf F.p F.g) :=
  F.residue (r.getD i [])

theorem Receives.isVec_point (hr : F.Receives R r) (hi : i < R.n) : F.IsVec (R.point i) :=
  isVec_getD_of_lt hr.points (hr.pointsLength.symm ▸ hi)

theorem Receives.isVec_symbol (hr : F.Receives R r) (hi : i < R.n) : F.IsVec (r.getD i []) :=
  isVec_getD_of_lt hr.word (hr.wordLength.symm ▸ hi)

theorem Receives.node_injective (hr : F.Receives R r) (hi : i < R.n) (hj : j < R.n)
    (hij : F.node R i = F.node R j) : i = j := by
  have hlen := hr.pointsLength
  have hpoint := residue_injective hr.sound.ring (hr.isVec_point hi) (hr.isVec_point hj) hij
  rw [Codec.point, Codec.point, List.getD_eq_getElem _ _ (hlen.symm ▸ hi), List.getD_eq_getElem _ _ (hlen.symm ▸ hj)]
    at hpoint
  exact (hr.distinct.getElem_inj_iff).1 hpoint

/-! ### Solutions as polynomials -/

/-- The coefficients of `Q` in a solution of the trial `e` (R165). -/
def numerator (k e : Nat) (xs : List Vec) : List Vec := xs.take (k + e)

/-- The coefficients of the monic `E` in a solution of the trial `e` (R165). -/
def locator (F : FieldCtx) (k e : Nat) (xs : List Vec) : List Vec := (xs.drop (k + e)).take e ++ [F.one]

theorem numerator_length (hlen : xs.length = k + 2 * e) : (numerator k e xs).length = k + e := by
  rw [numerator, List.length_take]
  omega

theorem locator_length (hlen : xs.length = k + 2 * e) : (F.locator k e xs).length = e + 1 := by
  rw [locator, List.length_append, List.length_take, List.length_drop, List.length_singleton]
  omega

theorem isVec_numerator (hxs : ∀ u ∈ xs, F.IsVec u) : ∀ u ∈ numerator k e xs, F.IsVec u :=
  fun u hu => hxs u (List.mem_of_mem_take hu)

theorem isVec_locator (h : F.Ring) (hxs : ∀ u ∈ xs, F.IsVec u) : ∀ u ∈ F.locator k e xs, F.IsVec u := by
  intro u hu
  rcases List.mem_append.1 hu with hu | hu
  · exact hxs u (List.mem_of_mem_drop (List.mem_of_mem_take hu))
  · obtain rfl := List.mem_singleton.1 hu
    exact isVec_one h

theorem coeff_numerator (F : FieldCtx) (xs : List Vec) (hj : j < k + e) :
    (F.listPoly (numerator k e xs)).coeff j = F.residue (xs.getD j []) := by
  rw [coeff_listPoly, numerator, List.getD_eq_getElem?_getD, List.getElem?_take_of_lt hj, List.getD_eq_getElem?_getD]

theorem coeff_locator (hlen : xs.length = k + 2 * e) (hj : j < e) :
    (F.listPoly (F.locator k e xs)).coeff j = F.residue (xs.getD (k + e + j) []) := by
  rw [coeff_listPoly, locator, List.getD_append _ _ _ _ (by rw [List.length_take, List.length_drop]; omega),
    List.getD_eq_getElem?_getD, List.getElem?_take_of_lt hj, List.getElem?_drop, List.getD_eq_getElem?_getD]

theorem coeff_locator_lead (hlen : xs.length = k + 2 * e) : (F.listPoly (F.locator k e xs)).coeff e = 1 := by
  have hlow : ((xs.drop (k + e)).take e).length = e := by rw [List.length_take, List.length_drop]; omega
  rw [coeff_listPoly, locator, List.getD_append_right _ _ _ _ hlow.le, hlow, Nat.sub_self, List.getD_cons_zero,
    residue_one]

theorem eval_numerator (hlen : xs.length = k + 2 * e) (z : AdjoinRoot (polyOf F.p F.g)) :
    (F.listPoly (numerator k e xs)).eval z = ∑ j ∈ Finset.range (k + e), F.residue (xs.getD j []) * z ^ j := by
  rw [eval_listPoly, numerator_length hlen]
  refine Finset.sum_congr rfl fun j hj => ?_
  rw [← coeff_listPoly, coeff_numerator F xs (Finset.mem_range.1 hj)]

theorem eval_locator (hlen : xs.length = k + 2 * e) (z : AdjoinRoot (polyOf F.p F.g)) :
    (F.listPoly (F.locator k e xs)).eval z =
      ∑ j ∈ Finset.range e, F.residue (xs.getD (k + e + j) []) * z ^ j + z ^ e := by
  rw [eval_listPoly, locator_length hlen, Finset.sum_range_succ, ← coeff_listPoly, coeff_locator_lead hlen, one_mul]
  congr 1
  refine Finset.sum_congr rfl fun j hj => ?_
  rw [← coeff_listPoly, coeff_locator hlen (Finset.mem_range.1 hj)]

/-- Two solutions of a trial with the same polynomials are one. -/
theorem eq_of_polynomials (h : F.Ring) {ys : List Vec} (hxlen : xs.length = k + 2 * e) (hylen : ys.length = k + 2 * e)
    (hxs : ∀ u ∈ xs, F.IsVec u) (hys : ∀ u ∈ ys, F.IsVec u)
    (hnum : F.listPoly (numerator k e xs) = F.listPoly (numerator k e ys))
    (hloc : F.listPoly (F.locator k e xs) = F.listPoly (F.locator k e ys)) : xs = ys := by
  refine list_ext_residue h (hxlen.trans hylen.symm) hxs hys fun j hj => ?_
  by_cases hlow : j < k + e
  · rw [← coeff_numerator F xs hlow, hnum, coeff_numerator F ys hlow]
  · obtain ⟨d, rfl⟩ := Nat.exists_eq_add_of_le (not_lt.1 hlow)
    rw [← coeff_locator hxlen (by omega), hloc, coeff_locator hylen (by omega)]

/-- Every polynomial of degree less than `k + e` and every monic one of degree `e` are those of some list. -/
theorem exists_of_polynomials (h : F.Ring) {Q E : (AdjoinRoot (polyOf F.p F.g))[X]} (hQ : Q.degree < (k + e : Nat))
    (hE : E.Monic) (hdeg : E.degree = e) : ∃ xs : List Vec, xs.length = k + 2 * e ∧ (∀ u ∈ xs, F.IsVec u) ∧
      F.listPoly (numerator k e xs) = Q ∧ F.listPoly (F.locator k e xs) = E := by
  obtain ⟨xs, hlen, hxs, hres⟩ := exists_vectors h (k + 2 * e)
    fun j => if j < k + e then Q.coeff j else E.coeff (j - (k + e))
  refine ⟨xs, hlen, hxs, ?_, ?_⟩
  · ext j
    by_cases hj : j < k + e
    · rw [coeff_numerator F xs hj, hres j (by omega), if_pos hj]
    · rw [(degree_lt_iff_coeff_zero _ _).1 hQ j (not_lt.1 hj), coeff_listPoly,
        residue_getD_of_le ((numerator_length hlen).trans_le (not_lt.1 hj))]
  · ext j
    rcases lt_trichotomy j e with hj | rfl | hj
    · rw [coeff_locator hlen hj, hres _ (by omega), if_neg (by omega), Nat.add_sub_cancel_left]
    · rw [coeff_locator_lead hlen]
      exact (hE.coeff_natDegree.symm.trans (by rw [natDegree_eq_of_degree_eq_some hdeg]))
    · rw [coeff_eq_zero_of_degree_lt (p := E) (hdeg ▸ Nat.cast_lt.2 hj), coeff_listPoly,
        residue_getD_of_le ((locator_length hlen).trans_le hj)]

/-! ### The equations of a trial -/

/-- The working array of the trial `e`. -/
abbrev bwArray (F : FieldCtx) (R : Codec) (r : List Vec) (e : Nat) : List (List Vec) :=
  augmented (R.k + 2 * e) (F.bwSystem R r e).1 (F.bwSystem R r e).2

section
variable (hr : F.Receives R r) (hi : i < R.k + 2 * e) (hin : i < R.n)
include hr hi hin

theorem Receives.residue_entry_numerator (hj : j < R.k + e) :
    F.residue (entry (F.bwArray R r e) i j) = F.node R i ^ j := by
  rw [entry_augmented hi (by omega), bwSystem_matrix_getD r hi (by omega), bwRow_getD_numerator F _ _ _ _ hj,
    (isVec_and_residue_pointPowers hr.sound (hr.isVec_point hin) hj.le).2, node]

theorem Receives.residue_entry_locator (hj : j < e) :
    F.residue (entry (F.bwArray R r e) i (R.k + e + j)) = -(F.symbol r i * F.node R i ^ j) := by
  obtain ⟨hvec, hres⟩ :=
    isVec_and_residue_pointPowers hr.sound (hr.isVec_point hin) (show j ≤ R.k + e by omega)
  rw [entry_augmented hi (by omega), bwSystem_matrix_getD r hi (by omega), bwRow_getD_locator F _ _ _ _ hj,
    residue_neg hr.sound.ring (isVec_mul hr.sound _ _), residue_mul hr.sound (hr.isVec_symbol hin) hvec, hres, symbol,
    node]

theorem Receives.residue_entry_rhs :
    F.residue (entry (F.bwArray R r e) i (R.k + 2 * e)) = F.symbol r i * F.node R i ^ e := by
  obtain ⟨hvec, hres⟩ := isVec_and_residue_pointPowers hr.sound (hr.isVec_point hin) (Nat.le_add_left e R.k)
  rw [entry_augmented_last hi, bwSystem_rhs_getD r hi, residue_mul hr.sound (hr.isVec_symbol hin) hvec, hres, symbol,
    node]

/-- A list misses row `i` by what `Q(x_i)` and `r_i * E(x_i)` differ. -/
theorem Receives.defect_bwArray (hlen : xs.length = R.k + 2 * e) :
    F.defect (R.k + 2 * e) (F.bwArray R r e) (fun j => F.residue (xs.getD j [])) i =
      (F.listPoly (numerator R.k e xs)).eval (F.node R i) -
        F.symbol r i * (F.listPoly (F.locator R.k e xs)).eval (F.node R i) := by
  have hnum : ∀ j ∈ Finset.range (R.k + e), F.residue (entry (F.bwArray R r e) i j) * F.residue (xs.getD j []) =
      F.residue (xs.getD j []) * F.node R i ^ j := fun j hj => by
    rw [hr.residue_entry_numerator hi hin (Finset.mem_range.1 hj), mul_comm]
  have hloc : ∀ j ∈ Finset.range e,
      F.residue (entry (F.bwArray R r e) i (R.k + e + j)) * F.residue (xs.getD (R.k + e + j) []) =
        -(F.symbol r i * (F.residue (xs.getD (R.k + e + j) []) * F.node R i ^ j)) := fun j hj => by
    rw [hr.residue_entry_locator hi hin (Finset.mem_range.1 hj)]
    ring
  have hsum := Finset.sum_range_add
    (fun j => F.residue (entry (F.bwArray R r e) i j) * F.residue (xs.getD j [])) (R.k + e) e
  rw [Finset.sum_congr rfl hnum, Finset.sum_congr rfl hloc, Finset.sum_neg_distrib, ← Finset.mul_sum,
    show R.k + e + e = R.k + 2 * e by omega] at hsum
  rw [defect, hsum, hr.residue_entry_rhs hi hin, eval_numerator hlen, eval_locator hlen]
  ring

end

section
variable (hr : F.Receives R r) (hused : R.k + 2 * e ≤ R.n)
include hr hused

theorem Receives.isVec_bwSystem :
    (∀ u ∈ (F.bwSystem R r e).1, F.IsVec u) ∧ ∀ u ∈ (F.bwSystem R r e).2, F.IsVec u := by
  constructor
  · intro u hu
    obtain ⟨_, hrow, hu⟩ := List.mem_flatten.1 hu
    obtain ⟨_, hmem, rfl⟩ := List.mem_map.1 hrow
    obtain ⟨i, hi, rfl⟩ := exists_of_mem_bwRows hmem
    exact isVec_bwRow hr.sound (hr.isVec_point (hi.trans_le hused)) u hu
  · intro u hu
    obtain ⟨_, hrow, rfl⟩ := List.mem_map.1 hu
    obtain ⟨i, -, rfl⟩ := exists_of_mem_bwRows hrow
    exact isVec_mul hr.sound _ _

/-- The solutions of a trial are the pairs of polynomials that agree with the received word (R166). -/
theorem Receives.isSolution_bwSystem_iff :
    F.IsSolution (R.k + 2 * e) (F.bwSystem R r e).1 (F.bwSystem R r e).2 xs ↔
      xs.length = R.k + 2 * e ∧ (∀ u ∈ xs, F.IsVec u) ∧ ∀ i < R.k + 2 * e,
        (F.listPoly (numerator R.k e xs)).eval (F.node R i) =
          F.symbol r i * (F.listPoly (F.locator R.k e xs)).eval (F.node R i) := by
  obtain ⟨hA, hb⟩ := hr.isVec_bwSystem hused
  rw [isSolution_iff hr.sound.ring (F.bwSystem_matrix_length R r e) hA hb]
  refine and_congr_right fun hlen => and_congr_right fun _ => forall_congr' fun i => forall_congr' fun hi => ?_
  rw [hr.defect_bwArray hi (hi.trans_le hused) hlen, sub_eq_zero]

end

end FieldCtx

end Sys2Proof.Machine
end

section
/-! The Berlekamp-Welch decoder (43_reed_solomon.md R165, R168, R169). In every context the message that it returns has
passed the test of its distance. In a field, write `t(e)` for the errors of a near message among the points of the trial
`e`: while `t(e) ≤ e` every solution of the trial has the message as its quotient, and a singular trial has `t(e) < e`,
so that the next smaller one has `t(e-1) ≤ e-1`. -/

namespace Sys2Proof.Machine

namespace FieldCtx

open Polynomial

variable {F : FieldCtx} {R : Codec} {r xs msg : List Vec} {e i m : Nat}

/-! ### The verdict on a trial -/

/-- Past its tests of the remainder and of the quotient's degree, the verdict is the test of the distance. -/
theorem bwCandidate_of_division {P rem : List Vec}
    (hdiv : F.polyDivMod R.k e (numerator R.k e xs) (F.locator R.k e xs) = (P, rem)) (hlen : P.length = R.k)
    (hrem : ∀ u ∈ rem, u = F.zero) : F.bwCandidate R r e xs =
      require (decide (F.mismatch R P r ≤ R.emax)) .decodingFailure >>= fun _ => pure P := by
  have hzero : rem.all (fun c => c == F.zero) = true := by simpa using hrem
  have hdrop : P.drop R.k = [] := hlen ▸ List.drop_length
  have htake : P.take R.k = P := hlen ▸ List.take_length
  have hpad : R.k - P.length = 0 := hlen ▸ Nat.sub_self _
  rw [numerator, locator] at hdiv
  simp only [bwCandidate, hdiv, hzero, hdrop, htake, hpad, require_true, except_bind_ok, List.all_nil,
    List.replicate_zero, List.append_nil]

theorem mismatch_of_bwCandidate (h : F.bwCandidate R r e xs = .ok msg) : F.mismatch R msg r ≤ R.emax := by
  simp only [bwCandidate, except_bind_eq_ok, require_eq_ok, decide_eq_true_eq, except_pure, Except.ok.injEq] at h
  obtain ⟨-, -, -, -, -, hmismatch, rfl⟩ := h
  exact hmismatch

theorem bwCandidate_eq_error {x : Err} (h : F.bwCandidate R r e xs = .error x) : x = .decodingFailure := by
  simp only [bwCandidate, except_bind_eq_error, require_eq_error, except_pure, reduceCtorEq, and_false, exists_false,
    or_false] at h
  obtain ⟨-, rfl⟩ | ⟨-, -, ⟨-, rfl⟩ | ⟨-, -, -, rfl⟩⟩ := h <;> rfl

/-! ### The trials -/

theorem bwTrials_of_solve (hsolve : F.solve (R.k + 2 * e) (F.bwSystem R r e).1 (F.bwSystem R r e).2 = some xs) :
    F.bwTrials R r e = F.bwCandidate R r e xs := by
  cases e with
  | zero =>
    rw [Nat.mul_zero, Nat.add_zero] at hsolve
    rw [bwTrials, hsolve]
  | succ e => rw [bwTrials, hsolve]

theorem bwTrials_zero_of_none (hsolve : F.solve R.k (F.bwSystem R r 0).1 (F.bwSystem R r 0).2 = none) :
    F.bwTrials R r 0 = .error .decodingFailure := by
  rw [bwTrials, hsolve, except_throw]

theorem bwTrials_succ_of_none
    (hsolve : F.solve (R.k + 2 * (e + 1)) (F.bwSystem R r (e + 1)).1 (F.bwSystem R r (e + 1)).2 = none) :
    F.bwTrials R r (e + 1) = F.bwTrials R r e := by
  rw [bwTrials, hsolve]

/-- The decoder ends with the verdict on some trial, or with every trial singular. -/
theorem bwTrials_cases (F : FieldCtx) (R : Codec) (r : List Vec) (e : Nat) :
    (∃ d xs, F.bwTrials R r e = F.bwCandidate R r d xs) ∨ F.bwTrials R r e = .error .decodingFailure := by
  induction e with
  | zero =>
    cases hsolve : F.solve R.k (F.bwSystem R r 0).1 (F.bwSystem R r 0).2 with
    | some xs => exact .inl ⟨0, xs, bwTrials_of_solve hsolve⟩
    | none => exact .inr (bwTrials_zero_of_none hsolve)
  | succ e ih =>
    cases hsolve : F.solve (R.k + 2 * (e + 1)) (F.bwSystem R r (e + 1)).1 (F.bwSystem R r (e + 1)).2 with
    | some xs => exact .inl ⟨e + 1, xs, bwTrials_of_solve hsolve⟩
    | none => rwa [bwTrials_succ_of_none hsolve]

theorem mismatch_of_bwDecode (h : F.bwDecode R r = .ok msg) : F.mismatch R msg r ≤ R.emax := by
  rw [bwDecode] at h
  obtain ⟨d, xs, hverdict⟩ | hsingular := F.bwTrials_cases R r R.emax
  · exact mismatch_of_bwCandidate (hverdict.symm.trans h)
  · rw [hsingular] at h
    cases h

theorem bwDecode_eq_error {x : Err} (h : F.bwDecode R r = .error x) : x = .decodingFailure := by
  rw [bwDecode] at h
  obtain ⟨d, xs, hverdict⟩ | hsingular := F.bwTrials_cases R r R.emax
  · exact bwCandidate_eq_error (hverdict.symm.trans h)
  · exact (Except.error.inj (hsingular.symm.trans h)).symm

/-! ### The distance -/

/-- The positions among the first `m` in which the encoding of `msg` differs from the received word (R169). -/
def errorPositions (F : FieldCtx) (R : Codec) (msg r : List Vec) (m : Nat) : Finset Nat :=
  (Finset.range m).filter fun i => F.polyValue msg (R.x.getD i F.zero) ≠ r.getD i F.zero

theorem distance_eq_card (F : FieldCtx) (R : Codec) (msg r : List Vec) :
    F.distance R msg r = (F.errorPositions R msg r R.n).card := by
  rw [errorPositions, Finset.card_def, Finset.filter_val, ← Multiset.countP_eq_card_filter, Finset.range_val,
    Multiset.range, Multiset.coe_countP, distance]
  exact List.countP_congr fun i _ => by rw [bne_iff_ne, decide_eq_true_eq]

theorem errorPositions_mono {m' : Nat} (hm : m ≤ m') : F.errorPositions R msg r m ⊆ F.errorPositions R msg r m' :=
  Finset.filter_subset_filter _ (Finset.range_mono hm)

section
variable (hr : F.Receives R r) (hmsg : ∀ u ∈ msg, F.IsVec u)
include hr hmsg

theorem Receives.mem_errorPositions (hm : m ≤ R.n) : i ∈ F.errorPositions R msg r m ↔
    i < m ∧ (F.listPoly msg).eval (F.node R i) ≠ F.symbol r i := by
  rw [errorPositions, Finset.mem_filter, Finset.mem_range]
  refine and_congr_right fun hi => not_congr ?_
  have hx := hr.isVec_point (hi.trans_le hm)
  have hpoint : R.x.getD i F.zero = R.point i := by
    have hlen : i < R.x.length := hr.pointsLength.symm ▸ hi.trans_le hm
    rw [Codec.point, List.getD_eq_getElem _ _ hlen, List.getD_eq_getElem _ _ hlen]
  have hword : F.residue (r.getD i F.zero) = F.symbol r i := F.residue_getD_zero r i
  rw [hpoint, node, eval_listPoly_residue hr.sound.ring hmsg hx, ← hword]
  exact ⟨congrArg F.residue, residue_injective hr.sound.ring (isVec_polyValue hr.sound.ring _ _)
    (isVec_getD hr.sound.ring hr.word i)⟩

/-- The decoder counts the positions that the distance counts (R168). -/
theorem Receives.mismatch_eq_distance : F.mismatch R msg r = F.distance R msg r := by
  rw [mismatch, distance, List.countP_eq_length_filter]
  congr 1
  refine List.filter_congr fun i hi => ?_
  have hi := List.mem_range.1 hi
  have hxlen : i < R.x.length := hr.pointsLength.symm ▸ hi
  have hrlen : i < r.length := hr.wordLength.symm ▸ hi
  rw [horner_eq_polyValue hr.sound hmsg (hr.isVec_point hi), Codec.point, List.getD_eq_getElem _ _ hxlen,
    List.getD_eq_getElem _ _ hxlen, List.getD_eq_getElem _ _ hrlen, List.getD_eq_getElem _ _ hrlen]

end

/-- In every context the decoder returns near messages only. -/
theorem Receives.near_of_bwDecode (hr : F.Receives R r) (h : F.bwDecode R r = .ok msg) : F.Near R r msg := by
  have hmsg := isVec_bwDecode hr.sound h
  exact ⟨bwDecode_length F R r msg h, hmsg, hr.mismatch_eq_distance hmsg ▸ mismatch_of_bwDecode h⟩

/-! ### Trials with a near message, in a field -/

theorem degree_mul_lt {K : Type} [CommRing K] {P E : K[X]} {k : Nat} (hP : P.degree < k) (hE : E.Monic)
    (hdegree : E.degree = e) : (P * E).degree < (k + e : Nat) := by
  rw [hE.degree_mul, hdegree, Nat.cast_add]
  exact WithBot.add_lt_add_right (WithBot.natCast_ne_bot e) hP

theorem HasFieldRing.isDomain (hfield : F.HasFieldRing) (h : F.Sound) : IsDomain (AdjoinRoot (polyOf F.p F.g)) := by
  have : Fact F.p.Prime := ⟨h.ring.prime⟩
  obtain ⟨u, hu, hprim⟩ := hfield.exists_isPrimitive h
  exact AdjoinRoot.isDomain_of_prime (irreducible_of_isPrimitive h.ring hu hprim).prime

section
variable [IsDomain (AdjoinRoot (polyOf F.p F.g))] (hr : F.Receives R r) (hlen : msg.length = R.k)
  (hmsg : ∀ u ∈ msg, F.IsVec u) (hused : R.k + 2 * e ≤ R.n)
include hr hlen hmsg hused

/-- As long as a trial has room for the errors, every solution of it is the message times the locator: their difference
has more zeros than its degree allows. -/
theorem Receives.numerator_eq_mul (ht : (F.errorPositions R msg r (R.k + 2 * e)).card ≤ e)
    (hxs : F.IsSolution (R.k + 2 * e) (F.bwSystem R r e).1 (F.bwSystem R r e).2 xs) :
    F.listPoly (numerator R.k e xs) = F.listPoly msg * F.listPoly (F.locator R.k e xs) := by
  obtain ⟨hxlen, -, heq⟩ := (hr.isSolution_bwSystem_iff hused).1 hxs
  have hcard := Finset.le_card_sdiff (F.errorPositions R msg r (R.k + 2 * e)) (Finset.range (R.k + 2 * e))
  rw [Finset.card_range] at hcard
  have hcount : ((R.k + e : Nat) : WithBot Nat) ≤
      ((Finset.range (R.k + 2 * e) \ F.errorPositions R msg r (R.k + 2 * e)).card : Nat) := by
    exact_mod_cast (by omega)
  refine eq_of_degrees_lt_of_eval_index_eq (Finset.range (R.k + 2 * e) \ F.errorPositions R msg r (R.k + 2 * e))
    (v := F.node R) (fun i hi j hj => ?_) ?_ ?_ fun i hi => ?_
  · have hi := Finset.mem_range.1 (Finset.mem_sdiff.1 hi).1
    have hj := Finset.mem_range.1 (Finset.mem_sdiff.1 hj).1
    exact hr.node_injective (hi.trans_le hused) (hj.trans_le hused)
  · exact (numerator_length hxlen ▸ F.degree_listPoly_lt _).trans_le hcount
  · have hlead := coeff_locator_lead (F := F) hxlen
    have hloclen := locator_length (F := F) hxlen
    exact (degree_mul_lt (hlen ▸ F.degree_listPoly_lt msg) (monic_listPoly hloclen hlead)
      (degree_listPoly hr.sound.ring hloclen hlead)).trans_le hcount
  · obtain ⟨hi, hgood⟩ := Finset.mem_sdiff.1 hi
    have hi := Finset.mem_range.1 hi
    rw [hr.mem_errorPositions hmsg hused, not_and, not_not] at hgood
    rw [heq i hi, eval_mul, hgood hi]

/-- When a trial has just the room for the errors, the locator of a solution is the monic polynomial whose zeros are
the points in error. -/
theorem Receives.locator_eq_nodal (ht : (F.errorPositions R msg r (R.k + 2 * e)).card = e)
    (hxs : F.IsSolution (R.k + 2 * e) (F.bwSystem R r e).1 (F.bwSystem R r e).2 xs) :
    F.listPoly (F.locator R.k e xs) = Lagrange.nodal (F.errorPositions R msg r (R.k + 2 * e)) (F.node R) := by
  have hmul := hr.numerator_eq_mul hlen hmsg hused ht.le hxs
  obtain ⟨hxlen, -, heq⟩ := (hr.isSolution_bwSystem_iff hused).1 hxs
  have hdegree := degree_listPoly hr.sound.ring (locator_length hxlen) (coeff_locator_lead hxlen)
  refine eq_of_degree_le_of_eval_index_eq (F.errorPositions R msg r (R.k + 2 * e)) (v := F.node R)
    (fun i hi j hj => ?_) ?_ ?_ ?_ fun i hi => ?_
  · have hi := ((hr.mem_errorPositions hmsg hused).1 hi).1
    have hj := ((hr.mem_errorPositions hmsg hused).1 hj).1
    exact hr.node_injective (hi.trans_le hused) (hj.trans_le hused)
  · rw [hdegree, ht]
  · rw [hdegree, Lagrange.degree_nodal, ht]
  · rw [(monic_listPoly (locator_length hxlen) (coeff_locator_lead hxlen)).leadingCoeff,
      Lagrange.nodal_monic.leadingCoeff]
  · obtain ⟨hin, hbad⟩ := (hr.mem_errorPositions hmsg hused).1 hi
    have hzero := heq i hin
    rw [hmul, eval_mul, ← sub_eq_zero, ← sub_mul] at hzero
    rw [Lagrange.eval_nodal_at_node hi]
    exact (mul_eq_zero.1 hzero).resolve_left (sub_ne_zero.2 hbad)

/-- Such a trial has exactly one solution. -/
theorem Receives.existsUnique_solution (ht : (F.errorPositions R msg r (R.k + 2 * e)).card = e) :
    ∃! xs, F.IsSolution (R.k + 2 * e) (F.bwSystem R r e).1 (F.bwSystem R r e).2 xs := by
  have hmonic : (Lagrange.nodal (F.errorPositions R msg r (R.k + 2 * e)) (F.node R)).Monic := Lagrange.nodal_monic
  have hdegree : (Lagrange.nodal (F.errorPositions R msg r (R.k + 2 * e)) (F.node R)).degree = e := by
    rw [Lagrange.degree_nodal, ht]
  obtain ⟨xs, hxlen, hxs, hnum, hloc⟩ := exists_of_polynomials hr.sound.ring
    (degree_mul_lt (hlen ▸ F.degree_listPoly_lt msg) hmonic hdegree) hmonic hdegree
  refine ⟨xs, (hr.isSolution_bwSystem_iff hused).2 ⟨hxlen, hxs, fun i hi => ?_⟩, fun ys hys => ?_⟩
  · rw [hnum, hloc, eval_mul]
    by_cases hbad : i ∈ F.errorPositions R msg r (R.k + 2 * e)
    · rw [Lagrange.eval_nodal_at_node hbad, mul_zero, mul_zero]
    · rw [hr.mem_errorPositions hmsg hused, not_and, not_not] at hbad
      rw [hbad hi]
  · have hyloc := hr.locator_eq_nodal hlen hmsg hused ht hys
    have hynum := hr.numerator_eq_mul hlen hmsg hused ht.le hys
    obtain ⟨hylen, hyvec, -⟩ := (hr.isSolution_bwSystem_iff hused).1 hys
    exact eq_of_polynomials hr.sound.ring hylen hxlen hyvec hxs (by rw [hynum, hyloc, hnum]) (hyloc.trans hloc.symm)

end

section
variable (hr : F.Receives R r) (hlen : msg.length = R.k) (hmsg : ∀ u ∈ msg, F.IsVec u)
  (hnear : F.distance R msg r ≤ R.emax)
include hr hlen hmsg hnear

/-- A trial whose solution is the message times the locator returns the near message. -/
theorem Receives.bwCandidate_eq_ok (hxlen : xs.length = R.k + 2 * e) (hxs : ∀ u ∈ xs, F.IsVec u)
    (hmul : F.listPoly (numerator R.k e xs) = F.listPoly msg * F.listPoly (F.locator R.k e xs)) :
    F.bwCandidate R r e xs = .ok msg := by
  have h := hr.sound.ring
  have hloclen := locator_length (F := F) hxlen
  have hlead := coeff_locator_lead (F := F) hxlen
  have hmonic := monic_listPoly hloclen hlead
  have hnumvec : ∀ u ∈ numerator R.k e xs, F.IsVec u := isVec_numerator hxs
  obtain ⟨hquot, hrem, hquotlen, hremvec⟩ := polyDivMod_spec hr.sound hnumvec (numerator_length hxlen)
    (isVec_locator h hxs) hloclen hlead
  rw [hmul, mul_comm, mul_divByMonic_cancel_left _ hmonic] at hquot
  rw [hmul, mul_comm, self_mul_modByMonic hmonic] at hrem
  have hquotvec := isVec_polyDivMod (E := F.locator R.k e xs) h (numerator_length hxlen).ge hnumvec
  have hmsgeq := listPoly_injective h (hquotlen.trans hlen.symm) hquotvec hmsg hquot
  rw [bwCandidate_of_division (Prod.ext hmsgeq rfl) hlen (eq_zero_of_listPoly_eq_zero h hremvec hrem),
    hr.mismatch_eq_distance hmsg, decide_eq_true hnear, require_true, except_bind_ok, except_pure]

/-- A trial with room for the errors returns the near message, or it is singular and so is not filled by them. -/
theorem Receives.trial_cases (hfield : F.HasFieldRing) (hused : R.k + 2 * e ≤ R.n)
    (ht : (F.errorPositions R msg r (R.k + 2 * e)).card ≤ e) :
    F.bwTrials R r e = .ok msg ∨
      F.solve (R.k + 2 * e) (F.bwSystem R r e).1 (F.bwSystem R r e).2 = none ∧
        (F.errorPositions R msg r (R.k + 2 * e)).card < e := by
  have := hfield.isDomain hr.sound
  have hlenA := F.bwSystem_matrix_length R r e
  have hlenb := F.bwSystem_rhs_length R r e
  obtain ⟨hA, hb⟩ := hr.isVec_bwSystem hused
  cases hsolve : F.solve (R.k + 2 * e) (F.bwSystem R r e).1 (F.bwSystem R r e).2 with
  | some xs =>
    have hxs := (isSolution_iff_eq_of_solve hr.sound hfield hlenA hlenb hA hb hsolve xs).2 rfl
    have hmul := hr.numerator_eq_mul hlen hmsg hused ht hxs
    exact .inl ((bwTrials_of_solve hsolve).trans (hr.bwCandidate_eq_ok hlen hmsg hnear hxs.1 hxs.2.1 hmul))
  | none =>
    refine .inr ⟨rfl, ht.lt_of_ne fun hfull => ?_⟩
    exact not_existsUnique_of_solve hr.sound hfield hlenA hlenb hA hb hsolve
      (hr.existsUnique_solution hlen hmsg hused hfull)

theorem Receives.bwTrials_eq_ok (hfield : F.HasFieldRing) (hused : R.k + 2 * e ≤ R.n)
    (ht : (F.errorPositions R msg r (R.k + 2 * e)).card ≤ e) : F.bwTrials R r e = .ok msg := by
  induction e with
  | zero =>
    obtain hok | ⟨-, hroom⟩ := hr.trial_cases hlen hmsg hnear hfield hused ht
    · exact hok
    · exact absurd hroom (Nat.not_lt_zero _)
  | succ e ih =>
    obtain hok | ⟨hsingular, hroom⟩ := hr.trial_cases hlen hmsg hnear hfield hused ht
    · exact hok
    · have hfewer : F.errorPositions R msg r (R.k + 2 * e) ⊆ F.errorPositions R msg r (R.k + 2 * (e + 1)) :=
        errorPositions_mono (by omega)
      rw [bwTrials_succ_of_none hsingular]
      exact ih (by omega) ((Finset.card_le_card hfewer).trans (Nat.le_of_lt_succ hroom))

end

/-- In a field the decoder returns the near message: the first trial has room for its errors (R169). -/
theorem Receives.bwDecode_eq_ok (hr : F.Receives R r) (hfield : F.HasFieldRing) (hnear : F.Near R r msg) :
    F.bwDecode R r = .ok msg := by
  obtain ⟨hlen, hmsg, hdistance⟩ := hnear
  have hfewer : F.errorPositions R msg r (R.k + 2 * R.emax) ⊆ F.errorPositions R msg r R.n :=
    errorPositions_mono hr.radius
  refine hr.bwTrials_eq_ok hlen hmsg hdistance hfield hr.radius ((Finset.card_le_card hfewer).trans ?_)
  rwa [← distance_eq_card]

/-- Without a near message the decoder fails: what it returns is near. -/
theorem Receives.bwDecode_eq_decodingFailure (hr : F.Receives R r) (hfar : ∀ msg, ¬ F.Near R r msg) :
    F.bwDecode R r = .error .decodingFailure := by
  cases hdecode : F.bwDecode R r with
  | ok msg => exact absurd (hr.near_of_bwDecode hdecode) (hfar msg)
  | error x => rw [bwDecode_eq_error hdecode]

end FieldCtx

/-! ### The statements -/

theorem Inv.receives {s : State} (hs : Inv s) {c : Ctx} {F : FieldCtx} {R : Codec} {r : List Vec} {base : Nat}
    (hF : s.fc.get c = some F) (hR : s.rs.get c = some R) (hlen : r.length = R.n)
    (hr : CellsHold s.emem base (tagged c r)) : F.Receives R r := by
  obtain ⟨F', hF', -, hkn, -, -, hemax, hxlen, hxs, hnodup⟩ := hs.codecs c R hR
  obtain rfl : F = F' := Option.some.inj (hF.symm.trans hF')
  exact ⟨hs.sound hF, hxlen, fun u hu => (hxs u hu).1, hnodup, hlen, hs.isVec_cells hF hr, by omega⟩

/-- Settles O57: RSDEC ends as the decoder does, which finds the near message if there is one. -/
theorem rsdecReturnsTheNearMessage : Obligations.RsdecReturnsTheNearMessage := by
  intro s c ad ar F R r hs hF hfield hR hlen hsrc hdst hcells
  have hr := hs.receives hF hR hlen hcells
  refine ⟨fun msg hnear => ?_, fun hfar => ?_⟩
  · exact rsdec_succeeds hF hR hlen hcells hsrc hdst (hr.bwDecode_eq_ok hfield hnear)
  · exact rsdec_fails hF hR hlen hcells hsrc hdst (hr.bwDecode_eq_decodingFailure hfar)

/-- Settles O58: what RSDEC stores is what the decoder returned, and that is near. -/
theorem rsdecNeverReturnsAFarMessage : Obligations.RsdecNeverReturnsAFarMessage := by
  intro s t c ad ar F R r hs hF hR hlen hcells h hstatus
  obtain ⟨msg, hmsg, hstores⟩ := rsdec_stored hF hR hlen hcells h hstatus
  exact ⟨msg, (hs.receives hF hR hlen hcells).near_of_bwDecode hmsg, hstores⟩

end Sys2Proof.Machine
end

section
/-! The commands that complete from every state: NOP, SETA, CLRE (44_system.md R180, R181, R183) and CCLR
(40_field.md R90). Each has a result that no check can stop, and its whole write is in that result. -/

namespace Sys2Proof.Machine

theorem nop_succeeds (s : State) : Succeeds .nop s s 0 := succeeds_of_eq_ok rfl rfl rfl

theorem seta_succeeds (s : State) (ad : AReg) (imm : Nat) :
    Succeeds (.seta ad imm) s (writeA s ad (BitVec.ofNat 20 imm)) 0 := succeeds_of_eq_ok rfl rfl rfl

theorem clre_succeeds (s : State) : Succeeds .clre s { s with esr := 0 } 0 := succeeds_of_eq_ok rfl rfl rfl

theorem cclr_succeeds (s : State) : Succeeds .cclr s { s with cbuf := [] } 0 := succeeds_of_eq_ok rfl rfl rfl

/-- Settles O23: each command's result is its write, and a value in SETA's range fits the register's 20 bits. -/
theorem nopSetaClreCclr : Obligations.NopSetaClreCclr := by
  intro s
  refine ⟨nop_succeeds s, fun ad imm himm => ?_, clre_succeeds s, cclr_succeeds s⟩
  have hfits : (BitVec.ofNat 20 imm).toNat = imm := by
    rw [BitVec.toNat_ofNat, Nat.mod_eq_of_lt (by omega)]
  exact ⟨BitVec.ofNat 20 imm, hfits, seta_succeeds s ad imm⟩

end Sys2Proof.Machine
end

section
/-! The errors of a command (60_exceptions.md R190 to R207): how every command and every step ends, which errors each
chain of checks can raise, and the refusal of a zero divisor. -/

namespace Sys2Proof.Machine

/-! ### Every command and every step ends -/

/-- Settles O12: the end of a command is the error entry, or the success entry after writes that leave `ESR`. -/
theorem commandsAreAtomic : Obligations.CommandsAreAtomic := by
  intro i s
  obtain ⟨t, -, ht, -⟩ := exec_answers i s
  obtain ⟨x, rfl⟩ | ⟨u, d, rfl, hu⟩ := exec_cases ht
  · exact .inl ⟨x, ht⟩
  · exact .inr ⟨u, d, succeeds_of_respond i s u d hu.responses ht, hu.esr_eq⟩

theorem step_of_no_command {s : State} (hcmds : s.cmds = []) : step s = .next s := by
  simp only [step, acceptCommand, hcmds, wait]

/-- Settles O8: the block waits without a word, and answers every word. -/
theorem everyStepAnswers : Obligations.EveryStepAnswers := by
  intro s
  cases hcmds : s.cmds with
  | nil => exact ⟨s, step_of_no_command hcmds⟩
  | cons w rest =>
    obtain ⟨t, -, ht, -⟩ := oneResponsePerCommand s w rest hcmds
    exact ⟨t, ht⟩

/-- Settles O14: a step answers the code of one of the twelve errors, or 0. -/
theorem responseCodes : Obligations.ResponseCodes := by
  refine ⟨⟨rfl, rfl, rfl, rfl, rfl, rfl, rfl, rfl, rfl, rfl, rfl, rfl⟩, fun s w rest t hcmds h => ?_⟩
  obtain ⟨x, rfl⟩ | ⟨i, u, d, -, rfl, hu⟩ := step_answers hcmds h
  · exact ⟨_, rfl, (statusByte_toNat x).trans_le (code_le_twelve x).2⟩
  · exact ⟨_, congrArg (_ :: ·) hu.responses, Nat.zero_le 12⟩

/-! ### Which errors a chain of checks can raise -/

/-- The result `r` is no error but one of the list `l`. -/
def ErrorsIn {α : Type} (l : List Err) (r : Except Err α) : Prop := ∀ x, r = .error x → x ∈ l

section
variable {α β : Type} {l l' : List Err} {r : Except Err α}

theorem errorsIn_ok (a : α) : ErrorsIn [] (.ok a : Except Err α) := by
  rintro x ⟨⟩

theorem errorsIn_error (x : Err) : ErrorsIn [x] (.error x : Except Err α) := by
  rintro _ ⟨⟩
  exact List.mem_singleton_self x

theorem ErrorsIn.mono (h : ErrorsIn l r) (hl : l ⊆ l') : ErrorsIn l' r := fun x hx => hl (h x hx)

theorem ErrorsIn.bind {f : α → Except Err β} (h : ErrorsIn l r) (hf : ∀ a, ErrorsIn l' (f a)) :
    ErrorsIn (l ++ l') (r >>= f) := by
  intro x hx
  rcases (except_bind_eq_error r f x).1 hx with hr | ⟨a, -, ha⟩
  · exact List.mem_append_left l' (h x hr)
  · exact List.mem_append_right l (hf a x ha)

/-- The writes at the end of a chain raise nothing more. -/
theorem ErrorsIn.writes (h : ErrorsIn l r) (f : α → β) : ErrorsIn l (r >>= fun a => pure (f a)) :=
  List.append_nil l ▸ h.bind fun a => errorsIn_ok (f a)

theorem errorsIn_require (b : Bool) (x : Err) : ErrorsIn [x] (require b x) := by
  intro y hy
  obtain ⟨-, rfl⟩ := (require_eq_error b x y).1 hy
  exact List.mem_singleton_self x

theorem errorsIn_held (o : Option α) : ErrorsIn [.uninitialised] (held o) :=
  fun x hx => List.mem_singleton.2 ((held_eq_error o x).1 hx).2

end

/-! ### The shared operations -/

section
variable (s : State)

theorem errorsIn_readE (r : EReg) : ErrorsIn [.uninitialised] (readE s r) := errorsIn_held _

theorem errorsIn_fieldOf (c : Ctx) : ErrorsIn [.uninitialised] (fieldOf s c) := errorsIn_held _

theorem errorsIn_codecOf (c : Ctx) : ErrorsIn [.uninitialised] (codecOf s c) := errorsIn_held _

theorem errorsIn_checkRange (base n : Nat) : ErrorsIn [.badAddress] (checkRange s base n) := errorsIn_require _ _

theorem errorsIn_memRead (base n : Nat) : ErrorsIn [.badAddress, .uninitialised] (memRead s base n) :=
  (errorsIn_checkRange s base n).bind fun _ => errorsIn_held _

theorem errorsIn_memWrite (base : Nat) (L : List Elem) : ErrorsIn [.badAddress] (memWrite s base L) :=
  (errorsIn_checkRange s base L.length).writes _

theorem errorsIn_sameCtx (L : List Elem) (c : Ctx) : ErrorsIn [.fieldMismatch] (sameCtx L c) := errorsIn_require _ _

theorem errorsIn_pair (i j : EReg) : ErrorsIn [.uninitialised, .fieldMismatch] (pair s i j) :=
  ((errorsIn_readE s i).bind fun x => (errorsIn_readE s j).bind fun _ => (errorsIn_require _ _).bind fun _ =>
    (errorsIn_fieldOf s x.ctx).writes _).mono (by simp)

theorem errorsIn_withInt (i : EReg) (n : Int) : ErrorsIn [.uninitialised] (withInt s i n) :=
  ((errorsIn_readE s i).bind fun x => (errorsIn_fieldOf s x.ctx).writes _).mono (by simp)

end

theorem FieldCtx.errorsIn_div (F : FieldCtx) (u v : Vec) : ErrorsIn [.divisionByZero] (F.div u v) := by
  rw [div]
  split
  · exact errorsIn_error _
  · exact (errorsIn_ok _).mono (List.nil_subset _)

theorem errorsIn_elementOfSequence (F : FieldCtx) (cbuf : List Int) :
    ErrorsIn [.outOfRangeCoefficient] (elementOfSequence F cbuf) :=
  ((errorsIn_require _ _).bind fun _ => (errorsIn_require _ _).writes _).mono (by simp)

theorem errorsIn_capacity (P : Params) (p m : Nat) : ErrorsIn [.capacityExceeded] (capacity P p m) :=
  ((errorsIn_require _ _).bind fun _ => errorsIn_require _ _).mono (by simp)

theorem errorsIn_validate (p m : Nat) (cbuf : List Int) : ErrorsIn [.invalidFieldParameters] (validate p m cbuf) :=
  fun _ hx => List.mem_singleton.2 (eq_of_validate_eq_error hx)

/-- The test of the capacity, the validation, and the search when there is one (40_field.md R92). -/
theorem errorsIn_construct (P : Params) (p m : Nat) (cbuf : List Int) (fp : Bool) :
    ErrorsIn [.capacityExceeded, .invalidFieldParameters, .noPrimitiveElementFound] (construct P p m cbuf fp) := by
  refine (errorsIn_capacity P p m).bind fun _ => (errorsIn_validate p m cbuf).bind fun g => ?_
  split
  · dsimp only
    split
    · exact (errorsIn_ok _).mono (List.nil_subset _)
    · exact errorsIn_error _
  · exact (errorsIn_ok _).mono (List.nil_subset _)

theorem errorsIn_codecSizes (P : Params) (F : FieldCtx) (n k : Nat) :
    ErrorsIn [.invalidCodecParameters, .capacityExceeded] (codecSizes P F n k) :=
  (errorsIn_require _ _).bind fun _ => errorsIn_require _ _

theorem errorsIn_bwDecode (F : FieldCtx) (R : Codec) (r : List Vec) : ErrorsIn [.decodingFailure] (F.bwDecode R r) :=
  fun _ hx => List.mem_singleton.2 (FieldCtx.bwDecode_eq_error hx)

/-! ### Every command -/

/-- The outcome `o` of a command started in `s` is the end of a result that is no error but one of `l`. -/
def FailsWithin (s : State) (l : List Err) (o : Host.Outcome State Fault Refusal) : Prop :=
  ∃ r, o = complete s r ∧ ErrorsIn l r

section
variable {s : State} {l l' : List Err}

/-- The response tells the error, so a command that ends in a result fails with that result's error. -/
theorem FailsWithin.mem_of_fails {i : Instr} {x : Err} (h : FailsWithin s l (exec i s)) (hx : Fails i s x) : x ∈ l := by
  obtain ⟨r, hr, hl⟩ := h
  have hsame : complete s r = .next (s.raise x) := hr.symm.trans hx
  cases r with
  | ok td => exact absurd (congrArg State.status (Host.Outcome.next.inj hsame)).symm (code_ne_zero x)
  | error y =>
    have hyx : y = x := statusByte_injective y x (congrArg State.status (Host.Outcome.next.inj hsame))
    exact hl x (congrArg Except.error hyx)

theorem failsWithin_of_chain {r : Except Err (State × Nat)} (h : ErrorsIn l' r) (hl : l' ⊆ l) :
    FailsWithin s l (complete s r) := ⟨r, rfl, h.mono hl⟩

/-- A command that makes no check. -/
theorem failsWithin_write (t : State) (d : Nat) : FailsWithin s [] (complete s (.ok (t, d))) := ⟨_, rfl, errorsIn_ok _⟩

theorem failsWithin_storeResult {ed : EReg} {ops : Except Err Operands} {f : FieldCtx → Vec → Vec → Except Err Vec}
    (hops : ErrorsIn l ops) (hf : ∀ F u v, ErrorsIn l' (f F u v)) :
    FailsWithin s (l ++ l') (storeResult s ed ops f) :=
  ⟨_, rfl, hops.bind fun P => (hf P.field P.u P.v).writes _⟩

variable {f : FieldCtx → Vec → Vec → Except Err Vec}

theorem failsWithin_pair {ed es1 es2 : EReg} (hf : ∀ F u v, ErrorsIn l (f F u v)) :
    FailsWithin s (.uninitialised :: .fieldMismatch :: l) (storeResult s ed (pair s es1 es2) f) :=
  failsWithin_storeResult (errorsIn_pair s es1 es2) hf

theorem failsWithin_withInt {ed es1 : EReg} {n : Int} (hf : ∀ F u v, ErrorsIn l (f F u v)) :
    FailsWithin s (.uninitialised :: l) (storeResult s ed (withInt s es1 n) f) :=
  failsWithin_storeResult (errorsIn_withInt s es1 n) hf

end

theorem failsWithin_csrr (csr : Nat) (s : State) : FailsWithin s [.badAddress] (exec (.csrr csr) s) := by
  refine ⟨_, rfl, ?_⟩
  split
  · exact (errorsIn_ok _).mono (List.nil_subset _)
  · exact errorsIn_error _

theorem errorsIn_gsolveCells (s : State) (base n : Nat) (MA Mb : List Elem) :
    ErrorsIn [.fieldMismatch, .uninitialised, .singularSystem, .badAddress] (gsolveCells s base n MA Mb) := by
  cases MA with
  | nil => exact (errorsIn_ok _).mono (List.nil_subset _)
  | cons x0 MA =>
    refine (errorsIn_sameCtx _ x0.ctx).bind fun _ => (errorsIn_fieldOf s x0.ctx).bind fun F => ?_
    split
    · exact (errorsIn_error _).mono (by simp)
    · exact ((errorsIn_memWrite s _ _).writes _).mono (by simp)

theorem failsWithin_gsolve (ax aA ab an : AReg) (s : State) :
    FailsWithin s (errorsOf (.gsolve ax aA ab an)) (exec (.gsolve ax aA ab an) s) := by
  rw [exec_gsolve rfl]
  exact failsWithin_of_chain ((errorsIn_require _ _).bind fun _ => (errorsIn_checkRange s _ _).bind fun _ =>
    (errorsIn_checkRange s _ _).bind fun _ => (errorsIn_checkRange s _ _).bind fun _ =>
    (errorsIn_memRead s _ _).bind fun MA => (errorsIn_memRead s _ _).bind fun Mb =>
    errorsIn_gsolveCells s _ _ MA Mb) (by simp [errorsOf])

/-- The errors of every command are those of the checks that it makes. -/
theorem exec_failsWithin (i : Instr) (s : State) : FailsWithin s (errorsOf i) (exec i s) := by
  cases i with
  | nop => exact failsWithin_write s 0
  | seta ad imm => exact failsWithin_write (writeA s ad _) 0
  | csrr csr => exact failsWithin_csrr csr s
  | clre => exact failsWithin_write { s with esr := 0 } 0
  | cclr => exact failsWithin_write { s with cbuf := [] } 0
  | cpush v => exact ⟨_, rfl, (errorsIn_require _ _).writes _⟩
  | emk ed c =>
    exact ⟨_, rfl, (errorsIn_fieldOf s c).bind fun F => (errorsIn_elementOfSequence F _).writes _⟩
  | emki ed c v => exact ⟨_, rfl, (errorsIn_fieldOf s c).writes _⟩
  | erdc es index =>
    exact failsWithin_of_chain ((errorsIn_readE s es).bind fun x => (errorsIn_fieldOf s x.ctx).bind fun F =>
      (errorsIn_require _ _).writes _) (by simp [errorsOf])
  | emov ed es => exact ⟨_, rfl, (errorsIn_readE s es).writes _⟩
  | eld ed offset ab => exact ⟨_, rfl, (errorsIn_checkRange s _ _).bind fun _ => (errorsIn_held _).writes _⟩
  | est es offset ab => exact ⟨_, rfl, (errorsIn_readE s es).bind fun x => (errorsIn_memWrite s _ _).writes _⟩
  | fcfg c ap m fp => exact ⟨_, rfl, (errorsIn_construct _ _ _ _ _).writes _⟩
  | logrd es =>
    exact failsWithin_of_chain ((errorsIn_readE s es).bind fun x => (errorsIn_fieldOf s x.ctx).bind fun F =>
      (errorsIn_held F.tables).bind fun T => (errorsIn_require _ _).writes _) (by simp [errorsOf])
  | alogrd ed c ai =>
    exact failsWithin_of_chain ((errorsIn_fieldOf s c).bind fun F => (errorsIn_held F.tables).bind fun T =>
      (errorsIn_require _ _).writes _) (by simp [errorsOf])
  | fadd ed es1 es2 => exact failsWithin_pair fun _ _ _ => errorsIn_ok _
  | fsub ed es1 es2 => exact failsWithin_pair fun _ _ _ => errorsIn_ok _
  | fneg ed es1 =>
    exact failsWithin_of_chain ((errorsIn_readE s es1).bind fun x => (errorsIn_fieldOf s x.ctx).writes _)
      (by simp [errorsOf])
  | fmul ed es1 es2 => exact failsWithin_pair fun _ _ _ => errorsIn_ok _
  | fdiv ed es1 es2 => exact failsWithin_pair fun F u v => F.errorsIn_div u v
  | pmulg ed es1 es2 => exact failsWithin_pair fun _ _ _ => errorsIn_ok _
  | feq es1 es2 =>
    exact failsWithin_of_chain ((errorsIn_readE s es1).bind fun x => (errorsIn_readE s es2).writes _)
      (by simp [errorsOf])
  | faddi ed es1 n => exact failsWithin_withInt fun _ _ _ => errorsIn_ok _
  | fsubi ed es1 n => exact failsWithin_withInt fun _ _ _ => errorsIn_ok _
  | frsubi ed es1 n => exact failsWithin_withInt fun F u k => errorsIn_ok (F.sub k u)
  | fmuli ed es1 n => exact failsWithin_withInt fun _ _ _ => errorsIn_ok _
  | fdivi ed es1 n => exact failsWithin_withInt fun F u k => F.errorsIn_div u k
  | frdivi ed es1 n => exact failsWithin_withInt fun F u k => F.errorsIn_div k u
  | gsolve ax aA ab an => exact failsWithin_gsolve ax aA ab an s
  | peval ed es ac al =>
    exact failsWithin_of_chain ((errorsIn_readE s es).bind fun x => (errorsIn_memRead s _ _).bind fun L =>
      (errorsIn_sameCtx L x.ctx).bind fun _ => (errorsIn_fieldOf s x.ctx).writes _) (by simp [errorsOf])
  | rscfg c an ak ax =>
    exact failsWithin_of_chain ((errorsIn_fieldOf s c).bind fun F => (errorsIn_codecSizes s.params F _ _).bind fun _ =>
      (errorsIn_memRead s _ _).bind fun L => (errorsIn_sameCtx L c).bind fun _ => (errorsIn_require _ _).writes _)
      (by simp [errorsOf])
  | rscfga c an ak =>
    exact ⟨_, rfl, (errorsIn_fieldOf s c).bind fun F => (errorsIn_codecSizes s.params F _ _).writes _⟩
  | rsenc c ad am =>
    exact failsWithin_of_chain ((errorsIn_codecOf s c).bind fun R => (errorsIn_checkRange s _ _).bind fun _ =>
      (errorsIn_checkRange s _ _).bind fun _ => (errorsIn_memRead s _ _).bind fun M => (errorsIn_sameCtx M c).bind
      fun _ => (errorsIn_fieldOf s c).bind fun F => (errorsIn_memWrite s _ _).writes _) (by simp [errorsOf])
  | rsdec c ad ar =>
    exact failsWithin_of_chain ((errorsIn_codecOf s c).bind fun R => (errorsIn_checkRange s _ _).bind fun _ =>
      (errorsIn_checkRange s _ _).bind fun _ => (errorsIn_memRead s _ _).bind fun L => (errorsIn_sameCtx L c).bind
      fun _ => (errorsIn_fieldOf s c).bind fun F => (errorsIn_bwDecode F R _).bind fun P =>
      (errorsIn_memWrite s _ _).writes _) (by simp [errorsOf])
  | rspt ed c ai => exact ⟨_, rfl, (errorsIn_codecOf s c).bind fun R => (errorsIn_require _ _).writes _⟩

/-- Settles O13: the error of the response is that of the command's result, which its checks can raise. -/
theorem errorsOfEachCommand : Obligations.ErrorsOfEachCommand := by
  intro i s x hx
  exact (exec_failsWithin i s).mem_of_fails hx

/-! ### Division by zero (R195) -/

theorem FieldCtx.div_zero (F : FieldCtx) (u : Vec) : F.div u F.zero = .error .divisionByZero := if_pos rfl

theorem fails_of_storeResult {s : State} {i : Instr} {ed : EReg} {ops : Except Err Operands} {P : Operands} {x : Err}
    {f : FieldCtx → Vec → Vec → Except Err Vec} (hexec : exec i s = storeResult s ed ops f) (hops : ops = .ok P)
    (hx : f P.field P.u P.v = .error x) : Fails i s x :=
  fails_of_eq_error (hexec.trans (storeResult_eq s ed P ops f hops)) (by rw [hx]; rfl)

/-- Settles O45: the operands are held, and the divisor of each command is the zero of their field. -/
theorem zeroDivisorRaisesDivisionByZero : Obligations.ZeroDivisorRaisesDivisionByZero := by
  intro s ed es1 es2 c F u n hs hF hu
  refine ⟨fun hv => ?_, fun hn => ?_, fun hu0 => ?_⟩
  · exact fails_of_storeResult (exec_fdiv s ed es1 es2) (pair_held hu hv hF) (F.div_zero u)
  · have hn0 : F.promote n = F.zero := (FieldCtx.promote_eq_zero_iff (hs.sound hF).ring n).2 hn
    exact fails_of_storeResult (exec_fdivi s ed es1 n) (withInt_held hu hF n) (hn0 ▸ F.div_zero u)
  · subst hu0
    exact fails_of_storeResult (exec_frdivi s ed es1 n) (withInt_held hu hF n) (F.div_zero _)

end Sys2Proof.Machine
end

section
/-! A run over the words the host issues (70_reset_and_hazards.md R227): each step of the run is the one-word
transaction with the words after it left on the port. -/

namespace Sys2Proof.Machine

/-! ### One step with more words on the port -/

/-- A command does not read the port, so what a step makes of its word does not depend on the words after it. -/
theorem step_with_pending {s t : State} {w : Word} (h : step (s.accepted [w]) = .next t) (rest : List Word) :
    step (s.accepted (w :: rest)) = .next (t.accepted rest) := by
  cases hdecode : decode w with
  | error x =>
    rw [step_of_illegal (s := s.accepted [w]) rfl hdecode] at h
    obtain rfl := Host.Outcome.next.inj h
    exact step_of_illegal (s := s.accepted (w :: rest)) rfl hdecode
  | ok i =>
    have hexec : exec i (s.accepted []) = .next t :=
      (stepRunsTheDecodedCommand (s.accepted [w]) w [] i rfl hdecode).symm.trans h
    obtain ⟨r, hr, -, hports⟩ := portsDoNotInfluenceCommands i _ t rest s.responses hexec
    have hresponses : t.responses = r :: s.responses := hr
    rw [← hresponses] at hports
    exact (stepRunsTheDecodedCommand (s.accepted (w :: rest)) w rest i rfl hdecode).trans hports

theorem transact_of_step {s t : State} {w : Word} (h : step (s.accepted [w]) = .next t) :
    transact s w = t.accepted s.cmds := by
  have hstep : step { s with cmds := [w] } = .next t := h
  simp only [transact, hstep]
  rfl

/-- A transaction leaves the pending words as they were. -/
theorem transact_cmds (s : State) (w : Word) : (transact s w).cmds = s.cmds := by
  obtain ⟨t, ht⟩ := everyStepAnswers (s.accepted [w])
  rw [transact_of_step ht]
  rfl

/-- The step of a run is the transaction of its word, before the words that follow. -/
theorem step_eq_transact (s : State) (w : Word) (rest : List Word) :
    step (s.accepted (w :: rest)) = .next ((transact s w).accepted rest) := by
  obtain ⟨t, ht⟩ := everyStepAnswers (s.accepted [w])
  rw [transact_of_step ht]
  exact step_with_pending ht rest

/-! ### The run -/

theorem run_succ_of_step {M : Host.Core} {s t : M.State} (h : M.step s = .next t) (k : Nat) :
    M.run (k + 1) s = M.run k t := by
  simp only [Host.Core.run, h]

/-- Settles O10, by induction on the words: the first step is the first word's transaction, and it leaves the
other words on the port. -/
theorem runIsTheFoldOverTheCommands : Obligations.RunIsTheFoldOverTheCommands := by
  intro ws
  induction ws with
  | nil =>
    rintro ⟨⟩ ⟨⟩
    rfl
  | cons w rest ih =>
    intro s hcmds
    have hstep : core.step (s.accepted (w :: rest)) = .next ((transact s w).accepted rest) := step_eq_transact s w rest
    calc core.run (rest.length + 1) (s.accepted (w :: rest))
      _ = core.run rest.length ((transact s w).accepted rest) := run_succ_of_step hstep rest.length
      _ = .next (rest.foldl transact (transact s w)) := ih _ ((transact_cmds s w).trans hcmds)

end Sys2Proof.Machine
end

section
/-! The step without a command (70_reset_and_hazards.md R220, log 3). -/

namespace Sys2Proof.Machine

/-- Settles O7: an empty port gives no word, and the step is then the wait, which keeps the whole state. -/
theorem stepWithoutCommandWaits : Obligations.StepWithoutCommandWaits := by
  intro s hcmds
  exact step_of_no_command hcmds

end Sys2Proof.Machine
end
